-- ==== Sys2Proof/Word.lean ====
section
/-! DEFINITION. The word types of HRC: 32-bit registers, device addresses and command words, and
8-bit symbols (00_scope R11, R13). Every quantity of HRC is unsigned (R13). -/

namespace Sys2Proof

/-- A symbol, and a byte of IN or OUT (00_scope R11: "A symbol is one byte, 0–255"). -/
abbrev Byte := BitVec 8

/-- A register, a device address, a FREQ entry or a command word (00_scope R11). -/
abbrev Word := BitVec 32

end Sys2Proof
end

