-- ==== Sys2Proof/Config.lean ====
section
/-! DEFINITION. What an implementation of HRC fixes (the parameters of 00_scope R10) and the free
values the spec leaves open (`any`, 00_scope R15). -/

namespace Sys2Proof

/-- The parameters of 00_scope R10, which "the model takes as arguments": they stand in the state and
no step changes them. Their legal ranges are `Config.wf`. -/
structure Config where
  /-- MAX_IN: bytes in the IN memory. -/
  maxIn : Nat
  /-- MAX_OUT: bytes in the OUT memory. -/
  maxOut : Nat
  /-- MAX_WORKERS: largest legal worker count. -/
  maxWorkers : Nat
  deriving DecidableEq, Repr

/-- The parameters spec/95_test_vectors.md section 0 uses "unless a vector says otherwise".
DESIGN CHOICE (log 1, unsafe for a claim about `State.reset` alone): the spec leaves the three
parameters open, and `State.reset` takes these. -/
def Config.standard : Config := ⟨4096, 4096, 8⟩

/-- The byte at an index that draw number `draw` left unspecified (10_state R52, R53; 60_exceptions
R355; 70_reset R402). A free value (logs 2 and 3): nothing constrains it. -/
opaque Config.freeByte : (draw index : Nat) → Byte

/-- The value a read while BUSY returns (20_memory R111), by draw number. A free value (log 4). -/
opaque Config.freeWord : (draw : Nat) → Word

end Sys2Proof
end

