-- ==== Sys2Proof/Syntax.lean ====
section
/-! DEFINITION. The instruction set of HRC: the 12 commands of 30_encoding R131, one constructor for
each row of spec/opcode_table.json. A command word carries no operand (R137). -/

namespace Sys2Proof

/-- The commands of HRC (30_encoding R131). -/
inductive Instr where
  /-- NOP (43_control R320). -/
  | nop
  /-- HUF_FREQ (40_huffman_encode R181). -/
  | hufFreq
  /-- HUF_BUILD (40_huffman_encode R186). -/
  | hufBuild
  /-- HUF_PACK (40_huffman_encode R188). -/
  | hufPack
  /-- HUF_ENC (40_huffman_encode R189). -/
  | hufEnc
  /-- HUF_DEC, counted mode (41_huffman_decode R234). -/
  | hufDec
  /-- HUF_DEC.B, baseline mode (41_huffman_decode R235). -/
  | hufDecB
  /-- RLE_ENC (42_rle R272). -/
  | rleEnc
  /-- RLE_DEC (42_rle R273). -/
  | rleDec
  /-- RLE_ENC_PAR (42_rle R275). -/
  | rleEncPar
  /-- RLE_DEC_PAR (42_rle R277). -/
  | rleDecPar
  /-- CLEAR_TABLES (43_control R321). -/
  | clearTables
  deriving DecidableEq, Repr

end Sys2Proof
end

