-- ==== Sys2Proof/WellFormed.lean ====
section
/-! DEFINITION. The checks on what comes from outside the machine: the parameters (00_scope R10) and
the raw command word (30_encoding R134). -/

namespace Sys2Proof

/-- The legal ranges of the parameters (00_scope R10). -/
def Config.wf (c : Config) : Bool :=
  (1 ≤ c.maxIn && c.maxIn ≤ 2 ^ 28) && (1 ≤ c.maxOut && c.maxOut ≤ 2 ^ 28) &&
    (4 ≤ c.maxWorkers && c.maxWorkers ≤ 255)

/-- `legal(v)` of 30_encoding R134, its three conditions in the rule's order. -/
def legalWord (v : Word) : Bool :=
  (v.extractLsb' 5 27 == 0#27) && decide ((v.extractLsb' 0 4).toNat ≤ 0xA) &&
    (!v.getLsbD 4 || v.extractLsb' 0 4 == 5#4)

/-- A command carries no operand (30_encoding R137), so every constructor is well formed: there is no
field to check. -/
def Instr.wf (_ : Instr) : Bool := true

end Sys2Proof
end

