-- ==== Sys2Proof/Decode.lean ====
section
/-! DEFINITION. The command word (30_encoding R130–R136): the decoder, total on all 2^32 words, which
rejects by name; and after it the encoder. -/

namespace Sys2Proof

/-- OP, bits [3:0] of the command word (30_encoding R130). -/
def opField (v : Word) : BitVec 4 := v.extractLsb' 0 4

/-- M, bit [4] of the command word (30_encoding R130). -/
def modeField (v : Word) : Bool := v.getLsbD 4

/-- RSV, bits [31:5] of the command word (30_encoding R130). -/
def reservedField (v : Word) : BitVec 27 := v.extractLsb' 5 27

/-- Why a word is no command (30_encoding R132, R133, R135). -/
inductive DecodeReject where
  /-- A bit of [31:5] is set (R133). -/
  | reservedBits
  /-- OP is 0xB–0xF (R131). -/
  | reservedOpcode
  /-- M = 1 with an OP other than 0x5 (R132). -/
  | modeNotAllowed
  deriving DecidableEq, Repr

/-- The opcode map for M = 0 (30_encoding R131). -/
def commandOf (op : BitVec 4) : Option Instr :=
  match op.toNat with
  | 0x0 => some .nop
  | 0x1 => some .hufFreq
  | 0x2 => some .hufBuild
  | 0x3 => some .hufPack
  | 0x4 => some .hufEnc
  | 0x5 => some .hufDec
  | 0x6 => some .rleEnc
  | 0x7 => some .rleDec
  | 0x8 => some .rleEncPar
  | 0x9 => some .rleDecPar
  | 0xA => some .clearTables
  | _ => none

/-- `decode(v)` of 30_encoding R134; an `error` is the rule's ILLEGAL, with the reason. -/
def decode (v : Word) : Except DecodeReject Instr :=
  if reservedField v ≠ 0 then .error .reservedBits
  else match commandOf (opField v) with
    | none => .error .reservedOpcode
    | some i =>
      if modeField v then
        if opField v = 5 then .ok .hufDecB else .error .modeNotAllowed
      else .ok i

/-- OP of each command (30_encoding R131). -/
def opOf : Instr → BitVec 4
  | .nop => 0x0
  | .hufFreq => 0x1
  | .hufBuild => 0x2
  | .hufPack => 0x3
  | .hufEnc => 0x4
  | .hufDec => 0x5
  | .hufDecB => 0x5
  | .rleEnc => 0x6
  | .rleDec => 0x7
  | .rleEncPar => 0x8
  | .rleDecPar => 0x9
  | .clearTables => 0xA

/-- M of each command (30_encoding R131, R132). -/
def modeOf : Instr → Bool
  | .hufDecB => true
  | .nop => false
  | .hufFreq => false
  | .hufBuild => false
  | .hufPack => false
  | .hufEnc => false
  | .hufDec => false
  | .rleEnc => false
  | .rleDec => false
  | .rleEncPar => false
  | .rleDecPar => false
  | .clearTables => false

/-- The command word of a command: RSV, M and OP side by side (30_encoding R130). -/
def encode (i : Instr) : Word := 0#27 ++ BitVec.ofBool (modeOf i) ++ opOf i

/-- The command that the decoder reads from a word whose bits opcode_table.json numbers as `w`. A
command is exactly one 32-bit word (30_encoding R136), so a number beyond 32 bits is no command. -/
def decodeTableWord (nbits w : Nat) : Option Instr :=
  if w % 2 ^ nbits < 2 ^ 32 then (decode (BitVec.ofNat 32 (w % 2 ^ nbits))).toOption else none

end Sys2Proof
end

