-- ==== Sys2Proof/Machine/State.lean ====
section
/-! DEFINITION. The state of HRC (spec/10_state.md), as plain data, and the state after reset
(70_reset R400). -/

namespace Sys2Proof.Machine

/-- STATUS (10_state R38). Bits [31:5] are reserved and read 0, so no field holds them. -/
structure Status where
  busy : Bool
  done : Bool
  err : Bool
  overrun : Bool
  partialTail : Bool
  deriving DecidableEq, Repr

/-- One entry of the code table CT (10_state R51). -/
structure CtEntry where
  valid : Bool
  len : BitVec 8
  v : BitVec 255
  deriving DecidableEq, Repr

/-- A table with one entry for each symbol (10_state R50, R51). -/
abbrev Table (α : Type) := Vector α 256

/-- The bytes of IN or OUT that have a definite value, by byte index, indices strictly rising
(`Memory.wf`). An index that is not listed holds the byte of the memory's draw (`Config.freeByte`,
logs 2 and 3). -/
abbrev Memory := List Host.Cell

/-- `phase` of the engine (10_state R54). -/
inductive Phase where
  | idle
  | busy
  deriving DecidableEq, Repr

/-- The widths of bus accesses in 20_memory R92; "No access wider than 32 bits exists". -/
inductive Width where
  | w8
  | w16
  | w32
  deriving DecidableEq, Repr

/-- What the outside world does to HRC next (00_scope R9; logs 5 and 7). -/
inductive Input where
  /-- The host reads at a device address: MemRead (43_control R323). -/
  | read (addr : Word) (width : Width)
  /-- The host writes at a device address: MemWrite (43_control R322). An 8-bit access carries bits [7:0]. -/
  | write (addr : Word) (width : Width) (value : Word)
  /-- The host polls STATUS until BUSY = 0: WAIT (30_encoding R164). -/
  | wait
  /-- The engine is given its step: the completion step if a command is running (60_exceptions R353). -/
  | engine
  /-- Reset is applied (70_reset R400). -/
  | reset
  deriving DecidableEq, Repr

/-- What the bus port answers the host (log 6). -/
inductive BusResponse where
  /-- The value a read returns, zero-extended to 32 bits. -/
  | data (value : Word)
  /-- The end of a write that is no bus error (43_control R322, R327). -/
  | written
  /-- The bus error response (20_memory R91, 60_exceptions R363). -/
  | busError
  deriving DecidableEq, Repr

/-- The errors a command can report, but for NONE (60_exceptions R351). -/
inductive ErrKind where
  | emptyInput
  | invalidBitSequence
  | missingCodeTable
  | badCodeTable
  | truncatedStream
  | noCode
  | outOverflow
  | inLenTooLarge
  | rleOddLength
  | badWorkers
  | illegalCmd
  deriving DecidableEq, Repr

/-- An error with the position it records (60_exceptions R351, R357). -/
structure CodecError where
  kind : ErrKind
  pos : Nat
  deriving DecidableEq, Repr

/-- The state of HRC: the registers of 10_state R36–R47, the tables and memories of R50–R53, the
engine state of R54, the parameters of 00_scope R10, and the model's own fields. ID and the CAP
registers are constants that the register read computes (R32–R35). -/
structure State where
  /-- The parameters (00_scope R10; read back in CAP_IN, CAP_OUT, CAP_WORKERS, R33–R35). -/
  cfg : Config
  /-- CTRL.IE (R36). -/
  ie : Bool
  /-- CMD (R37): all 32 bits as written. -/
  cmd : Word
  /-- STATUS (R38). -/
  status : Status
  /-- ERR_CODE[3:0] (R39). -/
  errCode : BitVec 4
  /-- FAULT_POS (R40). -/
  faultPos : Word
  /-- IN_LEN (R41). -/
  inLen : Word
  /-- OUT_LEN (R42). -/
  outLen : Word
  /-- SYM_COUNT (R43). -/
  symCount : Word
  /-- BIT_LEN (R44). -/
  bitLen : Word
  /-- WORKERS[7:0] (R45). -/
  workers : BitVec 8
  /-- TABLE_ENTRIES[8:0] (R46). -/
  tableEntries : BitVec 9
  /-- RUNS (R47). -/
  runs : Word
  /-- FREQ (R50). -/
  freq : Table Word
  /-- CT (R51). -/
  ct : Table CtEntry
  /-- IN (R52), by byte index. -/
  inMem : Memory
  /-- OUT (R53), by byte index. -/
  outMem : Memory
  /-- phase (R54). -/
  phase : Phase
  /-- latched (R54). -/
  latched : Word
  /-- The draw that the unlisted bytes of IN hold (log 2). The model's own field. -/
  inDraw : Nat
  /-- The draw that the unlisted bytes of OUT hold (logs 2, 3). The model's own field. -/
  outDraw : Nat
  /-- How many draws have been made (log 11). The model's own field. -/
  draws : Nat
  /-- What the outside world does next, first thing first (log 5). The model's own field. -/
  inputs : List Input
  /-- What the bus port has answered, newest first (log 6). The model's own field. -/
  responses : List BusResponse
  deriving DecidableEq, Repr

/-- HRC has no fault of its own: "No error stops HRC" (60_exceptions R350), and a bus error is a
response to the host that HRC does not record (R363). Nothing raises a fault, which is safe (log 13). -/
inductive Fault where
  deriving DecidableEq, Repr

/-- Why the model gives an instruction no meaning. -/
inductive Refusal where
  /-- Raised by an arm of `exec` whose instruction has no meaning yet; safe. No arm raises it: every
  command has its meaning. -/
  | notModelled (mnemonic : String)
  deriving DecidableEq, Repr

/-- Every piece of state at its value of 70_reset R400, for parameters `cfg`. Every byte of IN and OUT
is unspecified and stable (R402): nothing is listed and the bytes are those of two fresh draws. -/
def State.resetWith (cfg : Config) (draws : Nat) : State where
  cfg := cfg
  ie := false
  cmd := 0
  status := ⟨false, false, false, false, false⟩
  errCode := 0
  faultPos := 0
  inLen := 0
  outLen := 0
  symCount := 0
  bitLen := 0
  workers := 4
  tableEntries := 0
  runs := 0
  freq := Vector.replicate 256 0
  ct := Vector.replicate 256 ⟨false, 0, 0⟩
  inMem := []
  outMem := []
  phase := .idle
  latched := 0
  inDraw := draws
  outDraw := draws + 1
  draws := draws + 2
  inputs := []
  responses := []

/-- The machine right after reset (70_reset R400, R403), with the parameters of `Config.standard`
(DESIGN CHOICE, log 1) and the draw counters starting at 0 (DESIGN CHOICE, log 11). -/
def State.reset : State := State.resetWith Config.standard 0

end Sys2Proof.Machine
end

