-- ==== Sys2Proof/Machine/Flags.lean ====
section
/-! DEFINITION. The STATUS flags: how they read, what sets and clears them, and the IRQ output
(10_state R38, R56; 60_exceptions R353, R358; 43_control R324–R326). -/

namespace Sys2Proof.Machine

/-- STATUS as a word: BUSY [0], DONE [1], ERR [2], OVERRUN [3], PARTIAL_TAIL [4], [31:5] zero
(10_state R38). -/
def Status.word (st : Status) : Word :=
  0#27 ++ BitVec.ofBool st.partialTail ++ BitVec.ofBool st.overrun ++ BitVec.ofBool st.err ++
    BitVec.ofBool st.done ++ BitVec.ofBool st.busy

/-- An accepted CMD write: BUSY <- 1, DONE <- 0, ERR <- 0 (43_control R324). -/
def Status.accept (st : Status) : Status := { st with busy := true, done := false, err := false }

/-- The flags a completion step writes: BUSY <- 0, DONE <- 1, ERR and PARTIAL_TAIL; OVERRUN is not
changed (10_state R56, 60_exceptions R353). -/
def Status.complete (st : Status) (err partialTail : Bool) : Status :=
  { st with busy := false, done := true, err := err, partialTail := partialTail }

/-- A write dropped while BUSY sets OVERRUN (20_memory R110). -/
def Status.dropWrite (st : Status) : Status := { st with overrun := true }

/-- The W1C write of STATUS, at any time (43_control R325). -/
def Status.w1c (st : Status) (v : Word) : Status :=
  { st with
    done := st.done && !v.getLsbD 1
    err := st.err && !v.getLsbD 2
    overrun := st.overrun && !v.getLsbD 3 }

/-- CTRL as a word: IE in bit 0, [31:1] zero (10_state R36). -/
def State.ctrlWord (s : State) : Word := 0#31 ++ BitVec.ofBool s.ie

/-- The IRQ output (60_exceptions R358). -/
def State.irq (s : State) : Bool := s.ie && s.status.done

end Sys2Proof.Machine
end

