-- ==== Sys2Proof/Machine/Memory.lean ====
section
/-! DEFINITION. IN and OUT as lists of (byte index, byte) in one canonical form, and the tables FREQ and
CT by symbol (10_state R50–R53, 20_memory R100). -/

namespace Sys2Proof.Machine

/-- The canonical form: indices strictly rise. An unlisted index reads as no definite byte (`none`), so
no entry can equal what an unlisted index reads as. -/
abbrev Memory.wf (m : Memory) : Prop := List.Pairwise (fun x y => x.1 < y.1) m

/-- Every listed index lies inside a memory of `n` bytes. -/
abbrev Memory.within (m : Memory) (n : Nat) : Prop := ∀ c ∈ m, c.1 < n

/-- The definite byte at an index, if it has one. -/
def Memory.get? : Memory → Nat → Option Byte
  | [], _ => none
  | (j, b) :: rest, i => if j = i then some b else Memory.get? rest i

/-- What an unlisted index reads as: the byte its memory's draw left there, a free value that stays
the same until the index is written (10_state R52, R53; log 2). -/
def Memory.unlisted (draw i : Nat) : Byte := Config.freeByte draw i

/-- The byte at an index, where `draw` is the memory's draw. -/
def Memory.read (m : Memory) (draw i : Nat) : Byte :=
  (m.get? i).getD (Memory.unlisted draw i)

/-- Bytes laid out from index `i` upwards. -/
def Memory.layOut : Nat → List Byte → Memory
  | _, [] => []
  | i, b :: rest => (i, b) :: Memory.layOut (i + 1) rest

/-- Write `bytes` at indices `i`, `i + 1`, … and leave every other index alone. -/
def Memory.store (m : Memory) (i : Nat) (bytes : List Byte) : Memory :=
  m.filter (fun c => c.1 < i) ++ Memory.layOut i bytes ++
    m.filter (fun c => i + bytes.length ≤ c.1)

/-- The little-endian bytes of a word (20_memory R95). -/
def bytesOfWord (v : Word) : List Byte :=
  [v.extractLsb' 0 8, v.extractLsb' 8 8, v.extractLsb' 16 8, v.extractLsb' 24 8]

/-- The word whose little-endian bytes are `b0`, `b1`, `b2`, `b3` (20_memory R95). -/
def wordOfBytes (b0 b1 b2 b3 : Byte) : Word := b3 ++ b2 ++ b1 ++ b0

/-- All symbols in ascending order, the order of every per-symbol loop (92_eei_decisions D54). -/
def allSymbols : List Byte := (List.range 256).map (BitVec.ofNat 8)

/-- The entry of a symbol. -/
def Table.get {α : Type} (t : Table α) (s : Byte) : α := t[s.toNat]'s.isLt

/-- Change the entry of one symbol. -/
def Table.set {α : Type} (t : Table α) (s : Byte) (x : α) : Table α := Vector.set t s.toNat x s.isLt

/-- There are 256 symbols. -/
theorem allSymbols_length : allSymbols.length = 256 := by simp [allSymbols]

/-- The table whose entry for `s` is `f s`. -/
def Table.ofFn {α : Type} (f : Byte → α) : Table α :=
  Vector.mk (allSymbols.map f).toArray (by simp [allSymbols_length])

/-- The entries with their symbols, in ascending symbol order. -/
def Table.entries {α : Type} (t : Table α) : List (Byte × α) := allSymbols.zip t.toList

/-- The reset value of a CT entry: VALID = 0, LEN = 0, V = 0 (10_state R51). -/
def CtEntry.clear : CtEntry := ⟨false, 0, 0⟩

/-- CT_META as a word: VALID in bit 31, LEN in bits [7:0] (20_memory R99). -/
def CtEntry.metaWord (e : CtEntry) : Word := BitVec.ofBool e.valid ++ 0#23 ++ e.len

/-- CT_CODE(k) as a word: V[32k+31:32k], and for k = 7 V[254:224] with bit 31 zero (20_memory R99). -/
def CtEntry.codeWord (e : CtEntry) (k : Nat) : Word := e.v.extractLsb' (32 * k) 32

/-- A write to CT_META: VALID and LEN; bits [30:8] are ignored (43_control R322, R327). -/
def CtEntry.setMeta (e : CtEntry) (w : Word) : CtEntry :=
  { e with valid := w.getLsbD 31, len := w.extractLsb' 0 8 }

/-- A write to CT_CODE(k): V[32k+31:32k] <- w, and for k = 7 V[254:224] <- w[30:0]; bit 31 falls off
the 255-bit V (43_control R322, R327). -/
def CtEntry.setCodeWord (e : CtEntry) (k : Nat) (w : Word) : CtEntry :=
  { e with v := (e.v &&& ~~~((BitVec.allOnes 32).setWidth 255 <<< (32 * k))) |||
      (w.setWidth 255 <<< (32 * k)) }

end Sys2Proof.Machine
end

