-- ==== Sys2Proof/Machine/Operands.lean ====
section
/-! DEFINITION. The implicit operands of the commands (30_encoding R137): what a command reads of the
registers, tables and IN, and the common start checks over them (60_exceptions R356). -/

namespace Sys2Proof.Machine

/-- Byte `i` of IN (10_state R52). -/
def State.inByte (s : State) (i : Nat) : Byte := s.inMem.read s.inDraw i

/-- Byte `i` of OUT (10_state R53). -/
def State.outByte (s : State) (i : Nat) : Byte := s.outMem.read s.outDraw i

/-- IN[0..IN_LEN−1], "and nothing else of it" (10_state R52). -/
def State.inData (s : State) : List Byte := (List.range s.inLen.toNat).map s.inByte

/-- OUT[0..n−1]. -/
def State.outData (s : State) (n : Nat) : List Byte := (List.range n).map s.outByte

/-- FREQ[b] (10_state R50). -/
def State.freqOf (s : State) (b : Byte) : Word := s.freq.get b

/-- CT[b] (10_state R51). -/
def State.ctOf (s : State) (b : Byte) : CtEntry := s.ct.get b

/-- Start check 2 of 60_exceptions R356: IN_LEN > MAX_IN. -/
def State.inTooLong (s : State) : Bool := s.cfg.maxIn < s.inLen.toNat

/-- Start check 3 of 60_exceptions R356: WORKERS[7:0] = 0 or WORKERS[7:0] > MAX_WORKERS. -/
def State.badWorkers (s : State) : Bool := s.workers.toNat < 1 || s.cfg.maxWorkers < s.workers.toNat

/-- Start check 4 of 60_exceptions R356: IN_LEN odd. -/
def State.oddLength (s : State) : Bool := s.inLen.toNat % 2 == 1

/-- S, the number of nonzero FREQ entries (00_scope R17, 40_huffman_encode R186). -/
def distinctSymbols (freq : Table Word) : Nat := freq.entries.countP fun e => e.2 != 0

/-- E, the number of VALID CT entries (41_huffman_decode R234). -/
def validEntries (ct : Table CtEntry) : Nat := ct.entries.countP fun e => e.2.valid

end Sys2Proof.Machine
end

