-- ==== Sys2Proof/Machine/Ops.lean ====
section
/-! DEFINITION. The shared operations: accepting a command, completing it, reporting an error (HRC's
counterpart of taking a trap, 60_exceptions R360), acknowledging it (R361), and reset. -/

namespace Sys2Proof.Machine

/-- The code of an error (60_exceptions R351). -/
def ErrKind.code : ErrKind → BitVec 4
  | .emptyInput => 1
  | .invalidBitSequence => 2
  | .missingCodeTable => 3
  | .badCodeTable => 4
  | .truncatedStream => 5
  | .noCode => 6
  | .outOverflow => 7
  | .inLenTooLarge => 8
  | .rleOddLength => 9
  | .badWorkers => 10
  | .illegalCmd => 11

/-- Whether an error is a start-check error; the others are execution errors (60_exceptions R353). -/
def ErrKind.isStartCheck : ErrKind → Bool
  | .emptyInput => true
  | .invalidBitSequence => false
  | .missingCodeTable => true
  | .badCodeTable => true
  | .truncatedStream => false
  | .noCode => false
  | .outOverflow => false
  | .inLenTooLarge => true
  | .rleOddLength => true
  | .badWorkers => true
  | .illegalCmd => true

/-- `accept(v)`: the effect of a legal CMD write while BUSY = 0 (43_control R324). -/
def State.accept (s : State) (v : Word) : State :=
  { s with cmd := v, latched := v, status := s.status.accept, phase := .busy }

/-- The completion fields of a command that succeeds (60_exceptions R353). `partialTail` is true only
for HUF_DEC.B whose input ended inside a code path. -/
def State.complete (s : State) (partialTail : Bool := false) : State :=
  { s with errCode := 0, faultPos := 0, status := s.status.complete false partialTail, phase := .idle }

/-- The completion fields of a command that fails: ERR_CODE and FAULT_POS are saved, ERR and DONE rise,
PARTIAL_TAIL falls (60_exceptions R353, R360). With nothing else written it is the whole effect of a
start-check error (R354). -/
def State.reportError (s : State) (e : CodecError) : State :=
  { s with
    errCode := e.kind.code
    faultPos := BitVec.ofNat 32 e.pos
    status := s.status.complete true false
    phase := .idle }

/-- A start-check error (60_exceptions R354). -/
def State.failStart (s : State) (kind : ErrKind) (pos : Nat) : State := s.reportError ⟨kind, pos⟩

/-- After an execution error every byte of OUT holds an unspecified value that stays until it is
written (60_exceptions R355): nothing is listed, and the bytes are those of a fresh draw (log 3). -/
def State.scrambleOut (s : State) : State :=
  { s with outMem := [], outDraw := s.draws, draws := s.draws + 1 }

/-- The execution error of HUF_PACK and HUF_ENC (60_exceptions R355, first two rows). -/
def State.failPack (s : State) (e : CodecError) : State :=
  { s with outLen := 0, bitLen := 0, symCount := 0 }.scrambleOut.reportError e

/-- The execution error of HUF_DEC and HUF_DEC.B (60_exceptions R355, third row). -/
def State.failDecode (s : State) (e : CodecError) : State :=
  { s with outLen := 0, bitLen := 0 }.scrambleOut.reportError e

/-- The execution error of the RLE commands (60_exceptions R355, last row). -/
def State.failRle (s : State) (e : CodecError) : State :=
  { s with outLen := 0, runs := 0 }.scrambleOut.reportError e

/-- OUT[0..n−1] <- the bytes, OUT_LEN <- n; bytes at n and above keep their values (10_state R53). -/
def State.writeOut (s : State) (bytes : List Byte) : State :=
  { s with outMem := s.outMem.store 0 bytes, outLen := BitVec.ofNat 32 bytes.length }

/-- The host's acknowledgement of a completion, the counterpart of a return from a trap: the W1C write
of STATUS (60_exceptions R361, 43_control R325). -/
def State.acknowledge (s : State) (v : Word) : State := { s with status := s.status.w1c v }

/-- Reset (70_reset R400–R402), whatever the state: every piece of HRC's state takes its reset value and
IN and OUT take fresh unspecified bytes. The parameters are constants, and `inputs`, `responses`
and the count of draws are not HRC's (log 10). -/
def State.applyReset (s : State) : State :=
  { State.resetWith s.cfg s.draws with inputs := s.inputs, responses := s.responses }

end Sys2Proof.Machine
end

