-- ==== Sys2Proof/Machine/Bus.lean ====
section
/-! DEFINITION. The host's bus accesses: the address map (20_memory R90–R93, R98, R99), MemWrite and
MemRead (43_control R322–R327), and what they do while BUSY (20_memory R110, R111). -/

namespace Sys2Proof.Machine

/-- The sixteen registers (10_state R48). -/
inductive Reg where
  | id
  | capIn
  | capOut
  | capWorkers
  | ctrl
  | cmd
  | status
  | errCode
  | faultPos
  | inLen
  | outLen
  | symCount
  | bitLen
  | workers
  | tableEntries
  | runs
  deriving DecidableEq, Repr

/-- What a legal access reaches (20_memory R90, R98, R99). -/
inductive Location where
  | reg (r : Reg)
  | freq (sym : Byte)
  | ctMeta (sym : Byte)
  | ctCode (sym : Byte) (k : Nat)
  /-- The bytes of IN from index `i`: one for an 8-bit access, four for a 32-bit access. -/
  | input (i : Nat)
  /-- The bytes of OUT from index `i`, likewise. -/
  | output (i : Nat)
  deriving DecidableEq, Repr

/-- The offset of a register (10_state R48). -/
def Reg.offset : Reg → Nat
  | .id => 0x000
  | .capIn => 0x004
  | .capOut => 0x008
  | .capWorkers => 0x00C
  | .ctrl => 0x010
  | .cmd => 0x014
  | .status => 0x018
  | .errCode => 0x01C
  | .faultPos => 0x020
  | .inLen => 0x024
  | .outLen => 0x028
  | .symCount => 0x02C
  | .bitLen => 0x030
  | .workers => 0x034
  | .tableEntries => 0x038
  | .runs => 0x03C

/-- The register at an offset (10_state R48). -/
def Reg.atOffset (n : Nat) : Option Reg :=
  match n with
  | 0x000 => some .id
  | 0x004 => some .capIn
  | 0x008 => some .capOut
  | 0x00C => some .capWorkers
  | 0x010 => some .ctrl
  | 0x014 => some .cmd
  | 0x018 => some .status
  | 0x01C => some .errCode
  | 0x020 => some .faultPos
  | 0x024 => some .inLen
  | 0x028 => some .outLen
  | 0x02C => some .symCount
  | 0x030 => some .bitLen
  | 0x034 => some .workers
  | 0x038 => some .tableEntries
  | 0x03C => some .runs
  | _ => none

/-- First address of the IN region (20_memory R90). -/
def inBase : Nat := 0x10000000

/-- First address of the OUT region (20_memory R90). -/
def outBase : Nat := 0x20000000

/-- The location of a word of the CT region, by its offset from 0x1000; the holes +0x04 to +0x1F of an
entry are unmapped (20_memory R90, R99). -/
def ctLocation (off : Nat) : Option Location :=
  let sym : Byte := BitVec.ofNat 8 (off / 0x40)
  if off % 0x40 = 0 then some (.ctMeta sym)
  else if 0x20 ≤ off % 0x40 then some (.ctCode sym ((off % 0x40 - 0x20) / 4))
  else none

/-- What an access of `bytes` bytes at address `n` reaches in IN or OUT, if every byte lies inside the
region (20_memory R90, R92, R93). -/
def dataLocation (cfg : Config) (n bytes : Nat) : Option Location :=
  if inBase ≤ n ∧ n + bytes ≤ inBase + cfg.maxIn then some (.input (n - inBase))
  else if outBase ≤ n ∧ n + bytes ≤ outBase + cfg.maxOut then some (.output (n - outBase))
  else none

/-- The location that an access reaches; `none` when it is not `mapped_and_legal` (20_memory R90–R93,
43_control R322). -/
def locate (cfg : Config) (addr : Word) (w : Width) : Option Location :=
  let n := addr.toNat
  match w with
  | .w8 => dataLocation cfg n 1
  | .w16 => none
  | .w32 =>
    if n % 4 ≠ 0 then none
    else if n < 0x40 then (Reg.atOffset n).map .reg
    else if 0x400 ≤ n ∧ n < 0x800 then some (.freq (BitVec.ofNat 8 ((n - 0x400) / 4)))
    else if 0x1000 ≤ n ∧ n < 0x5000 then ctLocation (n - 0x1000)
    else dataLocation cfg n 4

/-- Whether a write to a register is ignored because it is read-only (43_control R327). -/
def Reg.readOnly : Reg → Bool
  | .id => true
  | .capIn => true
  | .capOut => true
  | .capWorkers => true
  | .ctrl => false
  | .cmd => false
  | .status => false
  | .errCode => true
  | .faultPos => true
  | .inLen => false
  | .outLen => true
  | .symCount => false
  | .bitLen => true
  | .workers => false
  | .tableEntries => true
  | .runs => true

/-- The held value of a register, reserved bits 0 (10_state R32–R48). -/
def State.regWord (s : State) : Reg → Word
  | .id => 0x48524301
  | .capIn => BitVec.ofNat 32 s.cfg.maxIn
  | .capOut => BitVec.ofNat 32 s.cfg.maxOut
  | .capWorkers => (BitVec.ofNat 8 s.cfg.maxWorkers).setWidth 32
  | .ctrl => s.ctrlWord
  | .cmd => s.cmd
  | .status => s.status.word
  | .errCode => s.errCode.setWidth 32
  | .faultPos => s.faultPos
  | .inLen => s.inLen
  | .outLen => s.outLen
  | .symCount => s.symCount
  | .bitLen => s.bitLen
  | .workers => s.workers.setWidth 32
  | .tableEntries => s.tableEntries.setWidth 32
  | .runs => s.runs

/-- Whether a read while BUSY returns a register's held value; otherwise it is unspecified
(20_memory R111, 10_state R48). -/
def Reg.heldWhileBusy : Reg → Bool
  | .id => true
  | .capIn => true
  | .capOut => true
  | .capWorkers => true
  | .ctrl => true
  | .cmd => true
  | .status => true
  | .errCode => false
  | .faultPos => false
  | .inLen => true
  | .outLen => false
  | .symCount => false
  | .bitLen => false
  | .workers => true
  | .tableEntries => false
  | .runs => false

/-- Whether a read of a location while BUSY returns its held value (20_memory R111). -/
def Location.heldWhileBusy : Location → Bool
  | .reg r => r.heldWhileBusy
  | .freq _ => false
  | .ctMeta _ => false
  | .ctCode _ _ => false
  | .input _ => false
  | .output _ => false

/-- The value at index `i` of IN or OUT, read through `byteAt` (20_memory R95; 43_control R323). -/
def dataWord (byteAt : Nat → Byte) (i : Nat) (w : Width) : Word :=
  match w with
  | .w8 => (byteAt i).setWidth 32
  | .w16 => ((byteAt i).setWidth 32)
  | .w32 => wordOfBytes (byteAt i) (byteAt (i + 1)) (byteAt (i + 2)) (byteAt (i + 3))

/-- The held value of a location (43_control R323). -/
def State.heldWord (s : State) (loc : Location) (w : Width) : Word :=
  match loc with
  | .reg r => s.regWord r
  | .freq b => s.freqOf b
  | .ctMeta b => (s.ctOf b).metaWord
  | .ctCode b k => (s.ctOf b).codeWord k
  | .input i => dataWord s.inByte i w
  | .output i => dataWord s.outByte i w

/-- The part of a free word that an access of a width returns (log 4). -/
def narrowTo (w : Width) (v : Word) : Word :=
  match w with
  | .w8 => (v.setWidth 8).setWidth 32
  | .w16 => (v.setWidth 8).setWidth 32
  | .w32 => v

/-- The bytes that a write to IN or OUT stores (20_memory R95; 43_control R322). -/
def storedBytes (w : Width) (v : Word) : List Byte :=
  match w with
  | .w8 => [v.setWidth 8]
  | .w16 => [v.setWidth 8]
  | .w32 => bytesOfWord v

/-- The answer of the bus port to the host (log 6). -/
def State.respond (s : State) (r : BusResponse) : State := { s with responses := r :: s.responses }

/-- The effect of a legal write while BUSY = 0 to a register that is neither CTRL nor STATUS
(43_control R322, R324, R327). -/
def State.writeReg (s : State) (r : Reg) (v : Word) : State :=
  if r.readOnly then s
  else
    match r with
    | .cmd => s.accept v
    | .inLen => { s with inLen := v }
    | .symCount => { s with symCount := v }
    | .workers => { s with workers := v.setWidth 8 }
    | _ => s

/-- The effect of a legal write while BUSY = 0 (43_control R322). -/
def State.writeIdle (s : State) (loc : Location) (w : Width) (v : Word) : State :=
  match loc with
  | .reg r => s.writeReg r v
  | .freq b => { s with freq := s.freq.set b v }
  | .ctMeta b => { s with ct := s.ct.set b ((s.ctOf b).setMeta v) }
  | .ctCode b k => { s with ct := s.ct.set b ((s.ctOf b).setCodeWord k v) }
  | .input i => { s with inMem := s.inMem.store i (storedBytes w v) }
  | .output i => { s with outMem := s.outMem.store i (storedBytes w v) }

/-- The effect of a legal write: CTRL and STATUS at any time (43_control R325, R326); any other write is
dropped with OVERRUN while BUSY (20_memory R110). -/
def State.writeLocation (s : State) (loc : Location) (w : Width) (v : Word) : State :=
  if loc = .reg .ctrl then { s with ie := v.getLsbD 0 }
  else if loc = .reg .status then s.acknowledge v
  else if s.status.busy then { s with status := s.status.dropWrite }
  else s.writeIdle loc w v

/-- MemWrite (43_control R322), with its answer. -/
def State.busWrite (s : State) (addr : Word) (w : Width) (v : Word) : State :=
  match locate s.cfg addr w with
  | none => s.respond .busError
  | some loc => (s.writeLocation loc w v).respond .written

/-- MemRead (43_control R323), with its answer: a fresh free value for a location of 20_memory R111
while BUSY, the held value otherwise. -/
def State.busRead (s : State) (addr : Word) (w : Width) : State :=
  match locate s.cfg addr w with
  | none => s.respond .busError
  | some loc =>
    if s.status.busy && !loc.heldWhileBusy then
      { s with draws := s.draws + 1 }.respond (.data (narrowTo w (Config.freeWord s.draws)))
    else s.respond (.data (s.heldWord loc w))

end Sys2Proof.Machine
end

