-- ==== Sys2Proof/Machine/Bits.lean ====
section
/-! DEFINITION. Bit-strings (00_scope R14) and their two byte forms: codes in CT entries (10_state
R51, 40_huffman_encode R186) and packed streams (30_encoding R141, R142). -/

namespace Sys2Proof.Machine

/-- A bit-string, leftmost bit first (00_scope R14). -/
abbrev Bits := List Bool

/-- The number a bit-string denotes, its first bit the most significant: Σ b[i]·2^(len−1−i). -/
def bitsValue (b : Bits) : Nat := b.foldl (fun n x => 2 * n + x.toNat) 0

/-- code(s) of a CT entry: c_i = V[LEN−1−i] for i < LEN (10_state R51). -/
def CtEntry.code (e : CtEntry) : Bits :=
  (List.range e.len.toNat).map fun i => e.v.getLsbD (e.len.toNat - 1 - i)

/-- The VALID entry that HUF_BUILD writes for a code (40_huffman_encode R186). -/
def CtEntry.ofCode (c : Bits) : CtEntry :=
  ⟨true, BitVec.ofNat 8 c.length, BitVec.ofNat 255 (bitsValue c)⟩

/-- One byte of a packed stream: its first eight bits, most significant first, missing bits zero
(30_encoding R141). -/
def byteOfBits (b : Bits) : Byte :=
  BitVec.ofNat 8 (bitsValue ((List.range 8).map fun t => b.getD t false))

/-- `m` bytes of a packed stream. -/
def packCount : Nat → Bits → List Byte
  | 0, _ => []
  | m + 1, b => byteOfBits (b.take 8) :: packCount m (b.drop 8)

/-- `Bytes(b)`: right-padded with zeros to ⌈len/8⌉ bytes, MSB first (30_encoding R141). -/
def packBits (b : Bits) : List Byte := packCount ((b.length + 7) / 8) b

/-- The eight bits of a byte, MSB first (30_encoding R142). -/
def bitsOfByte (b : Byte) : Bits := (List.range 8).map fun t => b.getLsbD (7 - t)

/-- `Bits(B)` (30_encoding R142). -/
def unpackBits (bytes : List Byte) : Bits := bytes.flatMap bitsOfByte

end Sys2Proof.Machine
end

