-- ==== Sys2Proof/Machine/HuffmanTree.lean ====
section
/-! DEFINITION. The tree builder, the code derivation (40_huffman_encode R182–R184) and the decode
tree (41_huffman_decode R230). A tree exists only inside a completion step (R191, 10_state R55). -/

namespace Sys2Proof.Machine

/-- `Node` of 40_huffman_encode R182. -/
inductive Node where
  | leaf (sym : Byte) (weight : Nat)
  | internal (weight : Nat) (left right : Node)
  deriving DecidableEq, Repr

/-- The weight of a node. Weights are exact naturals (00_scope R11: "at least 40 bits wide"; log 12). -/
def Node.weight : Node → Nat
  | .leaf _ w => w
  | .internal w _ _ => w

/-- A node in the priority queue with its key (40_huffman_encode R182). -/
structure Queued where
  key : Nat
  node : Node
  deriving DecidableEq, Repr

/-- The order of the queue: (weight, key), lexicographic (40_huffman_encode R182). -/
def Queued.before (x y : Queued) : Bool :=
  x.node.weight < y.node.weight || (x.node.weight == y.node.weight && x.key < y.key)

/-- Insert into a queue kept in ascending order. -/
def enqueue (x : Queued) : List Queued → List Queued
  | [] => [x]
  | y :: rest => if x.before y then x :: y :: rest else y :: enqueue x rest

/-- One leaf for each symbol present, key its symbol value (40_huffman_encode R182). -/
def leavesOf (freq : Table Word) : List Queued :=
  (freq.entries.filter fun e => e.2 != 0).map fun e => ⟨e.1.toNat, .leaf e.1 e.2.toNat⟩

/-- The merging loop: the first pop becomes the left child, the second the right child, and the k-th
internal node has key 256 + k (40_huffman_encode R182). `fuel` bounds the number of merges. -/
def mergeQueue : (fuel k : Nat) → List Queued → List Queued
  | fuel + 1, k, x :: y :: rest =>
    mergeQueue fuel (k + 1)
      (enqueue ⟨256 + k, .internal (x.node.weight + y.node.weight) x.node y.node⟩ rest)
  | _, _, queue => queue

/-- `BuildTree(F)` (40_huffman_encode R182); `none` only when every entry of F is zero. -/
def buildTree (freq : Table Word) : Option Node :=
  let leaves := leavesOf freq
  (mergeQueue leaves.length 0 (leaves.foldr enqueue [])).head?.map Queued.node

/-- `Walk(node, p)` (40_huffman_encode R184). -/
def Node.codes : Node → Bits → List (Byte × Bits)
  | .leaf s _, p => [(s, p)]
  | .internal _ l r, p => l.codes (p ++ [false]) ++ r.codes (p ++ [true])

/-- `Codes(BuildTree(F))` (40_huffman_encode R182, R184). -/
def codesOf (freq : Table Word) : List (Byte × Bits) :=
  match buildTree freq with
  | some root => root.codes []
  | none => []

/-- The code of a symbol in a list of codes. -/
def codeFor (s : Byte) : List (Byte × Bits) → Option Bits
  | [] => none
  | (t, c) :: rest => if t = s then some c else codeFor s rest

/-- The table that HUF_BUILD writes: an entry for each symbol with a code, the others cleared
(40_huffman_encode R186). -/
def tableOf (codes : List (Byte × Bits)) : Table CtEntry :=
  Table.ofFn fun s =>
    match codeFor s codes with
    | some c => CtEntry.ofCode c
    | none => CtEntry.clear

/-- A node of the decode tree (41_huffman_decode R230), or its absence. `inner` has no symbol and two
possibly absent children; `leaf` has a symbol and no child. -/
inductive DecodeNode where
  | absent
  | leaf (sym : Byte)
  | inner (zero one : DecodeNode)
  deriving DecidableEq, Repr

/-- The root that Rebuild starts from: no symbol, no children. -/
def DecodeNode.fresh : DecodeNode := .inner .absent .absent

/-- `child(n, b)` (41_huffman_decode R230). -/
def DecodeNode.child : DecodeNode → Bool → DecodeNode
  | .inner z o, b => if b then o else z
  | .leaf _, _ => .absent
  | .absent, _ => .absent

/-- Insert one (code, symbol) pair as a path (41_huffman_decode R230): `none` when the path meets a
node with a symbol, or ends at a node that has a symbol or a child. -/
def DecodeNode.insert (s : Byte) : Bits → DecodeNode → Option DecodeNode
  | [], .absent => some (.leaf s)
  | [], .inner .absent .absent => some (.leaf s)
  | [], _ => none
  | _ :: _, .leaf _ => none
  | b :: c, n =>
    if b then (DecodeNode.insert s c (n.child true)).map fun t => .inner (n.child false) t
    else (DecodeNode.insert s c (n.child false)).map fun t => .inner t (n.child true)

/-- The insertion loop of Rebuild over the entries still to come (41_huffman_decode R230). -/
def rebuildFrom : List (Byte × CtEntry) → DecodeNode → Except CodecError DecodeNode
  | [], root => .ok root
  | (s, e) :: rest, root =>
    if e.valid then
      match root.insert s e.code with
      | some root' => rebuildFrom rest root'
      | none => .error ⟨.badCodeTable, s.toNat⟩
    else rebuildFrom rest root

/-- `Rebuild(CT)`: the VALID entries in ascending symbol order (41_huffman_decode R230). -/
def rebuild (ct : Table CtEntry) : Except CodecError DecodeNode := rebuildFrom ct.entries .fresh

end Sys2Proof.Machine
end

