-- ==== Sys2Proof/Machine/HuffmanEncode.lean ====
section
/-! DEFINITION. The Huffman encoder commands: HUF_FREQ, HUF_BUILD, HUF_PACK, HUF_ENC
(spec/40_huffman_encode.md). -/

namespace Sys2Proof.Machine

/-- How often each symbol occurs (40_huffman_encode R181); "32-bit, cannot overflow". -/
def countSymbols (data : List Byte) : Table Word :=
  Table.ofFn fun s => BitVec.ofNat 32 (data.count s)

/-- The body of HUF_FREQ (40_huffman_encode R181). -/
def State.writeFreq (s : State) : State := { s with freq := countSymbols s.inData }

/-- The body of HUF_BUILD for S ≥ 1 (40_huffman_encode R186). -/
def State.writeTable (s : State) : State :=
  { s with
    ct := tableOf (codesOf s.freq)
    tableEntries := BitVec.ofNat 9 (distinctSymbols s.freq) }

/-- `Pack` (40_huffman_encode R187) from input index `i` on, when `len` bits are already packed:
NO_CODE is checked before OUT_OVERFLOW at each index. -/
def packFrom (ct : Table CtEntry) (maxOut : Nat) : (i len : Nat) → List Byte → Except CodecError Bits
  | _, _, [] => .ok []
  | i, len, s :: rest =>
    if (ct.get s).valid = false then .error ⟨.noCode, i⟩
    else if 8 * maxOut < len + (ct.get s).len.toNat then .error ⟨.outOverflow, i⟩
    else
      match packFrom ct maxOut (i + 1) (len + (ct.get s).len.toNat) rest with
      | .ok b => .ok ((ct.get s).code ++ b)
      | .error e => .error e

/-- The results of HUF_PACK for the bit-string `b` (40_huffman_encode R188). -/
def State.writePacked (s : State) (b : Bits) : State :=
  { s.writeOut (packBits b) with bitLen := BitVec.ofNat 32 b.length, symCount := s.inLen }

/-- The body of HUF_PACK after its start check, with the completion (40_huffman_encode R188). -/
def State.packBody (s : State) : State :=
  match packFrom s.ct s.cfg.maxOut 0 0 s.inData with
  | .ok b => (s.writePacked b).complete
  | .error e => s.failPack e

/-- FREQ all zero, CT all clear, TABLE_ENTRIES zero: their reset values (10_state R46, R50, R51). -/
def State.clearTables (s : State) : State :=
  { s with
    freq := Table.ofFn fun _ => 0
    ct := Table.ofFn fun _ => CtEntry.clear
    tableEntries := 0 }

/-- HUF_FREQ (40_huffman_encode R181). -/
def execHufFreq (s : State) : Host.Outcome State Fault Refusal :=
  if s.inTooLong then .next (s.failStart .inLenTooLarge 0)
  else .next s.writeFreq.complete

/-- HUF_BUILD (40_huffman_encode R186): IN and IN_LEN are not read. -/
def execHufBuild (s : State) : Host.Outcome State Fault Refusal :=
  if distinctSymbols s.freq = 0 then .next (s.failStart .emptyInput 0)
  else .next s.writeTable.complete

/-- HUF_PACK (40_huffman_encode R188). -/
def execHufPack (s : State) : Host.Outcome State Fault Refusal :=
  if s.inTooLong then .next (s.failStart .inLenTooLarge 0)
  else .next s.packBody

/-- The empty-input result of HUF_ENC: the counting body over no input leaves FREQ all zero, the builder
is not invoked, and OUT is unchanged (40_huffman_encode R189). -/
def State.encodeEmpty (s : State) : State :=
  { s.clearTables with outLen := 0, bitLen := 0, symCount := 0 }

/-- HUF_ENC (40_huffman_encode R189): the bodies of HUF_FREQ, HUF_BUILD and HUF_PACK in one command,
with the empty-input short-circuit. EMPTY_INPUT is unreachable here, because S ≥ 1. -/
def execHufEnc (s : State) : Host.Outcome State Fault Refusal :=
  if s.inTooLong then .next (s.failStart .inLenTooLarge 0)
  else if s.inLen = 0 then .next s.encodeEmpty.complete
  else .next s.writeFreq.writeTable.packBody

end Sys2Proof.Machine
end

