-- ==== Sys2Proof/Machine/Control.lean ====
section
/-! DEFINITION. The control commands: NOP and CLEAR_TABLES (spec/43_control.md section 1). -/

namespace Sys2Proof.Machine

/-- NOP (43_control R320): only the completion fields. -/
def execNop (s : State) : Host.Outcome State Fault Refusal := .next s.complete

/-- CLEAR_TABLES (43_control R321). -/
def execClearTables (s : State) : Host.Outcome State Fault Refusal := .next s.clearTables.complete

end Sys2Proof.Machine
end

