-- ==== Sys2Proof/Machine/HuffmanDecode.lean ====
section
/-! DEFINITION. The Huffman decoder commands: HUF_DEC (counted mode) and HUF_DEC.B (baseline mode)
(spec/41_huffman_decode.md). -/

namespace Sys2Proof.Machine

/-- One symbol of the counted walk (41_huffman_decode R232): from `node`, at stream position `pos` with
`bits` still unread, down to a leaf. Answers the symbol, the new position and the unread bits. -/
def walkSymbol : DecodeNode → (pos : Nat) → Bits → Except CodecError (Byte × Nat × Bits)
  | .leaf s, pos, bits => .ok (s, pos, bits)
  | _, pos, [] => .error ⟨.truncatedStream, pos⟩
  | node, pos, b :: bits =>
    match node.child b with
    | .absent => .error ⟨.invalidBitSequence, pos⟩
    | next => walkSymbol next (pos + 1) bits

/-- The counted walk (41_huffman_decode R232): `k` symbols still to decode, `n` already written.
Answers the symbols and the position reached. -/
def walkCounted (root : DecodeNode) (maxOut : Nat) :
    (k n pos : Nat) → Bits → Except CodecError (List Byte × Nat)
  | 0, _, pos, _ => .ok ([], pos)
  | k + 1, n, pos, bits =>
    match walkSymbol root pos bits with
    | .error e => .error e
    | .ok (s, pos', bits') =>
      if n = maxOut then .error ⟨.outOverflow, n⟩
      else
        match walkCounted root maxOut k (n + 1) pos' bits' with
        | .error e => .error e
        | .ok (out, last) => .ok (s :: out, last)

/-- The symbol of a leaf. -/
def DecodeNode.symbol? : DecodeNode → Option Byte
  | .leaf s => some s
  | .inner _ _ => none
  | .absent => none

/-- The baseline walk (41_huffman_decode R233) from `node`, with `n` symbols written; `inside` says
that `node` was reached by a bit since the last return to the root (`node ≠ root`). Answers the
symbols, the position reached and whether the input ended inside a code path. -/
def walkBaseline (root : DecodeNode) (maxOut : Nat) :
    (node : DecodeNode) → (inside : Bool) → (n pos : Nat) → Bits →
      Except CodecError (List Byte × Nat × Bool)
  | _, inside, _, pos, [] => .ok ([], pos, inside)
  | node, _, n, pos, b :: bits =>
    match node.child b with
    | .absent => .error ⟨.invalidBitSequence, pos⟩
    | next =>
      match next.symbol? with
      | none => walkBaseline root maxOut next true n (pos + 1) bits
      | some s =>
        if n = maxOut then .error ⟨.outOverflow, n⟩
        else
          match walkBaseline root maxOut root false (n + 1) (pos + 1) bits with
          | .error e => .error e
          | .ok (out, last, tail) => .ok (s :: out, last, tail)

/-- The results of HUF_DEC: OUT, OUT_LEN and BIT_LEN (41_huffman_decode R234, R235). -/
def State.writeDecoded (s : State) (out : List Byte) (pos : Nat) : State :=
  { s.writeOut out with bitLen := BitVec.ofNat 32 pos }

/-- The walk of HUF_DEC after Rebuild, with the completion (41_huffman_decode R234). -/
def State.countedBody (s : State) (root : DecodeNode) : State :=
  match walkCounted root s.cfg.maxOut s.symCount.toNat 0 0 (unpackBits s.inData) with
  | .ok (out, pos) => (s.writeDecoded out pos).complete
  | .error e => s.failDecode e

/-- The walk of HUF_DEC.B after Rebuild, with the completion (41_huffman_decode R235). -/
def State.baselineBody (s : State) (root : DecodeNode) : State :=
  match walkBaseline root s.cfg.maxOut root false 0 0 (unpackBits s.inData) with
  | .ok (out, pos, tail) => (s.writeDecoded out pos).complete tail
  | .error e => s.failDecode e

/-- The rest of HUF_DEC after IN_LEN_TOO_LARGE: an empty table is an error only when a symbol must be
decoded (`needed`), then Rebuild, then the walk `body` (41_huffman_decode R234, R235). -/
def State.decodeWith (s : State) (needed : Bool) (body : State → DecodeNode → State) : State :=
  if validEntries s.ct = 0 then
    if needed then s.failStart .missingCodeTable 0 else (s.writeDecoded [] 0).complete
  else
    match rebuild s.ct with
    | .ok root => body s root
    | .error e => s.reportError e

/-- HUF_DEC, counted mode (41_huffman_decode R234). -/
def execHufDec (s : State) : Host.Outcome State Fault Refusal :=
  if s.inTooLong then .next (s.failStart .inLenTooLarge 0)
  else .next (s.decodeWith (s.symCount != 0) State.countedBody)

/-- HUF_DEC.B, baseline mode (41_huffman_decode R235): SYM_COUNT is not read. -/
def execHufDecB (s : State) : Host.Outcome State Fault Refusal :=
  if s.inTooLong then .next (s.failStart .inLenTooLarge 0)
  else .next (s.decodeWith (s.inLen != 0) State.baselineBody)

end Sys2Proof.Machine
end

