-- ==== Sys2Proof/Machine/Rle.lean ====
section
/-! DEFINITION. The RLE commands, sequential and chunk-parallel (spec/42_rle.md). -/

namespace Sys2Proof.Machine

/-- A pair with the index of its first input byte (42_rle R270). -/
structure RlePair where
  count : Nat
  value : Byte
  start : Nat
  deriving DecidableEq, Repr

/-- The scan of 42_rle R270 inside a run: `count` bytes `value` seen since index `start`. A run stops at
another value, at the cap of 255, and at the end of the slice. -/
def rleScan (value : Byte) (count start : Nat) : List Byte → List RlePair
  | [] => [⟨count, value, start⟩]
  | x :: rest =>
    if x = value ∧ count < 255 then rleScan value (count + 1) start rest
    else ⟨count, value, start⟩ :: rleScan x 1 (start + count) rest

/-- `RleEnc` of the slice `bytes` that begins at index `start` of the input (42_rle R270). -/
def rleEncode (start : Nat) : List Byte → List RlePair
  | [] => []
  | x :: rest => rleScan x 1 start rest

/-- `Chunks(N, W)` as (first index, index past the last), in index order (42_rle R274). -/
def chunks (n w : Nat) : List (Nat × Nat) :=
  if n < w then [(0, n)]
  else (List.range (w - 1)).map (fun k => (k * (n / w), (k + 1) * (n / w))) ++ [((w - 1) * (n / w), n)]

/-- B[lo..hi) (00_scope R14). -/
def slice (bytes : List Byte) (lo hi : Nat) : List Byte := (bytes.drop lo).take (hi - lo)

/-- The pairs of RLE_ENC_PAR: each chunk encoded on its own, concatenated in chunk index order
(42_rle R275, R278). -/
def rleEncodeChunks (w : Nat) (bytes : List Byte) : List RlePair :=
  (chunks bytes.length w).flatMap fun c => rleEncode c.1 (slice bytes c.1 c.2)

/-- The bytes of a pair sequence, count first (30_encoding R143), from output offset `o` on, with the
capacity check of 42_rle R272. -/
def emitPairs (maxOut : Nat) : (o : Nat) → List RlePair → Except CodecError (List Byte)
  | _, [] => .ok []
  | o, p :: rest =>
    if maxOut < o + 2 then .error ⟨.outOverflow, p.start⟩
    else
      match emitPairs maxOut (o + 2) rest with
      | .ok bytes => .ok (BitVec.ofNat 8 p.count :: p.value :: bytes)
      | .error e => .error e

/-- The sequential decode loop (42_rle R273): the pairs from IN offset `src` on, with `o` bytes already
written. Answers the bytes written from there on. -/
def expandPairs (maxOut : Nat) : (src o : Nat) → List Byte → Except CodecError (List Byte)
  | src, o, c :: v :: rest =>
    if maxOut < o + c.toNat then .error ⟨.outOverflow, src⟩
    else
      match expandPairs maxOut (src + 2) (o + c.toNat) rest with
      | .ok bytes => .ok (List.replicate c.toNat v ++ bytes)
      | .error e => .error e
  | _, _, _ => .ok []

/-- A pair's output region in the parallel decode: [dst, dst + count) is filled with `value`
(42_rle R276, R278). -/
structure RleRegion where
  dst : Nat
  count : Nat
  value : Byte
  deriving DecidableEq, Repr

/-- The first pass of the parallel decode (42_rle R276): every pair's region by a running sum of counts,
with the overflow check. Answers the regions in pair order and the final sum. -/
def regionPass (maxOut : Nat) : (src dst : Nat) → List Byte → Except CodecError (List RleRegion × Nat)
  | src, dst, c :: v :: rest =>
    if maxOut < dst + c.toNat then .error ⟨.outOverflow, src⟩
    else
      match regionPass maxOut (src + 2) (dst + c.toNat) rest with
      | .ok (regions, total) => .ok (⟨dst, c.toNat, v⟩ :: regions, total)
      | .error e => .error e
  | _, dst, _ => .ok ([], dst)

/-- One worker's work on one pair: write its region (42_rle R277). -/
def fillRegion (m : Memory) (r : RleRegion) : Memory := m.store r.dst (List.replicate r.count r.value)

/-- The second pass of the parallel decode (42_rle R277), in pair order; the order does not matter,
because the regions are disjoint (R278, log 9). -/
def fillRegions (m : Memory) (regions : List RleRegion) : Memory := regions.foldl fillRegion m

/-- The end of both encoders: the pairs into OUT, OUT_LEN and RUNS (42_rle R272, R275). -/
def State.encodePairs (s : State) (pairs : List RlePair) : State :=
  match emitPairs s.cfg.maxOut 0 pairs with
  | .ok bytes => { s.writeOut bytes with runs := BitVec.ofNat 32 (bytes.length / 2) }.complete
  | .error e => s.failRle e

/-- The body of RLE_DEC after its start checks (42_rle R273). -/
def State.decodePairs (s : State) : State :=
  match expandPairs s.cfg.maxOut 0 0 s.inData with
  | .ok bytes => { s.writeOut bytes with runs := BitVec.ofNat 32 (s.inLen.toNat / 2) }.complete
  | .error e => s.failRle e

/-- The two passes of RLE_DEC_PAR after its start checks (42_rle R276, R277). -/
def State.decodeRegions (s : State) : State :=
  match regionPass s.cfg.maxOut 0 0 s.inData with
  | .ok (regions, total) =>
    { s with
      outMem := fillRegions s.outMem regions
      outLen := BitVec.ofNat 32 total
      runs := BitVec.ofNat 32 (s.inLen.toNat / 2) }.complete
  | .error e => s.failRle e

/-- RLE_ENC (42_rle R272). -/
def execRleEnc (s : State) : Host.Outcome State Fault Refusal :=
  if s.inTooLong then .next (s.failStart .inLenTooLarge 0)
  else .next (s.encodePairs (rleEncode 0 s.inData))

/-- RLE_DEC (42_rle R273). -/
def execRleDec (s : State) : Host.Outcome State Fault Refusal :=
  if s.inTooLong then .next (s.failStart .inLenTooLarge 0)
  else if s.oddLength then .next (s.failStart .rleOddLength (s.inLen.toNat - 1))
  else .next s.decodePairs

/-- RLE_ENC_PAR (42_rle R275). -/
def execRleEncPar (s : State) : Host.Outcome State Fault Refusal :=
  if s.inTooLong then .next (s.failStart .inLenTooLarge 0)
  else if s.badWorkers then .next (s.failStart .badWorkers 0)
  else .next (s.encodePairs (rleEncodeChunks s.workers.toNat s.inData))

/-- RLE_DEC_PAR (42_rle R277). -/
def execRleDecPar (s : State) : Host.Outcome State Fault Refusal :=
  if s.inTooLong then .next (s.failStart .inLenTooLarge 0)
  else if s.badWorkers then .next (s.failStart .badWorkers 0)
  else if s.oddLength then .next (s.failStart .rleOddLength (s.inLen.toNat - 1))
  else .next s.decodeRegions

end Sys2Proof.Machine
end

