-- ==== Sys2Proof/Machine/Dispatch.lean ====
section
/-! DEFINITION. One arm per command: what the completion step of a legal command does (60_exceptions R353). -/

namespace Sys2Proof.Machine

def exec (i : Instr) (s : State) : Host.Outcome State Fault Refusal :=
  match i with
  | .nop => Sys2Proof.Machine.execNop s
  | .hufFreq => Sys2Proof.Machine.execHufFreq s
  | .hufBuild => Sys2Proof.Machine.execHufBuild s
  | .hufPack => Sys2Proof.Machine.execHufPack s
  | .hufEnc => Sys2Proof.Machine.execHufEnc s
  | .hufDec => Sys2Proof.Machine.execHufDec s
  | .hufDecB => Sys2Proof.Machine.execHufDecB s
  | .rleEnc => Sys2Proof.Machine.execRleEnc s
  | .rleDec => Sys2Proof.Machine.execRleDec s
  | .rleEncPar => Sys2Proof.Machine.execRleEncPar s
  | .rleDecPar => Sys2Proof.Machine.execRleDecPar s
  | .clearTables => Sys2Proof.Machine.execClearTables s

end Sys2Proof.Machine
end

