-- ==== Sys2Proof/Machine/Engine.lean ====
section
/-! DEFINITION. The engine's completion step (60_exceptions R353), the acceptance of one thing the
outside world does, and whose turn it is (00_scope R9, 20_memory R101, 70_reset R400, R411, R412). -/

namespace Sys2Proof.Machine

/-- `completion_step()` (60_exceptions R353): the latched word is decoded; an illegal one reports
ILLEGAL_CMD at position 0 (30_encoding R135). -/
def State.completionStep (s : State) : Host.Outcome State Fault Refusal :=
  match decode s.latched with
  | .ok i => exec i s
  | .error _ => .next (s.failStart .illegalCmd 0)

/-- The engine's turn: the completion step while phase = BUSY, nothing otherwise (60_exceptions R353). -/
def State.engineTurn (s : State) : Host.Outcome State Fault Refusal :=
  match s.phase with
  | .busy => s.completionStep
  | .idle => .next s

/-- The address of STATUS (10_state R38). -/
def statusAddr : Word := BitVec.ofNat 32 Reg.status.offset

/-- The address of CMD (10_state R37). -/
def cmdAddr : Word := BitVec.ofNat 32 Reg.cmd.offset

/-- The first input taken off the list: `s` has it no longer (log 5). -/
def State.takeInput (s : State) (rest : List Input) : Input → Host.Outcome State Fault Refusal
  | .read addr w => .next ({ s with inputs := rest }.busRead addr w)
  | .write addr w v => .next ({ s with inputs := rest }.busWrite addr w v)
  | .engine => { s with inputs := rest }.engineTurn
  | .reset => .next { s with inputs := rest }.applyReset
  | .wait =>
    match s.phase with
    | .busy => s.completionStep
    | .idle => .next ({ s with inputs := rest }.busRead statusAddr .w32)

/-- One step: the next input, and with none left the engine's turn (70_reset R411, R412; log 5). WAIT
stays first until the running command has completed (30_encoding R164; log 7). -/
def State.advance (s : State) : Host.Outcome State Fault Refusal :=
  match s.inputs with
  | [] => s.engineTurn
  | input :: rest => s.takeInput rest input

/-- The state in which the command word `v` has just been accepted (43_control R324) and the engine is
given its step next (log 8). -/
def State.acceptNow (s : State) (v : Word) : State :=
  { s.accept v with inputs := .engine :: s.inputs }

/-- The command word that opcode_table.json numbers as `w`, the bits above `nbits` zero. -/
def tableWord (nbits w : Nat) : Word := BitVec.ofNat 32 (w % 2 ^ nbits)

end Sys2Proof.Machine
end

