-- ==== Sys2Proof/Machine/Step.lean ====
section
/-! DEFINITION. The step of the machine, and the placing of a command word where the next step runs it. -/

namespace Sys2Proof.Machine

/-- One step of HRC and its surroundings (log 5). -/
def step (s : State) : Host.Outcome State Fault Refusal := s.advance

/-- `s` with the command word `w` accepted and the engine's step next. HRC fetches nothing (20_memory
R106): a command reaches it as a CMD write, and this stands for that write (log 8). -/
def State.withFetchWord (s : State) (nbits w : Nat) : State := s.acceptNow (tableWord nbits w)

end Sys2Proof.Machine
end

