-- ==== Sys2Proof/Machine/HostProgram.lean ====
section
/-! DEFINITION. The host program notation (30_encoding R160–R167), expanded to bus transactions. It is
the host's, not HRC's: a program reaches the machine as `inputs`. -/

namespace Sys2Proof.Machine

/-- A line of a host program (30_encoding R161–R167). What a read binds or expects is the host's. -/
inductive HostLine where
  /-- `W32 a, v` (R161). -/
  | w32 (addr value : Word)
  /-- `W8 a, v` (R161). -/
  | w8 (addr : Word) (value : Byte)
  /-- `R32 a` (R162). -/
  | r32 (addr : Word)
  /-- `R8 a` (R162). -/
  | r8 (addr : Word)
  /-- `WAIT` (R164). -/
  | wait
  /-- `ISSUE m` (R165). -/
  | issue (command : Instr)
  /-- `ISSUE.RAW v` (R165). -/
  | issueRaw (value : Word)
  /-- `FILL IN, b0, …` (R166). -/
  | fill (bytes : List Byte)
  /-- `SETCT s, L, V` (R167). -/
  | setCt (sym : Byte) (len : BitVec 8) (value : BitVec 255)
  deriving DecidableEq, Repr

/-- The address of a register (30_encoding R163). -/
def Reg.addr (r : Reg) : Word := BitVec.ofNat 32 r.offset

/-- `FREQ(s)` (30_encoding R163). -/
def freqAddr (s : Byte) : Word := BitVec.ofNat 32 (0x400 + 4 * s.toNat)

/-- `CT_META(s)` (30_encoding R163). -/
def ctMetaAddr (s : Byte) : Word := BitVec.ofNat 32 (0x1000 + 0x40 * s.toNat)

/-- `CT_CODE(s,k)` (30_encoding R163). -/
def ctCodeAddr (s : Byte) (k : Nat) : Word := BitVec.ofNat 32 (0x1000 + 0x40 * s.toNat + 0x20 + 4 * k)

/-- `IN+i` (30_encoding R163). -/
def inAddr (i : Nat) : Word := BitVec.ofNat 32 (inBase + i)

/-- `OUT+i` (30_encoding R163). -/
def outAddr (i : Nat) : Word := BitVec.ofNat 32 (outBase + i)

/-- The byte writes of FILL from index `i` on (30_encoding R166). -/
def fillWrites : Nat → List Byte → List Input
  | _, [] => []
  | i, b :: rest => .write (inAddr i) .w8 (b.setWidth 32) :: fillWrites (i + 1) rest

/-- The transactions of one line (30_encoding R161–R167). -/
def HostLine.inputs : HostLine → List Input
  | .w32 a v => [.write a .w32 v]
  | .w8 a v => [.write a .w8 (v.setWidth 32)]
  | .r32 a => [.read a .w32]
  | .r8 a => [.read a .w8]
  | .wait => [.wait]
  | .issue i => [.write cmdAddr .w32 (encode i)]
  | .issueRaw v => [.write cmdAddr .w32 v]
  | .fill bytes => fillWrites 0 bytes ++ [.write Reg.inLen.addr .w32 (BitVec.ofNat 32 bytes.length)]
  | .setCt s len v =>
    .write (ctMetaAddr s) .w32 (1#1 ++ 0#23 ++ len) ::
      (List.range 8).map fun k =>
        .write (ctCodeAddr s k) .w32 ((⟨true, len, v⟩ : CtEntry).codeWord k)

/-- The transactions of a program, line by line (30_encoding R160). -/
def programInputs (program : List HostLine) : List Input := program.flatMap HostLine.inputs

/-- The text of a code in the side file: the characters '0' (0x30) and '1' (0x31), first bit first
(30_encoding R144). -/
def codeText (c : Bits) : List Byte := c.map fun b => if b then 0x31 else 0x30

/-- A symbol's token in the side file (30_encoding R145). -/
def symbolToken (s : Byte) : List Byte :=
  if s = 0x0A then [0x5C, 0x6E]
  else if s = 0x20 then [0x5B, 0x73, 0x70, 0x61, 0x63, 0x65, 0x5D]
  else [s]

/-- The code-table side file of a code table: one line for each VALID entry in ascending symbol order
(30_encoding R144–R146). A host data format that HRC does not produce (00_scope R6). -/
def sideFile (ct : Table CtEntry) : List Byte :=
  (allSymbols.filter fun s => (ct.get s).valid).flatMap fun s =>
    symbolToken s ++ [0x20] ++ codeText (ct.get s).code ++ [0x0A]

end Sys2Proof.Machine
end

