-- ==== Sys2Proof/Safety.lean ====
section
/-! DEFINITION. What the statements about HRC are said in: the end of a command, what no command
touches, the state invariant, and the spec's notions that no function of the machine computes. -/

namespace Sys2Proof.Machine

/-- `t` carries the completion fields of a success that `s` ran into (60_exceptions R353). -/
structure Succeeded (s t : State) (partialTail : Bool) : Prop where
  errCode : t.errCode = 0
  faultPos : t.faultPos = 0
  busy : t.status.busy = false
  done : t.status.done = true
  err : t.status.err = false
  overrun : t.status.overrun = s.status.overrun
  partialTail : t.status.partialTail = partialTail
  phase : t.phase = .idle

/-- `t` carries the completion fields of error `kind` at position `pos` (60_exceptions R353, R357). -/
structure Failed (s t : State) (kind : ErrKind) (pos : Nat) : Prop where
  errCode : t.errCode = kind.code
  faultPos : t.faultPos = BitVec.ofNat 32 pos
  busy : t.status.busy = false
  done : t.status.done = true
  err : t.status.err = true
  overrun : t.status.overrun = s.status.overrun
  partialTail : t.status.partialTail = false
  phase : t.phase = .idle

/-- What no command changes: CTRL, CMD, IN_LEN, WORKERS and every byte of IN (10_state R36, R37, R41,
R45, R52), the latched word, the parameters, and what belongs to the outside world. -/
structure OperandsKept (s t : State) : Prop where
  cfg : t.cfg = s.cfg
  ie : t.ie = s.ie
  cmd : t.cmd = s.cmd
  latched : t.latched = s.latched
  inLen : t.inLen = s.inLen
  workers : t.workers = s.workers
  inBytes : ∀ i, t.inByte i = s.inByte i
  inputs : t.inputs = s.inputs
  responses : t.responses = s.responses

/-- FREQ, CT and TABLE_ENTRIES are unchanged. -/
structure TablesKept (s t : State) : Prop where
  freq : t.freq = s.freq
  ct : t.ct = s.ct
  tableEntries : t.tableEntries = s.tableEntries

/-- Every byte of OUT is unchanged. -/
def OutKept (s t : State) : Prop := ∀ i, t.outByte i = s.outByte i

/-- OUT_LEN, BIT_LEN, SYM_COUNT and RUNS are unchanged. -/
structure ResultsKept (s t : State) : Prop where
  outLen : t.outLen = s.outLen
  bitLen : t.bitLen = s.bitLen
  symCount : t.symCount = s.symCount
  runs : t.runs = s.runs

/-- OUT[0..n−1] holds `bytes`, OUT_LEN is their number, and the bytes of OUT at OUT_LEN and above keep
the values they had in `s` (10_state R53). -/
structure OutHolds (s t : State) (bytes : List Byte) : Prop where
  held : t.outData bytes.length = bytes
  outLen : t.outLen.toNat = bytes.length
  above : ∀ i, bytes.length ≤ i → t.outByte i = s.outByte i

/-- Every byte of OUT is unspecified: none has a definite value, and all hold a draw that `s` had not
made (60_exceptions R355; log 3). -/
structure OutScrambled (s t : State) : Prop where
  none : t.outMem = []
  fresh : t.outDraw = s.draws
  drawn : t.draws = s.draws + 1

/-- The VALID codes are pairwise distinct and prefix-free (41_huffman_decode R231). -/
def PrefixFree (ct : Table CtEntry) : Prop :=
  ∀ a b : Byte, (ct.get a).valid = true → (ct.get b).valid = true → a ≠ b →
    ¬ (ct.get a).code <+: (ct.get b).code

/-- The bit-string of a symbol sequence: its codes in order (40_huffman_encode R187). -/
def streamOf (ct : Table CtEntry) (x : List Byte) : Bits := x.flatMap fun b => (ct.get b).code

/-- `p` is a proper initial part of a VALID code: an inner node of the decode tree. -/
def InsideCode (ct : Table CtEntry) (p : Bits) : Prop :=
  ∃ b : Byte, (ct.get b).valid = true ∧ p <+: (ct.get b).code ∧ p ≠ (ct.get b).code

/-- `BuildTree` on a set of queued nodes, as 40_huffman_encode R182 writes it: remove the least node,
then the least of the rest, merge them left and right, and go on; `k` counts the merges. -/
inductive BuildsTo : (k : Nat) → List Queued → Node → Prop where
  | done (k : Nat) (q : Queued) : BuildsTo k [q] q.node
  | merge (k : Nat) (queue rest : List Queued) (x y : Queued) (root : Node) :
      queue.Perm (x :: y :: rest) →
      (∀ z ∈ y :: rest, x.before z = true) → (∀ z ∈ rest, y.before z = true) →
      BuildsTo (k + 1)
        (⟨256 + k, .internal (x.node.weight + y.node.weight) x.node y.node⟩ :: rest) root →
      BuildsTo k queue root

/-- The bytes that pairs (count, value) stand for (42_rle R271). -/
def expand (pairs : List (Nat × Byte)) : List Byte := pairs.flatMap fun p => List.replicate p.1 p.2

/-- The bytes that hold pairs, count first (30_encoding R143). -/
def pairBytes (pairs : List (Nat × Byte)) : List Byte :=
  pairs.flatMap fun p => [BitVec.ofNat 8 p.1, p.2]

/-- `pairs` is the run-length form of `data`: it expands to `data`, every count is 1 to 255, and two
adjacent pairs have equal values only if the first has count 255 (42_rle R270, R279). -/
structure RunLengthOf (data : List Byte) (pairs : List (Nat × Byte)) : Prop where
  expands : expand pairs = data
  counts : ∀ p ∈ pairs, 1 ≤ p.1 ∧ p.1 ≤ 255
  maximal : pairs.IsChain fun p q => p.2 = q.2 → p.1 = 255

/-- The state invariant: the parameters are legal (00_scope R10), the mirrors agree (10_state R54), the
flags are a legal combination (10_state R38), the registers are in the bounds of 00_scope R12 and
60_exceptions R351, R357, the memories are in canonical form inside their capacities, and the draws
that IN and OUT hold have been made and differ. -/
structure State.Inv (s : State) : Prop where
  cfgLegal : s.cfg.wf = true
  phaseMirrored : s.phase = .busy ↔ s.status.busy = true
  latchedMirrored : s.latched = s.cmd
  busyFlags : s.status.busy = true → s.status.done = false ∧ s.status.err = false
  errHasCode : s.status.err = true → s.errCode ≠ 0
  codeKnown : s.errCode.toNat ≤ 11
  noErrorNoPos : s.errCode = 0 → s.faultPos = 0
  posBound : s.faultPos.toNat ≤ 2 ^ 31
  tailNoError : s.status.partialTail = true → s.errCode = 0
  outLenBound : s.outLen.toNat ≤ s.cfg.maxOut
  bitLenBound : s.bitLen.toNat ≤ 2 ^ 31
  runsBound : s.runs.toNat ≤ 2 ^ 27
  entriesBound : s.tableEntries.toNat ≤ 256
  inCanonical : s.inMem.wf
  outCanonical : s.outMem.wf
  inWithin : s.inMem.within s.cfg.maxIn
  outWithin : s.outMem.within s.cfg.maxOut
  inDrawn : s.inDraw < s.draws
  outDrawn : s.outDraw < s.draws
  drawsDiffer : s.inDraw ≠ s.outDraw

end Sys2Proof.Machine
end

