-- ==== Sys2Proof/Certificates/Slice0/Obligations.lean ====
section
/-! DEFINITION. The statements about HRC that the provers settle, each with the rule of spec/ it comes from. -/

open Sys2Proof Sys2Proof.Machine

/-! ### Encoding -/

/-- 30_encoding R131, R134: over all 2^32 words, the decoder reads command `i` from exactly one word,
the encoder's. -/
def Obligations.DecodeReadsExactlyTheEncodings : Prop :=
  ∀ (v : Word) (i : Instr), decode v = .ok i ↔ v = encode i

/-- 30_encoding R131, R134: over all 2^32 words `legal` is the rule's condition and holds of the 12 words
and of no other; `decode` answers the command that the opcode map gives, and refuses exactly the rest. -/
def Obligations.LegalWordsAreExactlyTwelve : Prop :=
  ∀ v : Word,
    (legalWord v = true ↔ v.extractLsb' 5 27 = 0#27 ∧ (v.extractLsb' 0 4).toNat ≤ 0xA ∧
      (v.getLsbD 4 = false ∨ v.extractLsb' 0 4 = 5#4)) ∧
    (legalWord v = true ↔
      v ∈ ([0x00, 0x01, 0x02, 0x03, 0x04, 0x05, 0x06, 0x07, 0x08, 0x09, 0x0A, 0x15] : List Word)) ∧
    ((∃ r, decode v = .error r) ↔ legalWord v = false) ∧
    ∀ i, decode v = .ok i ↔ (i, v) ∈ ([(.nop, 0x00), (.hufFreq, 0x01), (.hufBuild, 0x02),
      (.hufPack, 0x03), (.hufEnc, 0x04), (.hufDec, 0x05), (.hufDecB, 0x15), (.rleEnc, 0x06),
      (.rleDec, 0x07), (.rleEncPar, 0x08), (.rleDecPar, 0x09), (.clearTables, 0x0A)] :
      List (Instr × Word))

/-- 30_encoding R165, spec/95_test_vectors.md ENC-1 to ENC-15: sample words. -/
def Obligations.SampleWordsDecode : Prop :=
  decodeTableWord 32 0x00 = some .nop ∧ decodeTableWord 32 0x02 = some .hufBuild ∧
    decodeTableWord 32 0x04 = some .hufEnc ∧ decodeTableWord 32 0x05 = some .hufDec ∧
    decodeTableWord 32 0x15 = some .hufDecB ∧ decodeTableWord 32 0x08 = some .rleEncPar ∧
    decodeTableWord 32 0x0A = some .clearTables ∧ decodeTableWord 32 0x0B = none ∧
    decodeTableWord 32 0x14 = none ∧ decodeTableWord 32 0x25 = none ∧
    decodeTableWord 32 0x80000005 = none

/-! ### The step -/

/-- When the placed word decodes to a command, the next step is `exec` of that command, on the state
in which the word has been accepted (43_control R324, 60_exceptions R353; log 8). -/
def Obligations.StepRunsPlacedCommand : Prop :=
  ∀ (s : State) (nbits w : Nat) (i : Instr), i.wf = true → decodeTableWord nbits w = some i →
    step (s.withFetchWord nbits w) = exec i (s.accept (tableWord nbits w))

/-- 60_exceptions R353, 70_reset R411, R412, 30_encoding R164: while phase = BUSY, the engine's turn, the
end of the inputs and a WAIT each run the latched command (logs 5, 7). -/
def Obligations.EngineRunsLatchedCommand : Prop :=
  ∀ (s : State) (i : Instr) (rest : List Input), s.phase = .busy → decode s.latched = .ok i →
    (s.inputs = [] → step s = exec i s) ∧
    (s.inputs = .engine :: rest → step s = exec i { s with inputs := rest }) ∧
    (s.inputs = .wait :: rest → step s = exec i s)

/-- 30_encoding R135, 60_exceptions R353, R354: a latched word that decodes to no command completes with
ILLEGAL_CMD (ERR_CODE 11) at position 0 and changes nothing but the completion fields; so end the
engine's turn, the end of the inputs and a WAIT while phase = BUSY (logs 5, 7). -/
def Obligations.IllegalWordReportsIllegalCmd : Prop :=
  ∀ (s : State) (r : DecodeReject) (rest : List Input), decode s.latched = .error r →
    let t : State := { s with
      errCode := 11
      faultPos := 0
      status := { s.status with busy := false, done := true, err := true, partialTail := false }
      phase := .idle }
    s.completionStep = .next t ∧
      (s.phase = .busy →
        (s.inputs = [] → step s = .next t) ∧
        (s.inputs = .engine :: rest → step s = .next { t with inputs := rest }) ∧
        (s.inputs = .wait :: rest → step s = .next t))

/-- 60_exceptions R350, R353: every step of every state answers a next state ("No error stops HRC"), and
every command, in every state, ends in one completion, with the flags and error fields the completion
step writes (that `exec` is defined in every phase, and that no step faults, is log 13). -/
def Obligations.EveryCommandCompletes : Prop :=
  (∀ s : State, ∃ t, step s = .next t) ∧
  ∀ (i : Instr) (s : State), ∃ t, exec i s = .next t ∧ t.phase = .idle ∧ t.status.busy = false ∧
    t.status.done = true ∧ (t.status.err = true ↔ t.errCode ≠ 0) ∧
    (t.status.partialTail = true → i = .hufDecB ∧ t.errCode = 0) ∧
    t.status.overrun = s.status.overrun ∧ (t.errCode = 0 → t.faultPos = 0)

/-- Every step keeps the state invariant (10_state R38, R54; 00_scope R10, R12; 60_exceptions R351,
R357; the canonical form of memory and the draws are the model's own, logs 2 and 11). -/
def Obligations.StepKeepsInvariant : Prop :=
  ∀ s t : State, s.Inv → step s = .next t → t.Inv

/-- 70_reset R400: the state invariant holds after reset, for every legal choice of the parameters and any
number of earlier draws (logs 1, 11). -/
def Obligations.ResetMeetsInvariant : Prop :=
  State.reset.Inv ∧ ∀ (cfg : Config) (n : Nat), cfg.wf = true → (State.resetWith cfg n).Inv

/-- 70_reset R400, R401, R402: reset, in any state and also while BUSY, gives every register its reset
value, empties FREQ and CT, and leaves every byte of IN and OUT at a fresh unspecified value (a draw not
made before, logs 2, 11); the parameters, the other inputs and the responses stay (log 10). -/
def Obligations.ResetRestoresEveryValue : Prop :=
  ∀ (s : State) (rest : List Input), s.inputs = .reset :: rest →
    ∃ t, step s = .next t ∧ t.cfg = s.cfg ∧
      t.regWord .id = 0x48524301 ∧ t.regWord .capIn = BitVec.ofNat 32 s.cfg.maxIn ∧
      t.regWord .capOut = BitVec.ofNat 32 s.cfg.maxOut ∧
      t.regWord .capWorkers = (BitVec.ofNat 8 s.cfg.maxWorkers).setWidth 32 ∧
      (∀ r ∈ ([.ctrl, .cmd, .status, .errCode, .faultPos, .inLen, .outLen, .symCount, .bitLen,
        .tableEntries, .runs] : List Reg), t.regWord r = 0) ∧
      t.regWord .workers = 4 ∧ (∀ b, t.freqOf b = 0) ∧
      (∀ b, (t.ctOf b).metaWord = 0 ∧ ∀ k, (t.ctOf b).codeWord k = 0) ∧
      t.phase = .idle ∧ t.latched = 0 ∧ t.irq = false ∧
      (∀ i, t.inByte i = Config.freeByte t.inDraw i) ∧ (∀ i, t.outByte i = Config.freeByte t.outDraw i) ∧
      s.draws ≤ t.inDraw ∧ s.draws ≤ t.outDraw ∧ t.inDraw ≠ t.outDraw ∧
      t.inputs = rest ∧ t.responses = s.responses

/-! ### The host's accesses -/

/-- 20_memory R90, R92, R98, R99, 10_state R48, 30_encoding R163: every location is reached by a legal
access at its address. -/
def Obligations.LegalAccessesReachTheirLocation : Prop :=
  ∀ cfg : Config, cfg.wf = true →
    (∀ r : Reg, locate cfg r.addr .w32 = some (.reg r)) ∧
    (∀ b, locate cfg (freqAddr b) .w32 = some (.freq b)) ∧
    (∀ b, locate cfg (ctMetaAddr b) .w32 = some (.ctMeta b)) ∧
    (∀ b k, k < 8 → locate cfg (ctCodeAddr b k) .w32 = some (.ctCode b k)) ∧
    (∀ i, i < cfg.maxIn → locate cfg (inAddr i) .w8 = some (.input i)) ∧
    (∀ i, i % 4 = 0 → i + 4 ≤ cfg.maxIn → locate cfg (inAddr i) .w32 = some (.input i)) ∧
    (∀ i, i < cfg.maxOut → locate cfg (outAddr i) .w8 = some (.output i)) ∧
    (∀ i, i % 4 = 0 → i + 4 ≤ cfg.maxOut → locate cfg (outAddr i) .w32 = some (.output i))

/-- 20_memory R90, R91, R92, R93: no other access is legal. -/
def Obligations.OtherAccessesAreBusErrors : Prop :=
  ∀ (cfg : Config) (a : Word) (w : Width) (loc : Location), cfg.wf = true → locate cfg a w = some loc →
    match w, loc with
    | .w8, .input i => i < cfg.maxIn ∧ a = inAddr i
    | .w8, .output i => i < cfg.maxOut ∧ a = outAddr i
    | .w32, .reg r => a = r.addr
    | .w32, .freq b => a = freqAddr b
    | .w32, .ctMeta b => a = ctMetaAddr b
    | .w32, .ctCode b k => k < 8 ∧ a = ctCodeAddr b k
    | .w32, .input i => i % 4 = 0 ∧ i + 4 ≤ cfg.maxIn ∧ a = inAddr i
    | .w32, .output i => i % 4 = 0 ∧ i + 4 ≤ cfg.maxOut ∧ a = outAddr i
    | _, _ => False

/-- 20_memory R91, R93, 60_exceptions R363: a bus error changes nothing, whether a read or a write; the
host gets the bus error response (log 6). -/
def Obligations.BusErrorChangesNothing : Prop :=
  ∀ (s : State) (a : Word) (w : Width) (v : Word) (rest : List Input), locate s.cfg a w = none →
    s.inputs = .read a w :: rest ∨ s.inputs = .write a w v :: rest →
    step s = .next { s with inputs := rest, responses := .busError :: s.responses }

/-- 20_memory R110, 60_exceptions R362: while BUSY, a legal write to anything but CTRL and STATUS sets
OVERRUN and changes nothing else (the port answers that the write ended, log 6). -/
def Obligations.WriteWhileBusyIsDropped : Prop :=
  ∀ (s : State) (a : Word) (w : Width) (v : Word) (loc : Location) (rest : List Input),
    s.status.busy = true → locate s.cfg a w = some loc → loc ≠ .reg .ctrl → loc ≠ .reg .status →
    s.inputs = .write a w v :: rest →
    step s = .next { s with
      status := { s.status with overrun := true }
      inputs := rest
      responses := .written :: s.responses }

/-- 20_memory R97, 43_control R323: no read changes HRC's state, in any phase; a legal read answers the
held value when BUSY = 0. (Responses are log 6; the count of draws is the model's, log 4.) -/
def Obligations.ReadsHaveNoSideEffect : Prop :=
  ∀ (s : State) (a : Word) (w : Width) (loc : Location) (rest : List Input),
    locate s.cfg a w = some loc → s.inputs = .read a w :: rest →
    (∃ v n, step s = .next { s with
      inputs := rest, responses := .data v :: s.responses, draws := n }) ∧
    (s.status.busy = false → step s = .next { s with
      inputs := rest, responses := .data (s.heldWord loc w) :: s.responses })

/-- 20_memory R111, 10_state R48: while BUSY, the registers ID, CAP_IN, CAP_OUT, CAP_WORKERS, CTRL, CMD,
STATUS, IN_LEN and WORKERS answer their held values; every other location answers a fresh free value, of
which a byte read returns eight bits (log 4). -/
def Obligations.ReadsWhileBusy : Prop :=
  ∀ (s : State) (a : Word) (loc : Location) (rest : List Input), s.status.busy = true →
    (locate s.cfg a .w32 = some loc → s.inputs = .read a .w32 :: rest →
      if loc ∈ ([.id, .capIn, .capOut, .capWorkers, .ctrl, .cmd, .status, .inLen, .workers] :
          List Reg).map Location.reg then
        step s = .next { s with
          inputs := rest, responses := .data (s.heldWord loc .w32) :: s.responses }
      else
        step s = .next { s with
          inputs := rest
          responses := .data (Config.freeWord s.draws) :: s.responses
          draws := s.draws + 1 }) ∧
    (locate s.cfg a .w8 = some loc → s.inputs = .read a .w8 :: rest →
      step s = .next { s with
        inputs := rest
        responses := .data (((Config.freeWord s.draws).setWidth 8).setWidth 32) :: s.responses
        draws := s.draws + 1 })

/-- 10_state R32–R47, 20_memory R95, R98, R99, 43_control R323: the word a read returns, field by field,
reserved bits 0; IN and OUT are little-endian. -/
def Obligations.HeldWordsHoldTheirFields : Prop :=
  ∀ (s : State) (b : Byte) (i : Nat), s.cfg.wf = true →
    s.heldWord (.reg .id) .w32 = 0x48524301 ∧
    (s.heldWord (.reg .capIn) .w32).toNat = s.cfg.maxIn ∧
    (s.heldWord (.reg .capOut) .w32).toNat = s.cfg.maxOut ∧
    (s.heldWord (.reg .capWorkers) .w32).toNat = s.cfg.maxWorkers ∧
    (s.heldWord (.reg .ctrl) .w32).toNat = s.ie.toNat ∧
    s.heldWord (.reg .cmd) .w32 = s.cmd ∧
    (s.heldWord (.reg .status) .w32).toNat = s.status.busy.toNat + 2 * s.status.done.toNat +
      4 * s.status.err.toNat + 8 * s.status.overrun.toNat + 16 * s.status.partialTail.toNat ∧
    (s.heldWord (.reg .errCode) .w32).toNat = s.errCode.toNat ∧
    s.heldWord (.reg .faultPos) .w32 = s.faultPos ∧
    s.heldWord (.reg .inLen) .w32 = s.inLen ∧ s.heldWord (.reg .outLen) .w32 = s.outLen ∧
    s.heldWord (.reg .symCount) .w32 = s.symCount ∧ s.heldWord (.reg .bitLen) .w32 = s.bitLen ∧
    (s.heldWord (.reg .workers) .w32).toNat = s.workers.toNat ∧
    (s.heldWord (.reg .tableEntries) .w32).toNat = s.tableEntries.toNat ∧
    s.heldWord (.reg .runs) .w32 = s.runs ∧
    s.heldWord (.freq b) .w32 = s.freqOf b ∧
    (s.heldWord (.ctMeta b) .w32).toNat = 2 ^ 31 * (s.ctOf b).valid.toNat + (s.ctOf b).len.toNat ∧
    (∀ k j, k < 8 → j < 32 →
      (s.heldWord (.ctCode b k) .w32).getLsbD j = (s.ctOf b).v.getLsbD (32 * k + j)) ∧
    (s.heldWord (.input i) .w8).toNat = (s.inByte i).toNat ∧
    (s.heldWord (.output i) .w8).toNat = (s.outByte i).toNat ∧
    (s.heldWord (.input i) .w32).toNat = (s.inByte i).toNat + 2 ^ 8 * (s.inByte (i + 1)).toNat +
      2 ^ 16 * (s.inByte (i + 2)).toNat + 2 ^ 24 * (s.inByte (i + 3)).toNat ∧
    (s.heldWord (.output i) .w32).toNat = (s.outByte i).toNat + 2 ^ 8 * (s.outByte (i + 1)).toNat +
      2 ^ 16 * (s.outByte (i + 2)).toNat + 2 ^ 24 * (s.outByte (i + 3)).toNat

/-- 43_control R324, 20_memory R103: a write of any word to CMD while BUSY = 0 is accepted: CMD and the
latched word take all 32 bits, BUSY rises, DONE, ERR and so IRQ fall, and nothing else changes. While
BUSY = 1 it is dropped and sets OVERRUN. (Inputs and responses are logs 5 and 6.) -/
def Obligations.CmdWriteIsAccepted : Prop :=
  ∀ (s : State) (v : Word) (rest : List Input), s.inputs = .write Reg.cmd.addr .w32 v :: rest →
    (s.status.busy = false → ∃ t, step s = .next t ∧ t.irq = false ∧
      t = { s with
        cmd := v
        latched := v
        phase := .busy
        status := { s.status with busy := true, done := false, err := false }
        inputs := rest
        responses := .written :: s.responses }) ∧
    (s.status.busy = true → step s = .next { s with
      status := { s.status with overrun := true }
      inputs := rest
      responses := .written :: s.responses })

/-- 43_control R325: the STATUS write, at any time, clears of DONE, ERR and OVERRUN those whose bit in
the written word is 1; nothing else changes (inputs and responses: logs 5, 6). -/
def Obligations.StatusWriteClearsBits : Prop :=
  ∀ (s : State) (v : Word) (rest : List Input), s.inputs = .write Reg.status.addr .w32 v :: rest →
    ∃ t, step s = .next t ∧
      t.status.done = (if v.getLsbD 1 then false else s.status.done) ∧
      t.status.err = (if v.getLsbD 2 then false else s.status.err) ∧
      t.status.overrun = (if v.getLsbD 3 then false else s.status.overrun) ∧
      t = { s with
        status := { s.status with
          done := t.status.done, err := t.status.err, overrun := t.status.overrun }
        inputs := rest
        responses := .written :: s.responses }

/-- 43_control R326, 60_exceptions R358: the CTRL write, at any time, sets IE to bit 0, and the IRQ output
is IE and DONE at once (inputs and responses: logs 5, 6). -/
def Obligations.CtrlWriteSetsEnable : Prop :=
  ∀ (s : State) (v : Word) (rest : List Input), s.inputs = .write Reg.ctrl.addr .w32 v :: rest →
    step s = .next { s with
      ie := v.getLsbD 0, inputs := rest, responses := .written :: s.responses } ∧
    ∀ t, step s = .next t → t.irq = (v.getLsbD 0 && s.status.done)

/-- 43_control R322, R327, 10_state R31, R45: with BUSY = 0, IN_LEN and SYM_COUNT take the written word,
WORKERS its low 8 bits, and a write to a read-only register changes nothing (inputs and responses: logs
5, 6). -/
def Obligations.RegisterWrites : Prop :=
  ∀ (s : State) (r : Reg) (v : Word) (rest : List Input), s.status.busy = false →
    s.inputs = .write r.addr .w32 v :: rest →
    match r with
    | .inLen => step s = .next { s with
        inLen := v, inputs := rest, responses := .written :: s.responses }
    | .symCount => step s = .next { s with
        symCount := v, inputs := rest, responses := .written :: s.responses }
    | .workers => step s = .next { s with
        workers := v.setWidth 8, inputs := rest, responses := .written :: s.responses }
    | .ctrl => True
    | .cmd => True
    | .status => True
    | _ => step s = .next { s with inputs := rest, responses := .written :: s.responses }

/-- 20_memory R95, R96, R97, 43_control R322, 60_exceptions R362: with BUSY = 0, a write to IN or OUT
stores, at its index, bits [7:0] (8-bit) or the four bytes little-endian (32-bit); no other byte of that
memory changes, and nothing else does: no register, flag, table or other memory (inputs and responses:
logs 5, 6). -/
def Obligations.DataWritesStoreTheirBytes : Prop :=
  ∀ (s : State) (i n : Nat) (w : Width) (v : Word) (rest : List Input), s.cfg.wf = true →
    s.status.busy = false → (w = .w8 ∧ n = 1) ∨ (w = .w32 ∧ n = 4 ∧ i % 4 = 0) →
    (i + n ≤ s.cfg.maxIn → s.inputs = .write (inAddr i) w v :: rest →
      ∃ t, step s = .next t ∧
        t = { s with inMem := t.inMem, inputs := rest, responses := .written :: s.responses } ∧
        (∀ k, k < n → t.inByte (i + k) = v.extractLsb' (8 * k) 8) ∧
        ∀ j, j < i ∨ i + n ≤ j → t.inByte j = s.inByte j) ∧
    (i + n ≤ s.cfg.maxOut → s.inputs = .write (outAddr i) w v :: rest →
      ∃ t, step s = .next t ∧
        t = { s with outMem := t.outMem, inputs := rest, responses := .written :: s.responses } ∧
        (∀ k, k < n → t.outByte (i + k) = v.extractLsb' (8 * k) 8) ∧
        ∀ j, j < i ∨ i + n ≤ j → t.outByte j = s.outByte j)

/-- 20_memory R98, R99, 43_control R322, R327, 60_exceptions R362: with BUSY = 0, the words of FREQ and CT
read back what was written, reserved bits 0; the other words and the other symbols' entries keep their
values, and nothing else changes: no register, flag, memory or other table (inputs and responses: logs
5, 6). -/
def Obligations.TableWritesReadBack : Prop :=
  ∀ (s : State) (b : Byte) (v : Word) (rest : List Input), s.cfg.wf = true → s.status.busy = false →
    (s.inputs = .write (freqAddr b) .w32 v :: rest →
      ∃ t, step s = .next t ∧
        t = { s with freq := t.freq, inputs := rest, responses := .written :: s.responses } ∧
        t.freqOf b = v ∧ ∀ c, c ≠ b → t.freqOf c = s.freqOf c) ∧
    (s.inputs = .write (ctMetaAddr b) .w32 v :: rest →
      ∃ t, step s = .next t ∧
        t = { s with ct := t.ct, inputs := rest, responses := .written :: s.responses } ∧
        (t.ctOf b).metaWord = v &&& 0x800000FF#32 ∧ (t.ctOf b).v = (s.ctOf b).v ∧
        ∀ c, c ≠ b → t.ctOf c = s.ctOf c) ∧
    ∀ k, k < 8 → s.inputs = .write (ctCodeAddr b k) .w32 v :: rest →
      ∃ t, step s = .next t ∧
        t = { s with ct := t.ct, inputs := rest, responses := .written :: s.responses } ∧
        (t.ctOf b).codeWord k = (if k = 7 then v &&& 0x7FFFFFFF#32 else v) ∧
        (∀ j, j < 8 → j ≠ k → (t.ctOf b).codeWord j = (s.ctOf b).codeWord j) ∧
        (t.ctOf b).metaWord = (s.ctOf b).metaWord ∧ ∀ c, c ≠ b → t.ctOf c = s.ctOf c

/-- 10_state R54, 70_reset R411: a running command's result does not depend on what the host writes
before the completion step: what a dropped write (OVERRUN set), a STATUS write (OVERRUN cleared) or a
CTRL write (IE) changes passes through every command unchanged and changes nothing else of its result. -/
def Obligations.HostWritesDoNotDisturbCommand : Prop :=
  ∀ (i : Instr) (s t : State) (b : Bool), exec i s = .next t →
    exec i { s with status := { s.status with overrun := b } } =
      .next { t with status := { t.status with overrun := b } } ∧
    exec i { s with ie := b } = .next { t with ie := b }

/-! ### What every command leaves alone, and errors -/

/-- 10_state R36, R37, R41, R45, R52, 20_memory R100: no command changes CTRL, CMD, the latched word,
IN_LEN, WORKERS, any byte of IN, or the parameters. -/
def Obligations.NoCommandTouchesItsOperands : Prop :=
  ∀ (i : Instr) (s t : State), exec i s = .next t → OperandsKept s t

/-- 30_encoding R137, 10_state R42–R47, R50, R51, R53: which tables and result registers each command
leaves unchanged, whether it succeeds or fails, and the commands that never write OUT. -/
def Obligations.CommandsKeepWhatTheyDoNotWrite : Prop :=
  ∀ (i : Instr) (s t : State), exec i s = .next t →
    (i ∈ ([.nop, .hufFreq, .hufBuild, .clearTables] : List Instr) → OutKept s t ∧ ResultsKept s t) ∧
    (i ∈ ([.nop, .hufPack, .hufDec, .hufDecB, .rleEnc, .rleDec, .rleEncPar, .rleDecPar] : List Instr) →
      TablesKept s t) ∧
    (i = .hufFreq → t.ct = s.ct ∧ t.tableEntries = s.tableEntries) ∧
    (i = .hufBuild → t.freq = s.freq) ∧
    (i ∈ ([.hufPack, .hufEnc] : List Instr) → t.runs = s.runs) ∧
    (i ∈ ([.hufDec, .hufDecB] : List Instr) → t.symCount = s.symCount ∧ t.runs = s.runs) ∧
    (i ∈ ([.rleEnc, .rleDec, .rleEncPar, .rleDecPar] : List Instr) →
      t.bitLen = s.bitLen ∧ t.symCount = s.symCount)

/-- 10_state R53: on success, a command that produces bytes leaves OUT_LEN within MAX_OUT and every byte
of OUT at OUT_LEN and above as it was. -/
def Obligations.SuccessKeepsOutAboveOutLen : Prop :=
  ∀ (i : Instr) (s t : State), s.cfg.wf = true → exec i s = .next t → t.errCode = 0 →
    i ∈ ([.hufPack, .hufEnc, .hufDec, .hufDecB, .rleEnc, .rleDec, .rleEncPar, .rleDecPar] : List Instr) →
    t.outLen.toNat ≤ s.cfg.maxOut ∧ ∀ j, t.outLen.toNat ≤ j → t.outByte j = s.outByte j

/-- 60_exceptions R354, 30_encoding R135: when the completion step of any latched word, legal or not, ends
in a start-check error (codes 1, 3, 4, 8, 9, 10, 11), nothing but the completion fields has changed. -/
def Obligations.StartCheckErrorsChangeNothing : Prop :=
  ∀ s t : State, s.completionStep = .next t →
    t.errCode ∈ ([1, 3, 4, 8, 9, 10, 11] : List (BitVec 4)) →
    t = { s with
      errCode := t.errCode
      faultPos := t.faultPos
      status := { s.status with busy := false, done := true, err := true, partialTail := false }
      phase := .idle }

/-- 60_exceptions R355: an execution error (codes 2, 5, 6, 7) zeroes the command's result registers and
leaves every byte of OUT unspecified (as a fresh draw, log 3); HUF_ENC keeps what its FREQ and BUILD
stages computed, the others keep the tables. -/
def Obligations.ExecutionErrorsClearResults : Prop :=
  ∀ (i : Instr) (s t : State), exec i s = .next t → t.errCode ∈ ([2, 5, 6, 7] : List (BitVec 4)) →
    OutScrambled s t ∧ t.outLen = 0 ∧ t.status.err = true ∧ t.status.partialTail = false ∧
    (i ∈ ([.hufPack, .hufEnc] : List Instr) → t.bitLen = 0 ∧ t.symCount = 0 ∧ t.runs = s.runs) ∧
    (i ∈ ([.hufDec, .hufDecB] : List Instr) →
      t.bitLen = 0 ∧ t.symCount = s.symCount ∧ t.runs = s.runs) ∧
    (i ∈ ([.rleEnc, .rleDec, .rleEncPar, .rleDecPar] : List Instr) →
      t.runs = 0 ∧ t.bitLen = s.bitLen ∧ t.symCount = s.symCount) ∧
    (i ≠ .hufEnc → TablesKept s t) ∧
    (i = .hufEnc → ∃ u w, exec .hufFreq s = .next u ∧ exec .hufBuild u = .next w ∧ TablesKept w t)

/-- 60_exceptions R352: the errors each command can report. -/
def Obligations.ErrorsAsTabulated : Prop :=
  ∀ (i : Instr) (s t : State), exec i s = .next t →
    t.errCode ∈ (match i with
      | .nop => [0]
      | .hufFreq => [0, 8]
      | .hufBuild => [0, 1]
      | .hufPack => [0, 6, 7, 8]
      | .hufEnc => [0, 7, 8]
      | .hufDec => [0, 2, 3, 4, 5, 7, 8]
      | .hufDecB => [0, 2, 3, 4, 7, 8]
      | .rleEnc => [0, 7, 8]
      | .rleDec => [0, 7, 8, 9]
      | .rleEncPar => [0, 7, 8, 10]
      | .rleDecPar => [0, 7, 8, 9, 10]
      | .clearTables => [0] : List (BitVec 4))

/-- 60_exceptions R356, R357: the start checks on registers and tables, in their order. -/
def Obligations.StartCheckOrder : Prop :=
  ∀ s : State,
    (s.cfg.maxIn < s.inLen.toNat →
      ∀ i ∈ ([.hufFreq, .hufPack, .hufEnc, .hufDec, .hufDecB, .rleEnc, .rleDec, .rleEncPar, .rleDecPar] :
        List Instr), ∃ t, exec i s = .next t ∧ Failed s t .inLenTooLarge 0) ∧
    (s.inLen.toNat ≤ s.cfg.maxIn → s.workers.toNat = 0 ∨ s.cfg.maxWorkers < s.workers.toNat →
      ∀ i ∈ ([.rleEncPar, .rleDecPar] : List Instr),
        ∃ t, exec i s = .next t ∧ Failed s t .badWorkers 0) ∧
    (s.inLen.toNat ≤ s.cfg.maxIn → s.inLen.toNat % 2 = 1 →
      (∃ t, exec .rleDec s = .next t ∧ Failed s t .rleOddLength (s.inLen.toNat - 1)) ∧
      (1 ≤ s.workers.toNat → s.workers.toNat ≤ s.cfg.maxWorkers →
        ∃ t, exec .rleDecPar s = .next t ∧ Failed s t .rleOddLength (s.inLen.toNat - 1))) ∧
    ((∀ b, s.freqOf b = 0) → ∃ t, exec .hufBuild s = .next t ∧ Failed s t .emptyInput 0) ∧
    (s.inLen.toNat ≤ s.cfg.maxIn → (∀ b, (s.ctOf b).valid = false) →
      (s.symCount ≠ 0 → ∃ t, exec .hufDec s = .next t ∧ Failed s t .missingCodeTable 0) ∧
      (s.inLen ≠ 0 → ∃ t, exec .hufDecB s = .next t ∧ Failed s t .missingCodeTable 0))

/-! ### Control commands -/

/-- 43_control R320: NOP, word 0x00000000, writes the completion fields and nothing else. -/
def Obligations.NopWritesOnlyCompletionFields : Prop :=
  decode 0x00000000 = .ok .nop ∧
  ∀ s : State, exec .nop s = .next { s with
    errCode := 0
    faultPos := 0
    status := { s.status with busy := false, done := true, err := false, partialTail := false }
    phase := .idle }

/-- 43_control R321: CLEAR_TABLES, word 0x0000000A, gives FREQ, CT and TABLE_ENTRIES their reset values
and leaves the result registers and OUT. -/
def Obligations.ClearTablesZeroesTables : Prop :=
  decode 0x0000000A = .ok .clearTables ∧
  ∀ s : State, ∃ t, exec .clearTables s = .next t ∧ Succeeded s t false ∧ (∀ b, t.freqOf b = 0) ∧
    (∀ b, t.ctOf b = ⟨false, 0, 0⟩) ∧ t.tableEntries = 0 ∧ ResultsKept s t ∧ OutKept s t ∧
    OperandsKept s t

/-! ### Huffman encoder -/

/-- 40_huffman_encode R181: HUF_FREQ, word 0x00000001, completes with every FREQ entry the number of times
its symbol occurs in IN[0..IN_LEN−1], exactly, and writes nothing else; IN_LEN > MAX_IN is its one error. -/
def Obligations.HufFreqCountsInput : Prop :=
  decode 0x00000001 = .ok .hufFreq ∧
  ∀ s : State,
    (s.inLen.toNat ≤ s.cfg.maxIn → ∃ t, exec .hufFreq s = .next t ∧ Succeeded s t false ∧
      (∀ b, (t.freqOf b).toNat = s.inData.count b) ∧ t.ct = s.ct ∧ t.tableEntries = s.tableEntries ∧
      ResultsKept s t ∧ OutKept s t ∧ OperandsKept s t) ∧
    (s.cfg.maxIn < s.inLen.toNat → ∃ t, exec .hufFreq s = .next t ∧ Failed s t .inLenTooLarge 0 ∧
      TablesKept s t ∧ ResultsKept s t ∧ OutKept s t ∧ OperandsKept s t)

/-- 40_huffman_encode R185, R186, R183: HUF_BUILD completes when some FREQ entry is nonzero; the VALID
entries are the present symbols, TABLE_ENTRIES counts them, the codes are prefix-free and complete
(Σ 2^(−LEN) = 1), unused bits of V are zero, and a sole symbol has the empty code. -/
def Obligations.HufBuildWritesCompleteTable : Prop :=
  ∀ s : State, (∃ b, s.freqOf b ≠ 0) →
    ∃ t, exec .hufBuild s = .next t ∧ Succeeded s t false ∧
      (∀ b, (t.ctOf b).valid = true ↔ s.freqOf b ≠ 0) ∧
      (∀ b, (t.ctOf b).valid = false → t.ctOf b = ⟨false, 0, 0⟩) ∧
      (∀ b k, (t.ctOf b).len.toNat ≤ k → (t.ctOf b).v.getLsbD k = false) ∧
      t.tableEntries.toNat = (allSymbols.filter fun b => s.freqOf b != 0).length ∧
      PrefixFree t.ct ∧
      ((allSymbols.filter fun b => (t.ctOf b).valid).map
        fun b => 2 ^ (255 - (t.ctOf b).len.toNat)).sum = 2 ^ 255 ∧
      (∀ b, (∀ c, s.freqOf c ≠ 0 → c = b) → (t.ctOf b).len = 0) ∧
      t.freq = s.freq ∧ ResultsKept s t ∧ OutKept s t

/-- 40_huffman_encode R182, R184, R186: HUF_BUILD, word 0x00000002, writes the root-to-leaf paths, '0' to
the left and '1' to the right, of the one tree that the spec's merging of least nodes gives, and S into
TABLE_ENTRIES; with no nonzero FREQ entry it reports EMPTY_INPUT and keeps the tables. -/
def Obligations.HufBuildWritesTreePaths : Prop :=
  decode 0x00000002 = .ok .hufBuild ∧
  ∀ (s : State) (queue : List Queued),
    queue.Perm ((allSymbols.filter fun b => s.freqOf b != 0).map
      fun b => ⟨b.toNat, .leaf b (s.freqOf b).toNat⟩) →
    ((∃ b, s.freqOf b ≠ 0) → (∃! root, BuildsTo 0 queue root) ∧
      ∃ t, exec .hufBuild s = .next t ∧ Succeeded s t false ∧
        (∀ root, BuildsTo 0 queue root → ∀ b,
          (∀ c, (b, c) ∈ root.codes [] →
            t.ctOf b = ⟨true, BitVec.ofNat 8 c.length, BitVec.ofNat 255 (bitsValue c)⟩) ∧
          ((∀ c, (b, c) ∉ root.codes []) → t.ctOf b = ⟨false, 0, 0⟩)) ∧
        t.tableEntries.toNat = queue.length ∧ t.freq = s.freq ∧ ResultsKept s t ∧ OutKept s t ∧
        OperandsKept s t) ∧
    ((∀ b, s.freqOf b = 0) → ∃ t, exec .hufBuild s = .next t ∧ Failed s t .emptyInput 0 ∧
      TablesKept s t ∧ ResultsKept s t ∧ OutKept s t ∧ OperandsKept s t)

/-- 30_encoding R141, R142: stream bit k is bit 7 − (k mod 8) of byte k div 8, padding bits are zero, a
byte's bits are read in the same order, and unpacking what was packed gives the bits followed by the
padding. -/
def Obligations.PackingIsMsbFirst : Prop :=
  (∀ b : Bits, (packBits b).length = (b.length + 7) / 8 ∧
    (∀ k x, (packBits b)[k / 8]? = some x → x.getLsbD (7 - k % 8) = b.getD k false) ∧
    unpackBits (packBits b) = b ++ List.replicate (8 * ((b.length + 7) / 8) - b.length) false) ∧
  ∀ bytes : List Byte, (unpackBits bytes).length = 8 * bytes.length ∧
    ∀ k x, bytes[k / 8]? = some x → (unpackBits bytes)[k]? = some (x.getLsbD (7 - k % 8))

/-- 40_huffman_encode R187, R188: HUF_PACK completes when every input symbol has a code and the codes fit;
OUT holds their concatenation, most significant bit first, padded with zeros. -/
def Obligations.HufPackWritesCodes : Prop :=
  ∀ s : State, s.cfg.wf = true → s.inLen.toNat ≤ s.cfg.maxIn →
    (∀ b ∈ s.inData, (s.ctOf b).valid = true) →
    (streamOf s.ct s.inData).length ≤ 8 * s.cfg.maxOut →
    ∃ t, exec .hufPack s = .next t ∧ Succeeded s t false ∧
      t.bitLen.toNat = (streamOf s.ct s.inData).length ∧
      t.outLen.toNat = ((streamOf s.ct s.inData).length + 7) / 8 ∧ t.symCount = s.inLen ∧
      (∀ k, k < 8 * t.outLen.toNat →
        (t.outByte (k / 8)).getLsbD (7 - k % 8) = (streamOf s.ct s.inData).getD k false) ∧
      (∀ j, t.outLen.toNat ≤ j → t.outByte j = s.outByte j) ∧ TablesKept s t ∧ t.runs = s.runs

/-- 40_huffman_encode R187, 60_exceptions R356, R357: HUF_PACK reports the first input index whose symbol
has no code, or else whose code does not fit. -/
def Obligations.HufPackReportsFirstError : Prop :=
  ∀ (s : State) (x rest : List Byte) (b : Byte), s.inLen.toNat ≤ s.cfg.maxIn →
    s.inData = x ++ b :: rest → (∀ c ∈ x, (s.ctOf c).valid = true) →
    (streamOf s.ct x).length ≤ 8 * s.cfg.maxOut →
    ((s.ctOf b).valid = false →
      ∃ t, exec .hufPack s = .next t ∧ Failed s t .noCode x.length) ∧
    ((s.ctOf b).valid = true → 8 * s.cfg.maxOut < (streamOf s.ct x).length + (s.ctOf b).len.toNat →
      ∃ t, exec .hufPack s = .next t ∧ Failed s t .outOverflow x.length)

/-- 40_huffman_encode R189, R180: on nonempty input HUF_ENC does what HUF_FREQ, HUF_BUILD and HUF_PACK do
one after the other. -/
def Obligations.HufEncIsTheThreeStages : Prop :=
  ∀ s : State, s.inLen.toNat ≤ s.cfg.maxIn → s.inLen ≠ 0 → s.cfg.wf = true →
    ∃ u w, exec .hufFreq s = .next u ∧ exec .hufBuild u = .next w ∧ w.errCode = 0 ∧
      exec .hufEnc s = exec .hufPack w

/-- 40_huffman_encode R189: HUF_ENC completes when the codes it derives fit into OUT (on empty input
always); TABLE_ENTRIES is the number of distinct symbols, SYM_COUNT the input length, and OUT holds the
packed codes. -/
def Obligations.HufEncEncodesInput : Prop :=
  ∀ s : State, s.cfg.wf = true → s.inLen.toNat ≤ s.cfg.maxIn →
    (streamOf (tableOf (codesOf (countSymbols s.inData))) s.inData).length ≤ 8 * s.cfg.maxOut →
    ∃ t, exec .hufEnc s = .next t ∧ Succeeded s t false ∧
      (∀ b, (t.freqOf b).toNat = s.inData.count b) ∧
      (∀ b, (t.ctOf b).valid = true ↔ b ∈ s.inData) ∧ PrefixFree t.ct ∧
      t.tableEntries.toNat = s.inData.dedup.length ∧ t.symCount = s.inLen ∧
      t.bitLen.toNat = (streamOf t.ct s.inData).length ∧
      OutHolds s t (packBits (streamOf t.ct s.inData)) ∧ t.runs = s.runs

/-! ### Huffman decoder -/

/-- 41_huffman_decode R230, R231: Rebuild succeeds exactly when the VALID codes are pairwise distinct and
prefix-free. -/
def Obligations.RebuildAcceptsPrefixFreeTables : Prop :=
  ∀ ct : Table CtEntry, (∃ root, rebuild ct = .ok root) ↔ PrefixFree ct

/-- 41_huffman_decode R230, R234, R235, 60_exceptions R356, R357: BAD_CODE_TABLE names the first symbol, in
ascending order, whose code equals, begins or continues the code of a lower VALID symbol. -/
def Obligations.BadCodeTableNamesFirstSymbol : Prop :=
  ∀ (s : State) (a b : Byte), s.inLen.toNat ≤ s.cfg.maxIn →
    (s.ctOf a).valid = true → (s.ctOf b).valid = true → a.toNat < b.toNat →
    ((s.ctOf a).code <+: (s.ctOf b).code ∨ (s.ctOf b).code <+: (s.ctOf a).code) →
    (∀ c d : Byte, (s.ctOf c).valid = true → (s.ctOf d).valid = true → c.toNat < d.toNat →
      d.toNat < b.toNat → ¬ (s.ctOf c).code <+: (s.ctOf d).code ∧ ¬ (s.ctOf d).code <+: (s.ctOf c).code) →
    ∀ i ∈ ([.hufDec, .hufDecB] : List Instr), ∃ t, exec i s = .next t ∧ Failed s t .badCodeTable b.toNat

/-- 41_huffman_decode R232, R234: HUF_DEC completes when the input bits begin with the codes of SYM_COUNT
symbols that fit into OUT; OUT holds the symbols, BIT_LEN the bits consumed, whatever follows. -/
def Obligations.HufDecDecodesCountedStream : Prop :=
  ∀ (s : State) (x : List Byte) (rest : Bits), s.cfg.wf = true → s.inLen.toNat ≤ s.cfg.maxIn →
    PrefixFree s.ct → (∀ b ∈ x, (s.ctOf b).valid = true) →
    unpackBits s.inData = streamOf s.ct x ++ rest → x.length = s.symCount.toNat →
    x.length ≤ s.cfg.maxOut →
    ∃ t, exec .hufDec s = .next t ∧ Succeeded s t false ∧ OutHolds s t x ∧
      t.bitLen.toNat = (streamOf s.ct x).length ∧ TablesKept s t ∧ t.symCount = s.symCount ∧
      t.runs = s.runs

/-- 41_huffman_decode R232, 60_exceptions R356, R357: the error of HUF_DEC that the walk meets first:
after the symbols `x`, the bits end inside a code, or the next bit leads to no child, or the next symbol
finds OUT full. -/
def Obligations.HufDecReportsFirstStreamError : Prop :=
  ∀ (s : State) (x : List Byte) (p rest : Bits), s.inLen.toNat ≤ s.cfg.maxIn → PrefixFree s.ct →
    (∃ b, (s.ctOf b).valid = true) → (∀ b ∈ x, (s.ctOf b).valid = true) →
    unpackBits s.inData = streamOf s.ct x ++ p ++ rest → x.length < s.symCount.toNat →
    x.length ≤ s.cfg.maxOut →
    (InsideCode s.ct p → rest = [] →
      ∃ t, exec .hufDec s = .next t ∧ Failed s t .truncatedStream (8 * s.inLen.toNat)) ∧
    (∀ b more, InsideCode s.ct p → rest = b :: more →
      (∀ c, (s.ctOf c).valid = true → ¬ p ++ [b] <+: (s.ctOf c).code) →
      ∃ t, exec .hufDec s = .next t ∧
        Failed s t .invalidBitSequence ((streamOf s.ct x).length + p.length)) ∧
    (∀ b, (s.ctOf b).valid = true → p = (s.ctOf b).code → x.length = s.cfg.maxOut →
      ∃ t, exec .hufDec s = .next t ∧ Failed s t .outOverflow s.cfg.maxOut)

/-- 41_huffman_decode R233, R235: HUF_DEC.B completes when the input bits are the codes of symbols that
fit into OUT, none of them empty, followed by nothing or by a proper initial part of a code; OUT holds
the symbols, BIT_LEN is 8·IN_LEN, and PARTIAL_TAIL says whether the input ended inside a code. -/
def Obligations.HufDecBDecodesWholeStream : Prop :=
  ∀ (s : State) (x : List Byte) (p : Bits), s.cfg.wf = true → s.inLen.toNat ≤ s.cfg.maxIn →
    PrefixFree s.ct → (∀ b ∈ x, (s.ctOf b).valid = true ∧ (s.ctOf b).code ≠ []) →
    p = [] ∨ InsideCode s.ct p → unpackBits s.inData = streamOf s.ct x ++ p →
    x.length ≤ s.cfg.maxOut →
    ∃ t, exec .hufDecB s = .next t ∧ Succeeded s t (p != []) ∧ OutHolds s t x ∧
      t.bitLen.toNat = 8 * s.inLen.toNat ∧ TablesKept s t ∧ t.symCount = s.symCount ∧ t.runs = s.runs

/-- 41_huffman_decode R233, 60_exceptions R356, R357: the error of HUF_DEC.B that the walk meets first:
after the symbols `x` and the bits `p` inside a code, the next bit leads to no child, or completes a
symbol that finds OUT full. -/
def Obligations.HufDecBReportsFirstStreamError : Prop :=
  ∀ (s : State) (x : List Byte) (p rest : Bits) (b : Bool), s.inLen.toNat ≤ s.cfg.maxIn →
    PrefixFree s.ct → (∃ c, (s.ctOf c).valid = true) →
    (∀ c ∈ x, (s.ctOf c).valid = true ∧ (s.ctOf c).code ≠ []) →
    unpackBits s.inData = streamOf s.ct x ++ p ++ b :: rest → x.length ≤ s.cfg.maxOut →
    (p = [] ∨ InsideCode s.ct p →
      (∀ c, (s.ctOf c).valid = true → ¬ p ++ [b] <+: (s.ctOf c).code) →
      ∃ t, exec .hufDecB s = .next t ∧
        Failed s t .invalidBitSequence ((streamOf s.ct x).length + p.length)) ∧
    (∀ c, (s.ctOf c).valid = true → p ++ [b] = (s.ctOf c).code → x.length = s.cfg.maxOut →
      ∃ t, exec .hufDecB s = .next t ∧ Failed s t .outOverflow s.cfg.maxOut)

/-- 41_huffman_decode R236, 70_reset R409: the counted round trip. After HUF_ENC of x, a state that holds
its stream in IN, its table and its symbol count decodes it to x with the same BIT_LEN. (R236 also needs
the stream to fit into IN, which its host sequence takes for granted.) -/
def Obligations.HuffmanRoundTrip : Prop :=
  ∀ s t u : State, s.cfg.wf = true → exec .hufEnc s = .next t → t.errCode = 0 →
    s.inData.length ≤ s.cfg.maxOut → t.outLen.toNat ≤ s.cfg.maxIn →
    u.cfg = s.cfg → u.ct = t.ct → u.symCount = t.symCount → u.inLen = t.outLen →
    u.inData = t.outData t.outLen.toNat →
    ∃ v, exec .hufDec u = .next v ∧ Succeeded u v false ∧ OutHolds u v s.inData ∧ v.bitLen = t.bitLen

/-- 41_huffman_decode R237: the baseline gap, for inputs of any length. For S ≥ 2 the zero padding decodes
as further copies of the symbol z whose code is all zeros, PARTIAL_TAIL says whether it ends inside a
code, and OUT_OVERFLOW is raised exactly when input and copies do not fit; for S = 1 the result is empty.
(R237 also needs the stream to fit into IN, which it takes for granted.) -/
def Obligations.BaselineGap : Prop :=
  ∀ s t u : State, s.cfg.wf = true → exec .hufEnc s = .next t → t.errCode = 0 → s.inLen ≠ 0 →
    t.outLen.toNat ≤ s.cfg.maxIn →
    u.cfg = s.cfg → u.ct = t.ct → u.inLen = t.outLen → u.inData = t.outData t.outLen.toNat →
    (2 ≤ t.tableEntries.toNat → ∃ (z : Byte) (l : Nat), 1 ≤ l ∧ (t.ctOf z).valid = true ∧
      (t.ctOf z).code = List.replicate l false ∧
      let p := 8 * t.outLen.toNat - t.bitLen.toNat
      (s.inData.length + p / l ≤ s.cfg.maxOut →
        ∃ v, exec .hufDecB u = .next v ∧ Succeeded u v (p % l != 0) ∧
          OutHolds u v (s.inData ++ List.replicate (p / l) z)) ∧
      (s.cfg.maxOut < s.inData.length + p / l →
        ∃ v, exec .hufDecB u = .next v ∧ Failed u v .outOverflow s.cfg.maxOut)) ∧
    (t.tableEntries.toNat = 1 →
      ∃ v, exec .hufDecB u = .next v ∧ Succeeded u v false ∧ OutHolds u v [])

/-! ### RLE -/

/-- 42_rle R270, R272, R279 items 2 and 3, 30_encoding R143: RLE_ENC completes when the pairs of the
run-length form of the input fit into OUT; OUT holds them, count first. -/
def Obligations.RleEncWritesRunLengthForm : Prop :=
  ∀ (s : State) (pairs : List (Nat × Byte)), s.cfg.wf = true → s.inLen.toNat ≤ s.cfg.maxIn →
    RunLengthOf s.inData pairs → 2 * pairs.length ≤ s.cfg.maxOut →
    ∃ t, exec .rleEnc s = .next t ∧ Succeeded s t false ∧ OutHolds s t (pairBytes pairs) ∧
      t.runs.toNat = pairs.length ∧ TablesKept s t ∧ t.bitLen = s.bitLen ∧ t.symCount = s.symCount

/-- 42_rle R272, R275, 60_exceptions R356, R357: RLE_ENC and RLE_ENC_PAR report the input index at which
the first pair that does not fit begins, in pair order and chunk order. -/
def Obligations.RleEncReportsFirstPair : Prop :=
  ∀ (s : State) (before after : List (Nat × Byte)) (p : Nat × Byte), s.inLen.toNat ≤ s.cfg.maxIn →
    2 * before.length ≤ s.cfg.maxOut → s.cfg.maxOut < 2 * before.length + 2 →
    (RunLengthOf s.inData (before ++ p :: after) →
      ∃ t, exec .rleEnc s = .next t ∧ Failed s t .outOverflow (expand before).length) ∧
    (∀ parts : List (List (Nat × Byte)), 1 ≤ s.workers.toNat → s.workers.toNat ≤ s.cfg.maxWorkers →
      List.Forall₂ (fun c q => RunLengthOf (slice s.inData c.1 c.2) q)
        (chunks s.inLen.toNat s.workers.toNat) parts → parts.flatten = before ++ p :: after →
      ∃ t, exec .rleEncPar s = .next t ∧ Failed s t .outOverflow (expand before).length)

/-- 42_rle R271, R273, R276, R277: RLE_DEC, and RLE_DEC_PAR with a legal worker count, complete when the
pairs in IN expand to bytes that fit into OUT; OUT holds the expansion and RUNS the number of pairs. -/
def Obligations.RleDecExpandsPairs : Prop :=
  ∀ (s : State) (pairs : List (Nat × Byte)) (i : Instr), s.cfg.wf = true →
    s.inLen.toNat ≤ s.cfg.maxIn → (∀ p ∈ pairs, p.1 ≤ 255) → s.inData = pairBytes pairs →
    (expand pairs).length ≤ s.cfg.maxOut →
    i = .rleDec ∨ (i = .rleDecPar ∧ 1 ≤ s.workers.toNat ∧ s.workers.toNat ≤ s.cfg.maxWorkers) →
    ∃ t, exec i s = .next t ∧ Succeeded s t false ∧ OutHolds s t (expand pairs) ∧
      t.runs.toNat = pairs.length ∧ TablesKept s t ∧ t.bitLen = s.bitLen ∧ t.symCount = s.symCount

/-- 42_rle R273, R276, 60_exceptions R357: RLE_DEC and RLE_DEC_PAR report the IN offset of the first pair
whose expansion does not fit. -/
def Obligations.RleDecReportsFirstPair : Prop :=
  ∀ (s : State) (before after : List (Nat × Byte)) (p : Nat × Byte) (i : Instr),
    s.inLen.toNat ≤ s.cfg.maxIn → (∀ q ∈ before ++ p :: after, q.1 ≤ 255) →
    s.inData = pairBytes (before ++ p :: after) → (expand before).length ≤ s.cfg.maxOut →
    s.cfg.maxOut < (expand before).length + p.1 →
    i = .rleDec ∨ (i = .rleDecPar ∧ 1 ≤ s.workers.toNat ∧ s.workers.toNat ≤ s.cfg.maxWorkers) →
    ∃ t, exec i s = .next t ∧ Failed s t .outOverflow (2 * before.length)

/-- 42_rle R274: the chunks are contiguous, in index order and cover the input: W of ⌊N/W⌋ bytes with the
remainder in the last, none of them empty, or one chunk when the input is shorter than W, which gives the
pairs that the general formula would give. -/
def Obligations.ChunksPartitionInput : Prop :=
  ∀ (bytes : List Byte) (w : Nat), 1 ≤ w →
    ((chunks bytes.length w).flatMap fun c => slice bytes c.1 c.2) = bytes ∧
    (bytes.length < w → chunks bytes.length w = [(0, bytes.length)] ∧
      rleEncodeChunks w bytes =
        ((List.replicate (w - 1) (0, 0) ++ [(0, bytes.length)]).flatMap
          fun c : Nat × Nat => rleEncode c.1 (slice bytes c.1 c.2))) ∧
    (w ≤ bytes.length → (chunks bytes.length w).length = w ∧
      (∀ k, k + 1 < w → (chunks bytes.length w)[k]? =
        some (k * (bytes.length / w), (k + 1) * (bytes.length / w))) ∧
      (chunks bytes.length w)[w - 1]? = some ((w - 1) * (bytes.length / w), bytes.length) ∧
      ∀ c ∈ chunks bytes.length w, c.1 < c.2)

/-- 42_rle R275, R278: RLE_ENC_PAR completes, with a legal worker count, when the pairs of all chunks fit
into OUT; OUT holds the run-length forms of the chunks in chunk index order. -/
def Obligations.RleEncParEncodesChunks : Prop :=
  ∀ (s : State) (parts : List (List (Nat × Byte))), s.cfg.wf = true → s.inLen.toNat ≤ s.cfg.maxIn →
    1 ≤ s.workers.toNat → s.workers.toNat ≤ s.cfg.maxWorkers →
    List.Forall₂ (fun c p => RunLengthOf (slice s.inData c.1 c.2) p)
      (chunks s.inLen.toNat s.workers.toNat) parts →
    2 * parts.flatten.length ≤ s.cfg.maxOut →
    ∃ t, exec .rleEncPar s = .next t ∧ Succeeded s t false ∧ OutHolds s t (pairBytes parts.flatten) ∧
      t.runs.toNat = parts.flatten.length ∧ TablesKept s t ∧ t.bitLen = s.bitLen ∧
      t.symCount = s.symCount

/-- 42_rle R275: with fewer bytes than workers, or one worker, RLE_ENC_PAR gives exactly RLE_ENC's result. -/
def Obligations.RleEncParFallsBack : Prop :=
  ∀ s : State, 1 ≤ s.workers.toNat → s.workers.toNat ≤ s.cfg.maxWorkers →
    s.inLen.toNat < s.workers.toNat ∨ s.workers.toNat = 1 → exec .rleEncPar s = exec .rleEnc s

/-- 42_rle R279 item 5, R276, R277: with a legal worker count RLE_DEC_PAR and RLE_DEC end in the same
state, successful or not. -/
def Obligations.RleDecParEqualsRleDec : Prop :=
  ∀ s : State, 1 ≤ s.workers.toNat → s.workers.toNat ≤ s.cfg.maxWorkers →
    exec .rleDecPar s = exec .rleDec s

/-- 42_rle R278: whatever the order in which the workers take the pairs, every byte of OUT ends the same. -/
def Obligations.WorkerOrderDoesNotMatter : Prop :=
  ∀ (maxOut total : Nat) (bytes : List Byte) (regions order : List RleRegion) (m : Memory),
    regionPass maxOut 0 0 bytes = .ok (regions, total) → order.Perm regions →
    ∀ i, (fillRegions m order).get? i = (fillRegions m regions).get? i

/-- 42_rle R279 item 1: the RLE round trip, for every pairing of the encoders with the decoders, RLE_DEC_PAR
with a legal worker count and RLE_DEC with any. (The rule also needs the pairs to fit into IN, which its copy takes for granted.) -/
def Obligations.RleRoundTrip : Prop :=
  ∀ (s t u : State) (e d : Instr), s.cfg.wf = true → e ∈ ([.rleEnc, .rleEncPar] : List Instr) →
    d ∈ ([.rleDec, .rleDecPar] : List Instr) → exec e s = .next t → t.errCode = 0 →
    s.inData.length ≤ s.cfg.maxOut → t.outLen.toNat ≤ s.cfg.maxIn → u.cfg = s.cfg →
    (d = .rleDecPar → 1 ≤ u.workers.toNat ∧ u.workers.toNat ≤ u.cfg.maxWorkers) →
    u.inLen = t.outLen → u.inData = t.outData t.outLen.toNat →
    ∃ v, exec d u = .next v ∧ Succeeded u v false ∧ OutHolds u v s.inData

/-- 42_rle R279 item 4: encoding by chunks costs at most one more pair for each inner boundary. -/
def Obligations.ParallelEncodeCost : Prop :=
  ∀ (bytes : List Byte) (w : Nat), 1 ≤ w →
    (rleEncodeChunks w bytes).length ≤ (rleEncode 0 bytes).length + (w - 1)
end

