-- ==== Sys2Proof/Laws/State.lean ====
section
/-! SUPPORT. What each shared update of the state does to each field: one lemma per field, true by rfl,
so that no later proof unfolds a record update. -/

namespace Sys2Proof.Machine

section
variable (s : State)

@[simp] theorem State.complete_cfg (p : Bool) : (s.complete p).cfg = s.cfg := rfl
@[simp] theorem State.complete_ie (p : Bool) : (s.complete p).ie = s.ie := rfl
@[simp] theorem State.complete_cmd (p : Bool) : (s.complete p).cmd = s.cmd := rfl
@[simp] theorem State.complete_status (p : Bool) : (s.complete p).status = s.status.complete false p := rfl
@[simp] theorem State.complete_errCode (p : Bool) : (s.complete p).errCode = 0 := rfl
@[simp] theorem State.complete_faultPos (p : Bool) : (s.complete p).faultPos = 0 := rfl
@[simp] theorem State.complete_inLen (p : Bool) : (s.complete p).inLen = s.inLen := rfl
@[simp] theorem State.complete_outLen (p : Bool) : (s.complete p).outLen = s.outLen := rfl
@[simp] theorem State.complete_symCount (p : Bool) : (s.complete p).symCount = s.symCount := rfl
@[simp] theorem State.complete_bitLen (p : Bool) : (s.complete p).bitLen = s.bitLen := rfl
@[simp] theorem State.complete_workers (p : Bool) : (s.complete p).workers = s.workers := rfl
@[simp] theorem State.complete_tableEntries (p : Bool) : (s.complete p).tableEntries = s.tableEntries := rfl
@[simp] theorem State.complete_runs (p : Bool) : (s.complete p).runs = s.runs := rfl
@[simp] theorem State.complete_freq (p : Bool) : (s.complete p).freq = s.freq := rfl
@[simp] theorem State.complete_ct (p : Bool) : (s.complete p).ct = s.ct := rfl
@[simp] theorem State.complete_inMem (p : Bool) : (s.complete p).inMem = s.inMem := rfl
@[simp] theorem State.complete_outMem (p : Bool) : (s.complete p).outMem = s.outMem := rfl
@[simp] theorem State.complete_phase (p : Bool) : (s.complete p).phase = .idle := rfl
@[simp] theorem State.complete_latched (p : Bool) : (s.complete p).latched = s.latched := rfl
@[simp] theorem State.complete_inDraw (p : Bool) : (s.complete p).inDraw = s.inDraw := rfl
@[simp] theorem State.complete_outDraw (p : Bool) : (s.complete p).outDraw = s.outDraw := rfl
@[simp] theorem State.complete_draws (p : Bool) : (s.complete p).draws = s.draws := rfl
@[simp] theorem State.complete_inputs (p : Bool) : (s.complete p).inputs = s.inputs := rfl
@[simp] theorem State.complete_responses (p : Bool) : (s.complete p).responses = s.responses := rfl

@[simp] theorem State.reportError_cfg (e : CodecError) : (s.reportError e).cfg = s.cfg := rfl
@[simp] theorem State.reportError_ie (e : CodecError) : (s.reportError e).ie = s.ie := rfl
@[simp] theorem State.reportError_cmd (e : CodecError) : (s.reportError e).cmd = s.cmd := rfl
@[simp] theorem State.reportError_status (e : CodecError) : (s.reportError e).status = s.status.complete true false := rfl
@[simp] theorem State.reportError_errCode (e : CodecError) : (s.reportError e).errCode = e.kind.code := rfl
@[simp] theorem State.reportError_faultPos (e : CodecError) : (s.reportError e).faultPos = BitVec.ofNat 32 e.pos := rfl
@[simp] theorem State.reportError_inLen (e : CodecError) : (s.reportError e).inLen = s.inLen := rfl
@[simp] theorem State.reportError_outLen (e : CodecError) : (s.reportError e).outLen = s.outLen := rfl
@[simp] theorem State.reportError_symCount (e : CodecError) : (s.reportError e).symCount = s.symCount := rfl
@[simp] theorem State.reportError_bitLen (e : CodecError) : (s.reportError e).bitLen = s.bitLen := rfl
@[simp] theorem State.reportError_workers (e : CodecError) : (s.reportError e).workers = s.workers := rfl
@[simp] theorem State.reportError_tableEntries (e : CodecError) : (s.reportError e).tableEntries = s.tableEntries := rfl
@[simp] theorem State.reportError_runs (e : CodecError) : (s.reportError e).runs = s.runs := rfl
@[simp] theorem State.reportError_freq (e : CodecError) : (s.reportError e).freq = s.freq := rfl
@[simp] theorem State.reportError_ct (e : CodecError) : (s.reportError e).ct = s.ct := rfl
@[simp] theorem State.reportError_inMem (e : CodecError) : (s.reportError e).inMem = s.inMem := rfl
@[simp] theorem State.reportError_outMem (e : CodecError) : (s.reportError e).outMem = s.outMem := rfl
@[simp] theorem State.reportError_phase (e : CodecError) : (s.reportError e).phase = .idle := rfl
@[simp] theorem State.reportError_latched (e : CodecError) : (s.reportError e).latched = s.latched := rfl
@[simp] theorem State.reportError_inDraw (e : CodecError) : (s.reportError e).inDraw = s.inDraw := rfl
@[simp] theorem State.reportError_outDraw (e : CodecError) : (s.reportError e).outDraw = s.outDraw := rfl
@[simp] theorem State.reportError_draws (e : CodecError) : (s.reportError e).draws = s.draws := rfl
@[simp] theorem State.reportError_inputs (e : CodecError) : (s.reportError e).inputs = s.inputs := rfl
@[simp] theorem State.reportError_responses (e : CodecError) : (s.reportError e).responses = s.responses := rfl

@[simp] theorem State.scrambleOut_cfg : (s.scrambleOut).cfg = s.cfg := rfl
@[simp] theorem State.scrambleOut_ie : (s.scrambleOut).ie = s.ie := rfl
@[simp] theorem State.scrambleOut_cmd : (s.scrambleOut).cmd = s.cmd := rfl
@[simp] theorem State.scrambleOut_status : (s.scrambleOut).status = s.status := rfl
@[simp] theorem State.scrambleOut_errCode : (s.scrambleOut).errCode = s.errCode := rfl
@[simp] theorem State.scrambleOut_faultPos : (s.scrambleOut).faultPos = s.faultPos := rfl
@[simp] theorem State.scrambleOut_inLen : (s.scrambleOut).inLen = s.inLen := rfl
@[simp] theorem State.scrambleOut_outLen : (s.scrambleOut).outLen = s.outLen := rfl
@[simp] theorem State.scrambleOut_symCount : (s.scrambleOut).symCount = s.symCount := rfl
@[simp] theorem State.scrambleOut_bitLen : (s.scrambleOut).bitLen = s.bitLen := rfl
@[simp] theorem State.scrambleOut_workers : (s.scrambleOut).workers = s.workers := rfl
@[simp] theorem State.scrambleOut_tableEntries : (s.scrambleOut).tableEntries = s.tableEntries := rfl
@[simp] theorem State.scrambleOut_runs : (s.scrambleOut).runs = s.runs := rfl
@[simp] theorem State.scrambleOut_freq : (s.scrambleOut).freq = s.freq := rfl
@[simp] theorem State.scrambleOut_ct : (s.scrambleOut).ct = s.ct := rfl
@[simp] theorem State.scrambleOut_inMem : (s.scrambleOut).inMem = s.inMem := rfl
@[simp] theorem State.scrambleOut_outMem : (s.scrambleOut).outMem = [] := rfl
@[simp] theorem State.scrambleOut_phase : (s.scrambleOut).phase = s.phase := rfl
@[simp] theorem State.scrambleOut_latched : (s.scrambleOut).latched = s.latched := rfl
@[simp] theorem State.scrambleOut_inDraw : (s.scrambleOut).inDraw = s.inDraw := rfl
@[simp] theorem State.scrambleOut_outDraw : (s.scrambleOut).outDraw = s.draws := rfl
@[simp] theorem State.scrambleOut_draws : (s.scrambleOut).draws = s.draws + 1 := rfl
@[simp] theorem State.scrambleOut_inputs : (s.scrambleOut).inputs = s.inputs := rfl
@[simp] theorem State.scrambleOut_responses : (s.scrambleOut).responses = s.responses := rfl

@[simp] theorem State.writeOut_cfg (b : List Byte) : (s.writeOut b).cfg = s.cfg := rfl
@[simp] theorem State.writeOut_ie (b : List Byte) : (s.writeOut b).ie = s.ie := rfl
@[simp] theorem State.writeOut_cmd (b : List Byte) : (s.writeOut b).cmd = s.cmd := rfl
@[simp] theorem State.writeOut_status (b : List Byte) : (s.writeOut b).status = s.status := rfl
@[simp] theorem State.writeOut_errCode (b : List Byte) : (s.writeOut b).errCode = s.errCode := rfl
@[simp] theorem State.writeOut_faultPos (b : List Byte) : (s.writeOut b).faultPos = s.faultPos := rfl
@[simp] theorem State.writeOut_inLen (b : List Byte) : (s.writeOut b).inLen = s.inLen := rfl
@[simp] theorem State.writeOut_outLen (b : List Byte) : (s.writeOut b).outLen = BitVec.ofNat 32 b.length := rfl
@[simp] theorem State.writeOut_symCount (b : List Byte) : (s.writeOut b).symCount = s.symCount := rfl
@[simp] theorem State.writeOut_bitLen (b : List Byte) : (s.writeOut b).bitLen = s.bitLen := rfl
@[simp] theorem State.writeOut_workers (b : List Byte) : (s.writeOut b).workers = s.workers := rfl
@[simp] theorem State.writeOut_tableEntries (b : List Byte) : (s.writeOut b).tableEntries = s.tableEntries := rfl
@[simp] theorem State.writeOut_runs (b : List Byte) : (s.writeOut b).runs = s.runs := rfl
@[simp] theorem State.writeOut_freq (b : List Byte) : (s.writeOut b).freq = s.freq := rfl
@[simp] theorem State.writeOut_ct (b : List Byte) : (s.writeOut b).ct = s.ct := rfl
@[simp] theorem State.writeOut_inMem (b : List Byte) : (s.writeOut b).inMem = s.inMem := rfl
@[simp] theorem State.writeOut_outMem (b : List Byte) : (s.writeOut b).outMem = s.outMem.store 0 b := rfl
@[simp] theorem State.writeOut_phase (b : List Byte) : (s.writeOut b).phase = s.phase := rfl
@[simp] theorem State.writeOut_latched (b : List Byte) : (s.writeOut b).latched = s.latched := rfl
@[simp] theorem State.writeOut_inDraw (b : List Byte) : (s.writeOut b).inDraw = s.inDraw := rfl
@[simp] theorem State.writeOut_outDraw (b : List Byte) : (s.writeOut b).outDraw = s.outDraw := rfl
@[simp] theorem State.writeOut_draws (b : List Byte) : (s.writeOut b).draws = s.draws := rfl
@[simp] theorem State.writeOut_inputs (b : List Byte) : (s.writeOut b).inputs = s.inputs := rfl
@[simp] theorem State.writeOut_responses (b : List Byte) : (s.writeOut b).responses = s.responses := rfl

@[simp] theorem State.accept_cfg (v : Word) : (s.accept v).cfg = s.cfg := rfl
@[simp] theorem State.accept_ie (v : Word) : (s.accept v).ie = s.ie := rfl
@[simp] theorem State.accept_cmd (v : Word) : (s.accept v).cmd = v := rfl
@[simp] theorem State.accept_status (v : Word) : (s.accept v).status = s.status.accept := rfl
@[simp] theorem State.accept_errCode (v : Word) : (s.accept v).errCode = s.errCode := rfl
@[simp] theorem State.accept_faultPos (v : Word) : (s.accept v).faultPos = s.faultPos := rfl
@[simp] theorem State.accept_inLen (v : Word) : (s.accept v).inLen = s.inLen := rfl
@[simp] theorem State.accept_outLen (v : Word) : (s.accept v).outLen = s.outLen := rfl
@[simp] theorem State.accept_symCount (v : Word) : (s.accept v).symCount = s.symCount := rfl
@[simp] theorem State.accept_bitLen (v : Word) : (s.accept v).bitLen = s.bitLen := rfl
@[simp] theorem State.accept_workers (v : Word) : (s.accept v).workers = s.workers := rfl
@[simp] theorem State.accept_tableEntries (v : Word) : (s.accept v).tableEntries = s.tableEntries := rfl
@[simp] theorem State.accept_runs (v : Word) : (s.accept v).runs = s.runs := rfl
@[simp] theorem State.accept_freq (v : Word) : (s.accept v).freq = s.freq := rfl
@[simp] theorem State.accept_ct (v : Word) : (s.accept v).ct = s.ct := rfl
@[simp] theorem State.accept_inMem (v : Word) : (s.accept v).inMem = s.inMem := rfl
@[simp] theorem State.accept_outMem (v : Word) : (s.accept v).outMem = s.outMem := rfl
@[simp] theorem State.accept_phase (v : Word) : (s.accept v).phase = .busy := rfl
@[simp] theorem State.accept_latched (v : Word) : (s.accept v).latched = v := rfl
@[simp] theorem State.accept_inDraw (v : Word) : (s.accept v).inDraw = s.inDraw := rfl
@[simp] theorem State.accept_outDraw (v : Word) : (s.accept v).outDraw = s.outDraw := rfl
@[simp] theorem State.accept_draws (v : Word) : (s.accept v).draws = s.draws := rfl
@[simp] theorem State.accept_inputs (v : Word) : (s.accept v).inputs = s.inputs := rfl
@[simp] theorem State.accept_responses (v : Word) : (s.accept v).responses = s.responses := rfl

@[simp] theorem State.acknowledge_cfg (v : Word) : (s.acknowledge v).cfg = s.cfg := rfl
@[simp] theorem State.acknowledge_ie (v : Word) : (s.acknowledge v).ie = s.ie := rfl
@[simp] theorem State.acknowledge_cmd (v : Word) : (s.acknowledge v).cmd = s.cmd := rfl
@[simp] theorem State.acknowledge_status (v : Word) : (s.acknowledge v).status = s.status.w1c v := rfl
@[simp] theorem State.acknowledge_errCode (v : Word) : (s.acknowledge v).errCode = s.errCode := rfl
@[simp] theorem State.acknowledge_faultPos (v : Word) : (s.acknowledge v).faultPos = s.faultPos := rfl
@[simp] theorem State.acknowledge_inLen (v : Word) : (s.acknowledge v).inLen = s.inLen := rfl
@[simp] theorem State.acknowledge_outLen (v : Word) : (s.acknowledge v).outLen = s.outLen := rfl
@[simp] theorem State.acknowledge_symCount (v : Word) : (s.acknowledge v).symCount = s.symCount := rfl
@[simp] theorem State.acknowledge_bitLen (v : Word) : (s.acknowledge v).bitLen = s.bitLen := rfl
@[simp] theorem State.acknowledge_workers (v : Word) : (s.acknowledge v).workers = s.workers := rfl
@[simp] theorem State.acknowledge_tableEntries (v : Word) : (s.acknowledge v).tableEntries = s.tableEntries := rfl
@[simp] theorem State.acknowledge_runs (v : Word) : (s.acknowledge v).runs = s.runs := rfl
@[simp] theorem State.acknowledge_freq (v : Word) : (s.acknowledge v).freq = s.freq := rfl
@[simp] theorem State.acknowledge_ct (v : Word) : (s.acknowledge v).ct = s.ct := rfl
@[simp] theorem State.acknowledge_inMem (v : Word) : (s.acknowledge v).inMem = s.inMem := rfl
@[simp] theorem State.acknowledge_outMem (v : Word) : (s.acknowledge v).outMem = s.outMem := rfl
@[simp] theorem State.acknowledge_phase (v : Word) : (s.acknowledge v).phase = s.phase := rfl
@[simp] theorem State.acknowledge_latched (v : Word) : (s.acknowledge v).latched = s.latched := rfl
@[simp] theorem State.acknowledge_inDraw (v : Word) : (s.acknowledge v).inDraw = s.inDraw := rfl
@[simp] theorem State.acknowledge_outDraw (v : Word) : (s.acknowledge v).outDraw = s.outDraw := rfl
@[simp] theorem State.acknowledge_draws (v : Word) : (s.acknowledge v).draws = s.draws := rfl
@[simp] theorem State.acknowledge_inputs (v : Word) : (s.acknowledge v).inputs = s.inputs := rfl
@[simp] theorem State.acknowledge_responses (v : Word) : (s.acknowledge v).responses = s.responses := rfl

@[simp] theorem State.respond_cfg (r : BusResponse) : (s.respond r).cfg = s.cfg := rfl
@[simp] theorem State.respond_ie (r : BusResponse) : (s.respond r).ie = s.ie := rfl
@[simp] theorem State.respond_cmd (r : BusResponse) : (s.respond r).cmd = s.cmd := rfl
@[simp] theorem State.respond_status (r : BusResponse) : (s.respond r).status = s.status := rfl
@[simp] theorem State.respond_errCode (r : BusResponse) : (s.respond r).errCode = s.errCode := rfl
@[simp] theorem State.respond_faultPos (r : BusResponse) : (s.respond r).faultPos = s.faultPos := rfl
@[simp] theorem State.respond_inLen (r : BusResponse) : (s.respond r).inLen = s.inLen := rfl
@[simp] theorem State.respond_outLen (r : BusResponse) : (s.respond r).outLen = s.outLen := rfl
@[simp] theorem State.respond_symCount (r : BusResponse) : (s.respond r).symCount = s.symCount := rfl
@[simp] theorem State.respond_bitLen (r : BusResponse) : (s.respond r).bitLen = s.bitLen := rfl
@[simp] theorem State.respond_workers (r : BusResponse) : (s.respond r).workers = s.workers := rfl
@[simp] theorem State.respond_tableEntries (r : BusResponse) : (s.respond r).tableEntries = s.tableEntries := rfl
@[simp] theorem State.respond_runs (r : BusResponse) : (s.respond r).runs = s.runs := rfl
@[simp] theorem State.respond_freq (r : BusResponse) : (s.respond r).freq = s.freq := rfl
@[simp] theorem State.respond_ct (r : BusResponse) : (s.respond r).ct = s.ct := rfl
@[simp] theorem State.respond_inMem (r : BusResponse) : (s.respond r).inMem = s.inMem := rfl
@[simp] theorem State.respond_outMem (r : BusResponse) : (s.respond r).outMem = s.outMem := rfl
@[simp] theorem State.respond_phase (r : BusResponse) : (s.respond r).phase = s.phase := rfl
@[simp] theorem State.respond_latched (r : BusResponse) : (s.respond r).latched = s.latched := rfl
@[simp] theorem State.respond_inDraw (r : BusResponse) : (s.respond r).inDraw = s.inDraw := rfl
@[simp] theorem State.respond_outDraw (r : BusResponse) : (s.respond r).outDraw = s.outDraw := rfl
@[simp] theorem State.respond_draws (r : BusResponse) : (s.respond r).draws = s.draws := rfl
@[simp] theorem State.respond_inputs (r : BusResponse) : (s.respond r).inputs = s.inputs := rfl
@[simp] theorem State.respond_responses (r : BusResponse) : (s.respond r).responses = r :: s.responses := rfl

@[simp] theorem State.writeFreq_cfg : (s.writeFreq).cfg = s.cfg := rfl
@[simp] theorem State.writeFreq_ie : (s.writeFreq).ie = s.ie := rfl
@[simp] theorem State.writeFreq_cmd : (s.writeFreq).cmd = s.cmd := rfl
@[simp] theorem State.writeFreq_status : (s.writeFreq).status = s.status := rfl
@[simp] theorem State.writeFreq_errCode : (s.writeFreq).errCode = s.errCode := rfl
@[simp] theorem State.writeFreq_faultPos : (s.writeFreq).faultPos = s.faultPos := rfl
@[simp] theorem State.writeFreq_inLen : (s.writeFreq).inLen = s.inLen := rfl
@[simp] theorem State.writeFreq_outLen : (s.writeFreq).outLen = s.outLen := rfl
@[simp] theorem State.writeFreq_symCount : (s.writeFreq).symCount = s.symCount := rfl
@[simp] theorem State.writeFreq_bitLen : (s.writeFreq).bitLen = s.bitLen := rfl
@[simp] theorem State.writeFreq_workers : (s.writeFreq).workers = s.workers := rfl
@[simp] theorem State.writeFreq_tableEntries : (s.writeFreq).tableEntries = s.tableEntries := rfl
@[simp] theorem State.writeFreq_runs : (s.writeFreq).runs = s.runs := rfl
@[simp] theorem State.writeFreq_freq : (s.writeFreq).freq = countSymbols s.inData := rfl
@[simp] theorem State.writeFreq_ct : (s.writeFreq).ct = s.ct := rfl
@[simp] theorem State.writeFreq_inMem : (s.writeFreq).inMem = s.inMem := rfl
@[simp] theorem State.writeFreq_outMem : (s.writeFreq).outMem = s.outMem := rfl
@[simp] theorem State.writeFreq_phase : (s.writeFreq).phase = s.phase := rfl
@[simp] theorem State.writeFreq_latched : (s.writeFreq).latched = s.latched := rfl
@[simp] theorem State.writeFreq_inDraw : (s.writeFreq).inDraw = s.inDraw := rfl
@[simp] theorem State.writeFreq_outDraw : (s.writeFreq).outDraw = s.outDraw := rfl
@[simp] theorem State.writeFreq_draws : (s.writeFreq).draws = s.draws := rfl
@[simp] theorem State.writeFreq_inputs : (s.writeFreq).inputs = s.inputs := rfl
@[simp] theorem State.writeFreq_responses : (s.writeFreq).responses = s.responses := rfl

@[simp] theorem State.writeTable_cfg : (s.writeTable).cfg = s.cfg := rfl
@[simp] theorem State.writeTable_ie : (s.writeTable).ie = s.ie := rfl
@[simp] theorem State.writeTable_cmd : (s.writeTable).cmd = s.cmd := rfl
@[simp] theorem State.writeTable_status : (s.writeTable).status = s.status := rfl
@[simp] theorem State.writeTable_errCode : (s.writeTable).errCode = s.errCode := rfl
@[simp] theorem State.writeTable_faultPos : (s.writeTable).faultPos = s.faultPos := rfl
@[simp] theorem State.writeTable_inLen : (s.writeTable).inLen = s.inLen := rfl
@[simp] theorem State.writeTable_outLen : (s.writeTable).outLen = s.outLen := rfl
@[simp] theorem State.writeTable_symCount : (s.writeTable).symCount = s.symCount := rfl
@[simp] theorem State.writeTable_bitLen : (s.writeTable).bitLen = s.bitLen := rfl
@[simp] theorem State.writeTable_workers : (s.writeTable).workers = s.workers := rfl
@[simp] theorem State.writeTable_tableEntries : (s.writeTable).tableEntries = BitVec.ofNat 9 (distinctSymbols s.freq) := rfl
@[simp] theorem State.writeTable_runs : (s.writeTable).runs = s.runs := rfl
@[simp] theorem State.writeTable_freq : (s.writeTable).freq = s.freq := rfl
@[simp] theorem State.writeTable_ct : (s.writeTable).ct = tableOf (codesOf s.freq) := rfl
@[simp] theorem State.writeTable_inMem : (s.writeTable).inMem = s.inMem := rfl
@[simp] theorem State.writeTable_outMem : (s.writeTable).outMem = s.outMem := rfl
@[simp] theorem State.writeTable_phase : (s.writeTable).phase = s.phase := rfl
@[simp] theorem State.writeTable_latched : (s.writeTable).latched = s.latched := rfl
@[simp] theorem State.writeTable_inDraw : (s.writeTable).inDraw = s.inDraw := rfl
@[simp] theorem State.writeTable_outDraw : (s.writeTable).outDraw = s.outDraw := rfl
@[simp] theorem State.writeTable_draws : (s.writeTable).draws = s.draws := rfl
@[simp] theorem State.writeTable_inputs : (s.writeTable).inputs = s.inputs := rfl
@[simp] theorem State.writeTable_responses : (s.writeTable).responses = s.responses := rfl

@[simp] theorem State.writePacked_cfg (b : Bits) : (s.writePacked b).cfg = s.cfg := rfl
@[simp] theorem State.writePacked_ie (b : Bits) : (s.writePacked b).ie = s.ie := rfl
@[simp] theorem State.writePacked_cmd (b : Bits) : (s.writePacked b).cmd = s.cmd := rfl
@[simp] theorem State.writePacked_status (b : Bits) : (s.writePacked b).status = s.status := rfl
@[simp] theorem State.writePacked_errCode (b : Bits) : (s.writePacked b).errCode = s.errCode := rfl
@[simp] theorem State.writePacked_faultPos (b : Bits) : (s.writePacked b).faultPos = s.faultPos := rfl
@[simp] theorem State.writePacked_inLen (b : Bits) : (s.writePacked b).inLen = s.inLen := rfl
@[simp] theorem State.writePacked_outLen (b : Bits) : (s.writePacked b).outLen = BitVec.ofNat 32 (packBits b).length := rfl
@[simp] theorem State.writePacked_symCount (b : Bits) : (s.writePacked b).symCount = s.inLen := rfl
@[simp] theorem State.writePacked_bitLen (b : Bits) : (s.writePacked b).bitLen = BitVec.ofNat 32 b.length := rfl
@[simp] theorem State.writePacked_workers (b : Bits) : (s.writePacked b).workers = s.workers := rfl
@[simp] theorem State.writePacked_tableEntries (b : Bits) : (s.writePacked b).tableEntries = s.tableEntries := rfl
@[simp] theorem State.writePacked_runs (b : Bits) : (s.writePacked b).runs = s.runs := rfl
@[simp] theorem State.writePacked_freq (b : Bits) : (s.writePacked b).freq = s.freq := rfl
@[simp] theorem State.writePacked_ct (b : Bits) : (s.writePacked b).ct = s.ct := rfl
@[simp] theorem State.writePacked_inMem (b : Bits) : (s.writePacked b).inMem = s.inMem := rfl
@[simp] theorem State.writePacked_outMem (b : Bits) : (s.writePacked b).outMem = s.outMem.store 0 (packBits b) := rfl
@[simp] theorem State.writePacked_phase (b : Bits) : (s.writePacked b).phase = s.phase := rfl
@[simp] theorem State.writePacked_latched (b : Bits) : (s.writePacked b).latched = s.latched := rfl
@[simp] theorem State.writePacked_inDraw (b : Bits) : (s.writePacked b).inDraw = s.inDraw := rfl
@[simp] theorem State.writePacked_outDraw (b : Bits) : (s.writePacked b).outDraw = s.outDraw := rfl
@[simp] theorem State.writePacked_draws (b : Bits) : (s.writePacked b).draws = s.draws := rfl
@[simp] theorem State.writePacked_inputs (b : Bits) : (s.writePacked b).inputs = s.inputs := rfl
@[simp] theorem State.writePacked_responses (b : Bits) : (s.writePacked b).responses = s.responses := rfl

@[simp] theorem State.writeDecoded_cfg (b : List Byte) (n : Nat) : (s.writeDecoded b n).cfg = s.cfg := rfl
@[simp] theorem State.writeDecoded_ie (b : List Byte) (n : Nat) : (s.writeDecoded b n).ie = s.ie := rfl
@[simp] theorem State.writeDecoded_cmd (b : List Byte) (n : Nat) : (s.writeDecoded b n).cmd = s.cmd := rfl
@[simp] theorem State.writeDecoded_status (b : List Byte) (n : Nat) : (s.writeDecoded b n).status = s.status := rfl
@[simp] theorem State.writeDecoded_errCode (b : List Byte) (n : Nat) : (s.writeDecoded b n).errCode = s.errCode := rfl
@[simp] theorem State.writeDecoded_faultPos (b : List Byte) (n : Nat) : (s.writeDecoded b n).faultPos = s.faultPos := rfl
@[simp] theorem State.writeDecoded_inLen (b : List Byte) (n : Nat) : (s.writeDecoded b n).inLen = s.inLen := rfl
@[simp] theorem State.writeDecoded_outLen (b : List Byte) (n : Nat) : (s.writeDecoded b n).outLen = BitVec.ofNat 32 b.length := rfl
@[simp] theorem State.writeDecoded_symCount (b : List Byte) (n : Nat) : (s.writeDecoded b n).symCount = s.symCount := rfl
@[simp] theorem State.writeDecoded_bitLen (b : List Byte) (n : Nat) : (s.writeDecoded b n).bitLen = BitVec.ofNat 32 n := rfl
@[simp] theorem State.writeDecoded_workers (b : List Byte) (n : Nat) : (s.writeDecoded b n).workers = s.workers := rfl
@[simp] theorem State.writeDecoded_tableEntries (b : List Byte) (n : Nat) : (s.writeDecoded b n).tableEntries = s.tableEntries := rfl
@[simp] theorem State.writeDecoded_runs (b : List Byte) (n : Nat) : (s.writeDecoded b n).runs = s.runs := rfl
@[simp] theorem State.writeDecoded_freq (b : List Byte) (n : Nat) : (s.writeDecoded b n).freq = s.freq := rfl
@[simp] theorem State.writeDecoded_ct (b : List Byte) (n : Nat) : (s.writeDecoded b n).ct = s.ct := rfl
@[simp] theorem State.writeDecoded_inMem (b : List Byte) (n : Nat) : (s.writeDecoded b n).inMem = s.inMem := rfl
@[simp] theorem State.writeDecoded_outMem (b : List Byte) (n : Nat) : (s.writeDecoded b n).outMem = s.outMem.store 0 b := rfl
@[simp] theorem State.writeDecoded_phase (b : List Byte) (n : Nat) : (s.writeDecoded b n).phase = s.phase := rfl
@[simp] theorem State.writeDecoded_latched (b : List Byte) (n : Nat) : (s.writeDecoded b n).latched = s.latched := rfl
@[simp] theorem State.writeDecoded_inDraw (b : List Byte) (n : Nat) : (s.writeDecoded b n).inDraw = s.inDraw := rfl
@[simp] theorem State.writeDecoded_outDraw (b : List Byte) (n : Nat) : (s.writeDecoded b n).outDraw = s.outDraw := rfl
@[simp] theorem State.writeDecoded_draws (b : List Byte) (n : Nat) : (s.writeDecoded b n).draws = s.draws := rfl
@[simp] theorem State.writeDecoded_inputs (b : List Byte) (n : Nat) : (s.writeDecoded b n).inputs = s.inputs := rfl
@[simp] theorem State.writeDecoded_responses (b : List Byte) (n : Nat) : (s.writeDecoded b n).responses = s.responses := rfl

@[simp] theorem State.clearTables_cfg : (s.clearTables).cfg = s.cfg := rfl
@[simp] theorem State.clearTables_ie : (s.clearTables).ie = s.ie := rfl
@[simp] theorem State.clearTables_cmd : (s.clearTables).cmd = s.cmd := rfl
@[simp] theorem State.clearTables_status : (s.clearTables).status = s.status := rfl
@[simp] theorem State.clearTables_errCode : (s.clearTables).errCode = s.errCode := rfl
@[simp] theorem State.clearTables_faultPos : (s.clearTables).faultPos = s.faultPos := rfl
@[simp] theorem State.clearTables_inLen : (s.clearTables).inLen = s.inLen := rfl
@[simp] theorem State.clearTables_outLen : (s.clearTables).outLen = s.outLen := rfl
@[simp] theorem State.clearTables_symCount : (s.clearTables).symCount = s.symCount := rfl
@[simp] theorem State.clearTables_bitLen : (s.clearTables).bitLen = s.bitLen := rfl
@[simp] theorem State.clearTables_workers : (s.clearTables).workers = s.workers := rfl
@[simp] theorem State.clearTables_tableEntries : (s.clearTables).tableEntries = 0 := rfl
@[simp] theorem State.clearTables_runs : (s.clearTables).runs = s.runs := rfl
@[simp] theorem State.clearTables_freq : (s.clearTables).freq = Table.ofFn fun _ => 0 := rfl
@[simp] theorem State.clearTables_ct : (s.clearTables).ct = Table.ofFn fun _ => CtEntry.clear := rfl
@[simp] theorem State.clearTables_inMem : (s.clearTables).inMem = s.inMem := rfl
@[simp] theorem State.clearTables_outMem : (s.clearTables).outMem = s.outMem := rfl
@[simp] theorem State.clearTables_phase : (s.clearTables).phase = s.phase := rfl
@[simp] theorem State.clearTables_latched : (s.clearTables).latched = s.latched := rfl
@[simp] theorem State.clearTables_inDraw : (s.clearTables).inDraw = s.inDraw := rfl
@[simp] theorem State.clearTables_outDraw : (s.clearTables).outDraw = s.outDraw := rfl
@[simp] theorem State.clearTables_draws : (s.clearTables).draws = s.draws := rfl
@[simp] theorem State.clearTables_inputs : (s.clearTables).inputs = s.inputs := rfl
@[simp] theorem State.clearTables_responses : (s.clearTables).responses = s.responses := rfl

end

section
variable (st : Status)

@[simp] theorem Status.complete_busy (e p : Bool) : (st.complete e p).busy = false := rfl
@[simp] theorem Status.complete_done (e p : Bool) : (st.complete e p).done = true := rfl
@[simp] theorem Status.complete_err (e p : Bool) : (st.complete e p).err = e := rfl
@[simp] theorem Status.complete_overrun (e p : Bool) : (st.complete e p).overrun = st.overrun := rfl
@[simp] theorem Status.complete_partialTail (e p : Bool) : (st.complete e p).partialTail = p := rfl
@[simp] theorem Status.accept_busy : st.accept.busy = true := rfl
@[simp] theorem Status.accept_done : st.accept.done = false := rfl
@[simp] theorem Status.accept_err : st.accept.err = false := rfl
@[simp] theorem Status.accept_overrun : st.accept.overrun = st.overrun := rfl
@[simp] theorem Status.accept_partialTail : st.accept.partialTail = st.partialTail := rfl
@[simp] theorem Status.w1c_busy (v : Word) : (st.w1c v).busy = st.busy := rfl
@[simp] theorem Status.w1c_done (v : Word) : (st.w1c v).done = (st.done && !v.getLsbD 1) := rfl
@[simp] theorem Status.w1c_err (v : Word) : (st.w1c v).err = (st.err && !v.getLsbD 2) := rfl
@[simp] theorem Status.w1c_overrun (v : Word) : (st.w1c v).overrun = (st.overrun && !v.getLsbD 3) := rfl
@[simp] theorem Status.w1c_partialTail (v : Word) : (st.w1c v).partialTail = st.partialTail := rfl
@[simp] theorem Status.dropWrite_busy : st.dropWrite.busy = st.busy := rfl
@[simp] theorem Status.dropWrite_done : st.dropWrite.done = st.done := rfl
@[simp] theorem Status.dropWrite_err : st.dropWrite.err = st.err := rfl
@[simp] theorem Status.dropWrite_overrun : st.dropWrite.overrun = true := rfl
@[simp] theorem Status.dropWrite_partialTail : st.dropWrite.partialTail = st.partialTail := rfl

end

end Sys2Proof.Machine
end

