-- ==== Sys2Proof/Laws/Memory.lean ====
section
/-! SUPPORT. The laws of memories and tables: a read after a store, that every operation keeps the
canonical form and the capacity, and that a table is known by its entries. -/

namespace Sys2Proof.Machine

@[simp] theorem Memory.get?_nil (i : Nat) : Memory.get? [] i = none := rfl

theorem Memory.get?_append (m n : Memory) (i : Nat) :
    Memory.get? (m ++ n) i = (Memory.get? m i).or (Memory.get? n i) := by
  induction m with
  | nil => simp
  | cons c rest ih =>
    obtain ⟨j, b⟩ := c
    simp only [List.cons_append, Memory.get?]
    split <;> simp [ih]

/-- A filter on the index hides the other indices and keeps the rest. -/
theorem Memory.get?_filter (m : Memory) (p : Nat → Bool) (i : Nat) :
    Memory.get? (m.filter fun c => p c.1) i = if p i then Memory.get? m i else none := by
  induction m with
  | nil => simp
  | cons c rest ih =>
    obtain ⟨j, b⟩ := c
    by_cases hj : j = i
    · subst hj
      by_cases hp : p j
      · simp [hp, Memory.get?]
      · simp only [List.filter_cons, hp]
        simpa [hp, Memory.get?] using ih
    · by_cases hp : p j
      · simp [hp, Memory.get?, hj, ih]
      · simp only [List.filter_cons, hp]
        simpa [Memory.get?, hj] using ih

theorem Memory.get?_layOut (bytes : List Byte) (i j : Nat) :
    Memory.get? (Memory.layOut i bytes) j = if i ≤ j then bytes[j - i]? else none := by
  induction bytes generalizing i with
  | nil => simp [Memory.layOut]
  | cons b rest ih =>
    simp only [Memory.layOut, Memory.get?]
    by_cases h : i = j
    · subst h; simp
    · rw [if_neg h, ih]
      by_cases hle : i ≤ j
      · have h1 : i + 1 ≤ j := by omega
        have h2 : j - i = (j - (i + 1)) + 1 := by omega
        rw [if_pos h1, if_pos hle, h2, List.getElem?_cons_succ]
      · rw [if_neg hle, if_neg (by omega)]

/-- A read after a store: the stored byte inside the stored range, the old byte outside it. -/
theorem Memory.get?_store (m : Memory) (i : Nat) (bytes : List Byte) (j : Nat) :
    (m.store i bytes).get? j =
      if i ≤ j ∧ j < i + bytes.length then bytes[j - i]? else m.get? j := by
  unfold Memory.store
  rw [Memory.get?_append, Memory.get?_append,
    Memory.get?_filter m (fun n => decide (n < i)),
    Memory.get?_filter m (fun n => decide (i + bytes.length ≤ n)), Memory.get?_layOut]
  by_cases h1 : j < i
  · have h2 : ¬ i ≤ j := by omega
    have h3 : ¬ (i + bytes.length ≤ j) := by omega
    simp [h1, h2, h3]
  · by_cases h2 : j < i + bytes.length
    · have h3 : j - i < bytes.length := by omega
      have h4 : i ≤ j := by omega
      simp [h1, h2, h3, h4]
    · have h3 : i + bytes.length ≤ j := by omega
      have h4 : i ≤ j := by omega
      have h5 : bytes[j - i]? = none := List.getElem?_eq_none (by omega)
      simp [h1, h2, h3, h4, h5]

theorem Memory.read_store_outside (m : Memory) (draw i : Nat) (bytes : List Byte) (j : Nat)
    (h : j < i ∨ i + bytes.length ≤ j) : (m.store i bytes).read draw j = m.read draw j := by
  unfold Memory.read
  rw [Memory.get?_store, if_neg (by omega)]

theorem Memory.read_store_inside (m : Memory) (draw i : Nat) (bytes : List Byte) (k : Nat)
    (h : k < bytes.length) : (m.store i bytes).read draw (i + k) = bytes[k] := by
  unfold Memory.read
  rw [Memory.get?_store, if_pos (by omega)]
  simp [h]

theorem Memory.mem_layOut {c : Host.Cell} {i : Nat} {bytes : List Byte}
    (h : c ∈ Memory.layOut i bytes) : i ≤ c.1 ∧ c.1 < i + bytes.length := by
  induction bytes generalizing i with
  | nil => simp [Memory.layOut] at h
  | cons b rest ih =>
    simp only [Memory.layOut, List.mem_cons] at h
    obtain rfl | h := h
    · simp
    · have := ih h
      simp only [List.length_cons]
      omega

theorem Memory.layOut_wf (i : Nat) (bytes : List Byte) : (Memory.layOut i bytes).wf := by
  induction bytes generalizing i with
  | nil => exact List.Pairwise.nil
  | cons b rest ih =>
    refine List.Pairwise.cons ?_ (ih (i + 1))
    intro c hc
    have := Memory.mem_layOut hc
    simp only
    omega

/-- A store keeps the canonical form. -/
theorem Memory.store_wf {m : Memory} (h : m.wf) (i : Nat) (bytes : List Byte) :
    (m.store i bytes).wf := by
  unfold Memory.wf Memory.store
  rw [List.append_assoc, List.pairwise_append, List.pairwise_append]
  refine ⟨h.filter _, ⟨Memory.layOut_wf i bytes, h.filter _, ?_⟩, ?_⟩
  · intro a ha b hb
    have := Memory.mem_layOut ha
    simp only [List.mem_filter, decide_eq_true_eq] at hb
    omega
  · intro a ha b hb
    simp only [List.mem_filter, decide_eq_true_eq] at ha
    rcases List.mem_append.mp hb with hb | hb
    · have := Memory.mem_layOut hb
      omega
    · simp only [List.mem_filter, decide_eq_true_eq] at hb
      omega

/-- A store inside the capacity keeps every index inside the capacity. -/
theorem Memory.store_within {m : Memory} {n : Nat} (h : m.within n) (i : Nat) (bytes : List Byte)
    (hi : i + bytes.length ≤ n ∨ bytes = []) : (m.store i bytes).within n := by
  intro c hc
  simp only [Memory.store, List.mem_append, List.mem_filter] at hc
  rcases hc with (hc | hc) | hc
  · exact h c hc.1
  · have := Memory.mem_layOut hc
    rcases hi with hi | rfl
    · omega
    · simp at this; omega
  · exact h c hc.1

/-- Storing no byte at index 0 changes nothing. -/
@[simp] theorem Memory.store_zero_nil (m : Memory) : m.store 0 [] = m := by
  simp [Memory.store, Memory.layOut]

theorem Memory.layOut_append (i : Nat) (a b : List Byte) :
    Memory.layOut i (a ++ b) = Memory.layOut i a ++ Memory.layOut (i + a.length) b := by
  induction a generalizing i with
  | nil => simp [Memory.layOut]
  | cons x rest ih =>
    simp only [List.cons_append, Memory.layOut, ih, List.length_cons]
    rw [show i + 1 + rest.length = i + (rest.length + 1) by omega]

/-- Two adjacent stores are one store of the bytes together. -/
theorem Memory.store_store_append (m : Memory) (i : Nat) (a b : List Byte) :
    (m.store i a).store (i + a.length) b = m.store i (a ++ b) := by
  have hlay : ∀ c ∈ Memory.layOut i a, c.1 < i + a.length := fun c hc => (Memory.mem_layOut hc).2
  unfold Memory.store
  simp only [List.filter_append, List.filter_filter, List.length_append, Memory.layOut_append]
  have e1 : (m.filter fun c => decide (c.1 < i + a.length) && decide (c.1 < i)) =
      m.filter fun c => decide (c.1 < i) := by
    refine List.filter_congr fun c _ => ?_
    by_cases h : c.1 < i <;> simp [h]; omega
  have e2 : (Memory.layOut i a).filter (fun c => decide (c.1 < i + a.length)) = Memory.layOut i a :=
    List.filter_eq_self.mpr fun c hc => by simpa using hlay c hc
  have e3 : (m.filter fun c => decide (c.1 < i + a.length) && decide (i + a.length ≤ c.1)) = [] :=
    List.filter_eq_nil_iff.mpr fun c _ => by simp
  have e4 : (m.filter fun c => decide (i + a.length + b.length ≤ c.1) && decide (c.1 < i)) = [] :=
    List.filter_eq_nil_iff.mpr fun c _ => by
      simp only [Bool.and_eq_true, decide_eq_true_eq, not_and]; omega
  have e5 : (Memory.layOut i a).filter (fun c => decide (i + a.length + b.length ≤ c.1)) = [] :=
    List.filter_eq_nil_iff.mpr fun c hc => by
      have := hlay c hc
      simp only [decide_eq_true_eq]; omega
  have e6 : (m.filter fun c => decide (i + a.length + b.length ≤ c.1) && decide (i + a.length ≤ c.1)) =
      m.filter fun c => decide (i + (a.length + b.length) ≤ c.1) := by
    refine List.filter_congr fun c _ => ?_
    by_cases h : i + (a.length + b.length) ≤ c.1
    · have h1 : i + a.length + b.length ≤ c.1 := by omega
      have h2 : i + a.length ≤ c.1 := by omega
      simp [h, h1, h2]
    · have h1 : ¬ i + a.length + b.length ≤ c.1 := by omega
      simp [h, h1]
  rw [e1, e2, e3, e4, e5, e6]
  simp [List.append_assoc]

/-- The four bytes of a word are the bytes whose word it is. -/
theorem wordOfBytes_bytesOfWord (v : Word) :
    wordOfBytes (v.extractLsb' 0 8) (v.extractLsb' 8 8) (v.extractLsb' 16 8) (v.extractLsb' 24 8) = v := by
  unfold wordOfBytes
  refine BitVec.eq_of_getLsbD_eq fun i hi => ?_
  simp only [BitVec.getLsbD_append, BitVec.getLsbD_extractLsb']
  split_ifs with h1 h2 h3
  · simp [h1]
  · simp only [show i - 8 < 8 by omega, decide_true, Bool.true_and]; congr 1; omega
  · simp only [show i - 8 - 8 < 8 by omega, decide_true, Bool.true_and]; congr 1; omega
  · simp only [show i - 8 - 8 - 8 < 8 by omega, decide_true, Bool.true_and]; congr 1; omega

theorem mem_allSymbols (b : Byte) : b ∈ allSymbols := by
  simp only [allSymbols, List.mem_map, List.mem_range]
  exact ⟨b.toNat, b.isLt, by simp⟩

theorem allSymbols_getElem (i : Nat) (h : i < allSymbols.length) :
    allSymbols[i] = BitVec.ofNat 8 i := by simp [allSymbols]

theorem allSymbols_nodup : allSymbols.Nodup := by
  refine List.Nodup.map_on ?_ List.nodup_range
  intro a ha b hb h
  simp only [List.mem_range] at ha hb
  have := congrArg BitVec.toNat h
  simpa [BitVec.toNat_ofNat, Nat.mod_eq_of_lt ha, Nat.mod_eq_of_lt hb] using this

/-- The symbols stand in strictly ascending order. -/
theorem allSymbols_ascending : allSymbols.Pairwise fun a b => a.toNat < b.toNat := by
  rw [List.pairwise_iff_getElem]
  intro i j hi hj hij
  rw [allSymbols_getElem, allSymbols_getElem]
  rw [allSymbols_length] at hi hj
  simp [BitVec.toNat_ofNat, Nat.mod_eq_of_lt hi, Nat.mod_eq_of_lt hj, hij]

section
variable {α : Type}

@[simp] theorem Table.get_ofFn (f : Byte → α) (s : Byte) : (Table.ofFn f).get s = f s := by
  have h : s.toNat < allSymbols.length := by rw [allSymbols_length]; exact s.isLt
  simp [Table.get, Table.ofFn, allSymbols_getElem]

@[simp] theorem Table.get_set_self (t : Table α) (s : Byte) (x : α) : (t.set s x).get s = x := by
  simp [Table.get, Table.set]

theorem Table.get_set_ne (t : Table α) {s u : Byte} (x : α) (h : s ≠ u) : (t.set s x).get u = t.get u := by
  have : s.toNat ≠ u.toNat := fun e => h (BitVec.eq_of_toNat_eq e)
  simp [Table.get, Table.set, Vector.getElem_set_ne, this]

@[simp] theorem Table.get_replicate (x : α) (s : Byte) : Table.get (Vector.replicate 256 x) s = x := by
  simp [Table.get]

/-- A table is known by its entries. -/
theorem Table.ext {t u : Table α} (h : ∀ s, t.get s = u.get s) : t = u := by
  refine Vector.ext fun i hi => ?_
  have := h (BitVec.ofNat 8 i)
  simpa [Table.get, Nat.mod_eq_of_lt hi] using this

theorem Table.entries_eq (t : Table α) : t.entries = allSymbols.map fun s => (s, t.get s) := by
  refine List.ext_getElem (by simp [Table.entries, allSymbols_length]) fun i h1 h2 => ?_
  have hi : i < 256 := by simpa [allSymbols_length] using h2
  simp [Table.entries, Table.get, allSymbols_getElem, Nat.mod_eq_of_lt hi]

theorem Table.mem_entries {t : Table α} {e : Byte × α} : e ∈ t.entries ↔ t.get e.1 = e.2 := by
  rw [Table.entries_eq, List.mem_map]
  constructor
  · rintro ⟨s, -, rfl⟩; rfl
  · intro h; exact ⟨e.1, mem_allSymbols _, by rw [h]⟩

theorem Table.length_entries (t : Table α) : t.entries.length = 256 := by
  rw [Table.entries_eq, List.length_map, allSymbols_length]

end

/-- TABLE_ENTRIES never exceeds 256 (10_state R46). -/
theorem distinctSymbols_le (f : Table Word) : distinctSymbols f ≤ 256 := by
  have := List.countP_le_length (p := fun e : Byte × Word => e.2 != 0) (l := f.entries)
  rwa [Table.length_entries] at this

theorem distinctSymbols_eq (f : Table Word) :
    distinctSymbols f = allSymbols.countP fun b => f.get b != 0 := by
  rw [distinctSymbols, Table.entries_eq, List.countP_map]; rfl

theorem distinctSymbols_eq_zero (f : Table Word) : distinctSymbols f = 0 ↔ ∀ b, f.get b = 0 := by
  rw [distinctSymbols_eq, List.countP_eq_zero]
  exact ⟨fun h b => by simpa using h b (mem_allSymbols b), fun h b _ => by simp [h b]⟩

theorem validEntries_eq_zero (ct : Table CtEntry) :
    validEntries ct = 0 ↔ ∀ b, (ct.get b).valid = false := by
  rw [validEntries, List.countP_eq_zero]
  constructor
  · intro h b
    have := h (b, ct.get b) (Table.mem_entries.mpr rfl)
    simpa using this
  · intro h e he
    rw [← Table.mem_entries.mp he, h]; simp

section
variable (s : State)

theorem State.inData_length : s.inData.length = s.inLen.toNat := by simp [State.inData]

theorem State.outData_length (n : Nat) : (s.outData n).length = n := by simp [State.outData]

/-- A store at index 0 of OUT: the bytes stored are read back, and the others are as before. -/
theorem State.outByte_writeOut (b : List Byte) (i : Nat) :
    (s.writeOut b).outByte i = if h : i < b.length then b[i] else s.outByte i := by
  unfold State.outByte
  split
  · rename_i h
    simpa using Memory.read_store_inside s.outMem s.outDraw 0 b i h
  · rename_i h
    exact Memory.read_store_outside s.outMem s.outDraw 0 b i (.inr (by omega))

end

theorem outData_of_store {t : State} {m : Memory} {b : List Byte}
    (h : t.outMem = m.store 0 b) : t.outData b.length = b := by
  refine List.ext_getElem (by simp [State.outData]) fun i h1 h2 => ?_
  simp only [State.outData, List.getElem_map, List.getElem_range, State.outByte, h]
  simpa using Memory.read_store_inside m t.outDraw 0 b i h2

/-- What writing a result to OUT gives, said once for every command that does so. -/
theorem outHolds_of_store {s t : State} {b : List Byte} (hm : t.outMem = s.outMem.store 0 b)
    (hd : t.outDraw = s.outDraw) (hl : t.outLen.toNat = b.length) : OutHolds s t b where
  held := outData_of_store hm
  outLen := hl
  above i hi := by
    unfold State.outByte
    rw [hm, hd]
    exact Memory.read_store_outside _ _ _ _ _ (.inr (by omega))

end Sys2Proof.Machine
end

