-- ==== Sys2Proof/Laws/Bits.lean ====
section
/-! SUPPORT. The laws of bit-strings: a code read back from its CT entry, and a packed stream read back
from its bytes. -/

namespace Sys2Proof.Machine

@[simp] theorem bitsValue_nil : bitsValue [] = 0 := rfl

theorem bitsValue_concat (b : Bits) (x : Bool) : bitsValue (b ++ [x]) = 2 * bitsValue b + x.toNat := by
  simp [bitsValue, List.foldl_append]

theorem bitsValue_lt (b : Bits) : bitsValue b < 2 ^ b.length := by
  induction b using List.reverseRecOn with
  | nil => simp
  | append_singleton b x ih =>
    rw [bitsValue_concat, List.length_append, List.length_singleton, Nat.pow_succ]
    have : x.toNat ≤ 1 := Bool.toNat_le x
    omega

/-- Bit `k` of the number is the bit `k` places from the right. -/
theorem bitsValue_testBit (b : Bits) (k : Nat) (h : k < b.length) :
    (bitsValue b).testBit k = b[b.length - 1 - k] := by
  induction b using List.reverseRecOn generalizing k with
  | nil => simp at h
  | append_singleton b x ih =>
    simp only [List.length_append, List.length_singleton] at h
    rw [bitsValue_concat]
    cases k with
    | zero =>
      rw [List.getElem_append_right (by simp)]
      cases x <;> simp [Nat.testBit_zero, Nat.add_mod]
    | succ k =>
      have hk : k < b.length := by omega
      have hx : (2 * bitsValue b + x.toNat) / 2 = bitsValue b := by
        have : x.toNat ≤ 1 := Bool.toNat_le x
        omega
      rw [Nat.testBit_succ, hx, ih k hk, List.getElem_append_left (by simp; omega)]
      simp only [List.length_append, List.length_singleton]
      congr 1
      omega

@[simp] theorem CtEntry.length_code (e : CtEntry) : e.code.length = e.len.toNat := by
  simp [CtEntry.code]

theorem CtEntry.code_clear : CtEntry.clear.code = [] := by simp [CtEntry.code, CtEntry.clear]

@[simp] theorem CtEntry.valid_ofCode (c : Bits) : (CtEntry.ofCode c).valid = true := rfl

@[simp] theorem CtEntry.valid_clear : CtEntry.clear.valid = false := rfl

/-- A code of at most 255 bits is read back from the entry written for it (10_state R51). -/
theorem CtEntry.code_ofCode (c : Bits) (h : c.length ≤ 255) : (CtEntry.ofCode c).code = c := by
  have hlen : (CtEntry.ofCode c).len.toNat = c.length := by
    simp only [CtEntry.ofCode, BitVec.toNat_ofNat]
    omega
  refine List.ext_getElem (by rw [CtEntry.length_code, hlen]) fun i h1 h2 => ?_
  simp only [CtEntry.code, List.getElem_map, List.getElem_range, hlen]
  have hi : c.length - 1 - i < 255 := by omega
  simp only [CtEntry.ofCode, BitVec.getLsbD_ofNat, hi, decide_true, Bool.true_and]
  rw [bitsValue_testBit c _ (by omega)]
  congr 1
  omega

/-- Bits V[254:LEN] of a written entry are zero (10_state R51). -/
theorem CtEntry.ofCode_high (c : Bits) (k : Nat) (h : c.length ≤ k) :
    (CtEntry.ofCode c).v.getLsbD k = false := by
  simp only [CtEntry.ofCode, BitVec.getLsbD_ofNat, Bool.and_eq_false_imp]
  intro _
  exact Nat.testBit_lt_two_pow (Nat.lt_of_lt_of_le (bitsValue_lt c) (Nat.pow_le_pow_right (by omega) h))

/-- Bit 7 − t of a packed byte is its t-th stream bit (30_encoding R141). -/
theorem byteOfBits_getLsbD (b : Bits) (k : Nat) (h : k < 8) :
    (byteOfBits b).getLsbD k = b.getD (7 - k) false := by
  have hlen : ((List.range 8).map fun t => b.getD t false).length = 8 := by simp
  simp only [byteOfBits, BitVec.getLsbD_ofNat, h, decide_true, Bool.true_and]
  rw [bitsValue_testBit _ _ (by rw [hlen]; exact h)]
  simp only [List.getElem_map, List.getElem_range, hlen]

@[simp] theorem length_bitsOfByte (b : Byte) : (bitsOfByte b).length = 8 := by simp [bitsOfByte]

theorem bitsOfByte_byteOfBits (b : Bits) :
    bitsOfByte (byteOfBits b) = (List.range 8).map fun t => b.getD t false := by
  refine List.map_congr_left fun t ht => ?_
  rw [List.mem_range] at ht
  rw [byteOfBits_getLsbD b _ (by omega)]
  congr 1
  omega

@[simp] theorem length_packCount (m : Nat) (b : Bits) : (packCount m b).length = m := by
  induction m generalizing b with
  | zero => rfl
  | succ m ih => simp [packCount, ih]

/-- OUT_LEN of a packed stream is ⌈len/8⌉ (30_encoding R141). -/
@[simp] theorem length_packBits (b : Bits) : (packBits b).length = (b.length + 7) / 8 := by
  simp [packBits]

theorem packCount_getLsbD (m : Nat) (b : Bits) (j k : Nat) (hj : j < m) (hk : k < 8) :
    ((packCount m b)[j]'(by simpa using hj)).getLsbD k = b.getD (8 * j + (7 - k)) false := by
  induction m generalizing b j with
  | zero => omega
  | succ m ih =>
    cases j with
    | zero =>
      simp only [packCount, List.getElem_cons_zero]
      rw [byteOfBits_getLsbD _ _ hk, List.getD_eq_getElem?_getD, List.getD_eq_getElem?_getD,
        List.getElem?_take_of_lt (by omega)]
      simp
    | succ j =>
      simp only [packCount, List.getElem_cons_succ]
      rw [ih (b.drop 8) j (by omega), List.getD_eq_getElem?_getD, List.getD_eq_getElem?_getD,
        List.getElem?_drop]
      congr 2
      omega

/-- Bit b[k] of a stream lands in byte k div 8 at bit 7 − (k mod 8), and the padding is zero
(30_encoding R141). -/
theorem packBits_bit (b : Bits) (k : Nat) (h : k / 8 < (packBits b).length) :
    ((packBits b)[k / 8]).getLsbD (7 - k % 8) = b.getD k false := by
  rw [length_packBits] at h
  have := packCount_getLsbD ((b.length + 7) / 8) b (k / 8) (7 - k % 8) h (by omega)
  simp only [packBits]
  rw [this]
  congr 1
  omega

@[simp] theorem length_unpackBits (bytes : List Byte) : (unpackBits bytes).length = 8 * bytes.length := by
  induction bytes with
  | nil => rfl
  | cons b rest ih =>
    simp only [unpackBits, List.flatMap_cons, List.length_append, length_bitsOfByte, List.length_cons]
    rw [show (List.flatMap bitsOfByte rest) = unpackBits rest from rfl, ih]
    omega

/-- `bitAt(B, k)` (30_encoding R142). -/
theorem unpackBits_getElem (bytes : List Byte) (k : Nat) (h : k < (unpackBits bytes).length) :
    (unpackBits bytes)[k] =
      (bytes[k / 8]'(by rw [length_unpackBits] at h; omega)).getLsbD (7 - k % 8) := by
  induction bytes generalizing k with
  | nil => simp at h
  | cons b rest ih =>
    have hsplit : unpackBits (b :: rest) = bitsOfByte b ++ unpackBits rest := rfl
    simp only [hsplit]
    by_cases hk : k < 8
    · rw [List.getElem_append_left (by simpa using hk)]
      simp only [bitsOfByte, List.getElem_map, List.getElem_range, Nat.div_eq_of_lt hk,
        Nat.mod_eq_of_lt hk, List.getElem_cons_zero]
    · rw [List.getElem_append_right (by simpa using hk)]
      simp only [length_bitsOfByte]
      rw [ih]
      have h1 : k / 8 = (k - 8) / 8 + 1 := by omega
      have h2 : (k - 8) % 8 = k % 8 := by omega
      simp only [h1, h2, List.getElem_cons_succ]

/-- Reading a packed stream back gives it with its zero padding (30_encoding R142). -/
theorem unpackBits_packBits (b : Bits) :
    unpackBits (packBits b) = b ++ List.replicate (8 * ((b.length + 7) / 8) - b.length) false := by
  refine List.ext_getElem (by simp; omega) fun k h1 h2 => ?_
  have hk : k / 8 < (packBits b).length := by
    rw [length_unpackBits] at h1; omega
  rw [unpackBits_getElem, packBits_bit b k hk, List.getD_eq_getElem?_getD]
  by_cases h : k < b.length
  · rw [List.getElem_append_left h]; simp [h]
  · rw [List.getElem_append_right (by omega)]; simp [h]

end Sys2Proof.Machine
end

