-- ==== Sys2Proof/Laws/HuffmanTree.lean ====
section
/-! SUPPORT. The laws of the tree builder and of the codes: the queue is a sorted list, the merging loop
is the spec's (40_huffman_encode R182), and the codes are complete and prefix-free (R185). -/

namespace Sys2Proof.Machine

/-! ### The queue -/

theorem Queued.before_iff (x y : Queued) :
    x.before y = true ↔
      x.node.weight < y.node.weight ∨ (x.node.weight = y.node.weight ∧ x.key < y.key) := by
  simp [Queued.before]

theorem Queued.before_trans {x y z : Queued} (h1 : x.before y = true) (h2 : y.before z = true) :
    x.before z = true := by
  rw [Queued.before_iff] at *
  omega

theorem Queued.before_of_not {x y : Queued} (h : ¬ x.before y = true) (hk : x.key ≠ y.key) :
    y.before x = true := by
  rw [Queued.before_iff] at *
  omega

/-- A queue in ascending order. -/
abbrev Ascending (q : List Queued) : Prop := q.Pairwise fun x y => x.before y = true

theorem enqueue_perm (x : Queued) (q : List Queued) : (enqueue x q).Perm (x :: q) := by
  induction q with
  | nil => exact List.Perm.refl _
  | cons y rest ih =>
    simp only [enqueue]
    split
    · exact List.Perm.refl _
    · exact (ih.cons y).trans (List.Perm.swap x y rest)

theorem enqueue_ascending {x : Queued} {q : List Queued} (h : Ascending q)
    (hk : ∀ y ∈ q, x.key ≠ y.key) : Ascending (enqueue x q) := by
  induction q with
  | nil => exact List.pairwise_singleton _ _
  | cons y rest ih =>
    replace h := List.pairwise_cons.mp h
    simp only [enqueue]
    split
    · rename_i hxy
      refine List.pairwise_cons.mpr ⟨fun z hz => ?_, List.pairwise_cons.mpr h⟩
      rcases List.mem_cons.mp hz with rfl | hz
      · exact hxy
      · exact Queued.before_trans hxy (h.1 z hz)
    · rename_i hxy
      refine List.pairwise_cons.mpr ⟨fun z hz => ?_, ih h.2 fun z hz => hk z (List.mem_cons_of_mem _ hz)⟩
      rcases List.mem_cons.mp ((enqueue_perm x rest).mem_iff.mp hz) with rfl | hz
      · exact Queued.before_of_not hxy (hk y List.mem_cons_self)
      · exact h.1 z hz

/-- The queue a list of nodes with distinct keys starts as: sorted, with the same nodes. -/
theorem sortQueue_spec (q : List Queued) (h : (q.map Queued.key).Nodup) :
    Ascending (q.foldr enqueue []) ∧ (q.foldr enqueue []).Perm q := by
  induction q with
  | nil => exact ⟨List.Pairwise.nil, List.Perm.refl _⟩
  | cons x rest ih =>
    rw [List.map_cons, List.nodup_cons] at h
    obtain ⟨hs, hp⟩ := ih h.2
    refine ⟨enqueue_ascending hs fun y hy hxy => ?_, (enqueue_perm x _).trans (hp.cons x)⟩
    exact h.1 (List.mem_map.mpr ⟨y, hp.mem_iff.mp hy, hxy.symm⟩)

theorem BuildsTo.of_perm {k : Nat} {q q' : List Queued} {root : Node} (h : BuildsTo k q root)
    (hp : q'.Perm q) : BuildsTo k q' root := by
  cases h with
  | done _ x => rw [List.perm_singleton.mp hp]; exact .done k x
  | merge _ _ rest x y _ hq hx hy hb => exact .merge k q' rest x y root (hp.trans hq) hx hy hb

/-- The merging loop ends with one node, the root of the spec's merging (40_huffman_encode R182). -/
theorem mergeQueue_spec (fuel : Nat) : ∀ (k : Nat) (q : List Queued), q ≠ [] → q.length ≤ fuel + 1 →
    Ascending q → (∀ x ∈ q, x.key < 256 + k) →
    ∃ r, mergeQueue fuel k q = [r] ∧ BuildsTo k q r.node := by
  induction fuel with
  | zero =>
    intro k q hne hlen _ _
    match q, hne with
    | [x], _ => exact ⟨x, rfl, .done k x⟩
    | _ :: _ :: _, _ => simp at hlen
  | succ fuel ih =>
    intro k q hne hlen hs hk
    match q, hne with
    | [x], _ => exact ⟨x, rfl, .done k x⟩
    | x :: y :: rest, _ =>
      simp only [mergeQueue]
      generalize hn : (⟨256 + k, .internal (x.node.weight + y.node.weight) x.node y.node⟩ : Queued) = n
      replace hs := List.pairwise_cons.mp hs
      have hs2 := List.pairwise_cons.mp hs.2
      have hkey : ∀ z ∈ rest, n.key ≠ z.key := fun z hz => by
        have := hk z (by simp [hz])
        rw [← hn]; simp only; omega
      have hp := enqueue_perm n rest
      have hne' : enqueue n rest ≠ [] := fun h => by rw [h] at hp; simp at hp
      have hlen' : (enqueue n rest).length ≤ fuel + 1 := by
        rw [hp.length_eq]; simp at hlen ⊢; omega
      have hk' : ∀ z ∈ enqueue n rest, z.key < 256 + (k + 1) := fun z hz => by
        rcases List.mem_cons.mp (hp.mem_iff.mp hz) with rfl | hz
        · rw [← hn]; simp only; omega
        · have := hk z (by simp [hz]); omega
      obtain ⟨r, hr, hb⟩ := ih (k + 1) _ hne' hlen' (enqueue_ascending hs2.2 hkey) hk'
      refine ⟨r, hr, .merge k _ rest x y _ (List.Perm.refl _) hs.1 hs2.1 ?_⟩
      rw [hn]
      exact hb.of_perm hp.symm

theorem mem_leavesOf {f : Table Word} {q : Queued} :
    q ∈ leavesOf f ↔ ∃ s, f.get s ≠ 0 ∧ q = ⟨s.toNat, .leaf s (f.get s).toNat⟩ := by
  simp only [leavesOf, List.mem_map, List.mem_filter, Table.mem_entries]
  constructor
  · rintro ⟨⟨s, w⟩, ⟨hw, h⟩, rfl⟩
    simp only at hw
    subst hw
    exact ⟨s, by simpa using h, rfl⟩
  · rintro ⟨s, h, rfl⟩
    exact ⟨(s, f.get s), ⟨rfl, by simpa using h⟩, rfl⟩

theorem leavesOf_eq (f : Table Word) :
    leavesOf f = (allSymbols.filter fun s => f.get s != 0).map
      fun s => ⟨s.toNat, .leaf s (f.get s).toNat⟩ := by
  rw [leavesOf, Table.entries_eq, List.filter_map, List.map_map]
  rfl

theorem leavesOf_keys_nodup (f : Table Word) : ((leavesOf f).map Queued.key).Nodup := by
  rw [leavesOf_eq, List.map_map]
  refine List.Nodup.map_on ?_ (allSymbols_nodup.filter _)
  intro a _ b _ h
  exact BitVec.eq_of_toNat_eq h

/-- `buildTree` is the spec's BuildTree on every table with a nonzero entry (40_huffman_encode R182). -/
theorem buildTree_spec (f : Table Word) (h : ∃ s, f.get s ≠ 0) :
    ∃ root, buildTree f = some root ∧ BuildsTo 0 (leavesOf f) root := by
  obtain ⟨hs, hp⟩ := sortQueue_spec (leavesOf f) (leavesOf_keys_nodup f)
  have hne : (leavesOf f).foldr enqueue [] ≠ [] := by
    obtain ⟨s, hs⟩ := h
    intro he
    rw [he] at hp
    have := hp.mem_iff.mpr (mem_leavesOf.mpr ⟨s, hs, rfl⟩)
    simp at this
  have hk : ∀ x ∈ (leavesOf f).foldr enqueue [], x.key < 256 + 0 := fun x hx => by
    obtain ⟨s, -, rfl⟩ := mem_leavesOf.mp (hp.mem_iff.mp hx)
    exact s.isLt
  obtain ⟨r, hr, hb⟩ := mergeQueue_spec (leavesOf f).length 0 _ hne (by rw [hp.length_eq]; omega) hs hk
  exact ⟨r.node, by simp [buildTree, hr], hb.of_perm hp.symm⟩

/-- With every entry zero there is no tree. -/
theorem buildTree_none (f : Table Word) (h : ∀ s, f.get s = 0) : buildTree f = none := by
  have : leavesOf f = [] := by
    refine List.eq_nil_iff_forall_not_mem.mpr fun q hq => ?_
    obtain ⟨s, hs, -⟩ := mem_leavesOf.mp hq
    exact hs (h s)
  simp [buildTree, this, mergeQueue]

/-! ### The codes -/

/-- The symbols of a node's leaves, left to right. -/
def Node.symbols : Node → List Byte
  | .leaf s _ => [s]
  | .internal _ l r => l.symbols ++ r.symbols

theorem Node.symbols_ne_nil (n : Node) : n.symbols ≠ [] := by
  induction n with
  | leaf => simp [Node.symbols]
  | internal _ l r hl _ => simp [Node.symbols, hl]

theorem Node.symbols_length_pos (n : Node) : 0 < n.symbols.length :=
  List.length_pos_iff.mpr n.symbols_ne_nil

theorem Node.codes_fst (n : Node) (p : Bits) : (n.codes p).map Prod.fst = n.symbols := by
  induction n generalizing p with
  | leaf => rfl
  | internal _ l r hl hr => simp [Node.codes, Node.symbols, hl, hr]

/-- The merging keeps every leaf. -/
theorem BuildsTo.symbols_perm {k : Nat} {q : List Queued} {root : Node} (h : BuildsTo k q root) :
    root.symbols.Perm (q.flatMap fun x => x.node.symbols) := by
  induction h with
  | done k x => simp
  | merge k q rest x y root hq _ _ _ ih =>
    have h1 : (q.flatMap fun x => x.node.symbols).Perm
        ((x :: y :: rest).flatMap fun x => x.node.symbols) := hq.flatMap_right _
    refine ih.trans (List.Perm.trans ?_ h1.symm)
    simp [Node.symbols, List.append_assoc]

theorem Node.mem_codes_length {n : Node} {p : Bits} {e : Byte × Bits} (h : e ∈ n.codes p) :
    e.2.length < p.length + n.symbols.length := by
  induction n generalizing p with
  | leaf s w =>
    simp only [Node.codes, List.mem_singleton] at h
    simp [h, Node.symbols]
  | internal _ l r hl hr =>
    have := l.symbols_length_pos
    have := r.symbols_length_pos
    simp only [Node.codes, List.mem_append] at h
    simp only [Node.symbols, List.length_append]
    rcases h with h | h
    · have := hl h; simp at this; omega
    · have := hr h; simp at this; omega

theorem Node.mem_codes_start {n : Node} {p : Bits} {e : Byte × Bits} (h : e ∈ n.codes p) :
    p <+: e.2 := by
  induction n generalizing p with
  | leaf s w =>
    simp only [Node.codes, List.mem_singleton] at h
    rw [h]
  | internal _ l r hl hr =>
    simp only [Node.codes, List.mem_append] at h
    rcases h with h | h
    · exact (List.prefix_append p _).trans (hl h)
    · exact (List.prefix_append p _).trans (hr h)

theorem not_prefix_of_split {p c d : Bits} {x : Bool} (hc : p ++ [x] <+: c) (hd : p ++ [!x] <+: d) :
    ¬ c <+: d := by
  intro h
  have h1 : p ++ [x] <+: d := hc.trans h
  have h2 : p ++ [x] <+: p ++ [!x] := List.prefix_of_prefix_length_le h1 hd (by simp)
  have h3 : [x] <+: [!x] := (List.prefix_append_right_inj p).mp h2
  cases x <;> simp at h3

/-- No code of a tree is a prefix of another (40_huffman_encode R185 item 2). -/
theorem Node.codes_prefixFree (n : Node) (p : Bits) :
    (n.codes p).Pairwise fun x y => ¬ x.2 <+: y.2 ∧ ¬ y.2 <+: x.2 := by
  induction n generalizing p with
  | leaf => exact List.pairwise_singleton _ _
  | internal _ l r hl hr =>
    refine List.pairwise_append.mpr ⟨hl _, hr _, fun x hx y hy => ?_⟩
    have h1 := Node.mem_codes_start hx
    have h2 := Node.mem_codes_start hy
    exact ⟨not_prefix_of_split (x := false) h1 h2, not_prefix_of_split (x := true) h2 h1⟩

/-- The codes of a tree fill the code space: Σ 2^(−len) = 1 (40_huffman_encode R185 item 3). -/
theorem Node.codes_complete (n : Node) (p : Bits) (d : Nat) (h : p.length + n.symbols.length ≤ d + 1) :
    ((n.codes p).map fun e => 2 ^ (d - e.2.length)).sum = 2 ^ (d - p.length) := by
  induction n generalizing p with
  | leaf => simp [Node.codes]
  | internal _ l r hl hr =>
    have := l.symbols_length_pos
    have := r.symbols_length_pos
    simp only [Node.symbols, List.length_append] at h
    have e1 := hl (p ++ [false]) (by simp; omega)
    have e2 := hr (p ++ [true]) (by simp; omega)
    simp only [Node.codes, List.map_append, List.sum_append, e1, e2, List.length_append,
      List.length_singleton]
    have : d - p.length = (d - (p.length + 1)) + 1 := by omega
    rw [this, Nat.pow_succ]
    omega

/-- The leftmost leaf has a code of zeros only. -/
theorem Node.leftmost (n : Node) (p : Bits) :
    ∃ z l, (z, p ++ List.replicate l false) ∈ n.codes p ∧ (l = 0 → n.symbols.length = 1) := by
  induction n generalizing p with
  | leaf s w => exact ⟨s, 0, by simp [Node.codes], fun _ => rfl⟩
  | internal w l r hl _ =>
    obtain ⟨z, k, hz, -⟩ := hl (p ++ [false])
    refine ⟨z, k + 1, ?_, by omega⟩
    simp only [Node.codes, List.mem_append]
    left
    rw [List.append_assoc] at hz
    simpa [List.replicate_succ] using hz

theorem codeFor_eq_some {codes : List (Byte × Bits)} (h : (codes.map Prod.fst).Nodup) {s : Byte}
    {c : Bits} : codeFor s codes = some c ↔ (s, c) ∈ codes := by
  induction codes with
  | nil => simp [codeFor]
  | cons e rest ih =>
    obtain ⟨t, d⟩ := e
    rw [List.map_cons, List.nodup_cons] at h
    simp only [codeFor, List.mem_cons, Prod.mk.injEq]
    split
    · rename_i hts
      subst hts
      constructor
      · intro he; left; simpa [eq_comm] using he
      · rintro (⟨-, rfl⟩ | hm)
        · rfl
        · exact absurd (List.mem_map.mpr ⟨_, hm, rfl⟩) h.1
    · rename_i hts
      rw [ih h.2]
      constructor
      · exact Or.inr
      · rintro (⟨rfl, -⟩ | hm)
        · exact absurd rfl hts
        · exact hm

theorem codeFor_eq_none {codes : List (Byte × Bits)} {s : Byte} :
    codeFor s codes = none ↔ s ∉ codes.map Prod.fst := by
  induction codes with
  | nil => simp [codeFor]
  | cons e rest ih =>
    obtain ⟨t, d⟩ := e
    simp only [codeFor, List.map_cons, List.mem_cons]
    split
    · rename_i hts; simp [hts]
    · rename_i hts
      rw [ih]
      simp only [not_or]
      exact ⟨fun h => ⟨fun e => hts e.symm, h⟩, fun h => h.2⟩

/-- The leaves of the tree are the symbols with a nonzero count, each once. -/
theorem buildTree_symbols {f : Table Word} {root : Node} (h : buildTree f = some root) :
    root.symbols.Perm (allSymbols.filter fun s => f.get s != 0) := by
  by_cases hne : ∃ s, f.get s ≠ 0
  · obtain ⟨r, hr, hb⟩ := buildTree_spec f hne
    rw [h] at hr
    cases hr
    have := hb.symbols_perm
    rw [leavesOf_eq, List.flatMap_map] at this
    simpa [Node.symbols, List.flatMap_singleton'] using this
  · rw [buildTree_none f (by simpa using hne)] at h
    exact absurd h (by simp)

theorem buildTree_symbols_nodup {f : Table Word} {root : Node} (h : buildTree f = some root) :
    root.symbols.Nodup :=
  (buildTree_symbols h).nodup_iff.mpr (allSymbols_nodup.filter _)

theorem buildTree_symbols_length {f : Table Word} {root : Node} (h : buildTree f = some root) :
    root.symbols.length = distinctSymbols f := by
  rw [(buildTree_symbols h).length_eq, distinctSymbols_eq, List.countP_eq_length_filter]

/-- What HUF_BUILD writes, entry by entry: the tree's code where there is one, a clear entry elsewhere,
and every code has at most 255 bits (40_huffman_encode R185, R186). -/
theorem tableOf_spec {f : Table Word} {root : Node} (h : buildTree f = some root) (b : Byte) :
    (∃ c, (b, c) ∈ root.codes [] ∧ c.length ≤ 255 ∧
        (tableOf (codesOf f)).get b = CtEntry.ofCode c ∧ f.get b ≠ 0) ∨
      ((∀ c, (b, c) ∉ root.codes []) ∧ (tableOf (codesOf f)).get b = CtEntry.clear ∧ f.get b = 0) := by
  have hcodes : codesOf f = root.codes [] := by simp [codesOf, h]
  have hfst := root.codes_fst []
  have hnd : ((root.codes []).map Prod.fst).Nodup := by rw [hfst]; exact buildTree_symbols_nodup h
  have hmem : b ∈ root.symbols ↔ f.get b ≠ 0 := by
    rw [(buildTree_symbols h).mem_iff]
    simp [mem_allSymbols]
  rw [hcodes]
  cases hc : codeFor b (root.codes []) with
  | some c =>
    left
    have hin := (codeFor_eq_some hnd).mp hc
    have hlen := Node.mem_codes_length hin
    have hsym := buildTree_symbols_length h
    have hle := distinctSymbols_le f
    refine ⟨c, hin, by simp at hlen; omega, by simp [tableOf, hc], ?_⟩
    rw [← hmem, ← hfst]
    exact List.mem_map.mpr ⟨_, hin, rfl⟩
  | none =>
    right
    have hno := codeFor_eq_none.mp hc
    refine ⟨fun c hin => hno (List.mem_map.mpr ⟨_, hin, rfl⟩), by simp [tableOf, hc], ?_⟩
    rw [hfst, hmem] at hno
    simpa using hno

theorem codesOf_eq_nil {f : Table Word} (h : ∀ s, f.get s = 0) : codesOf f = [] := by
  simp [codesOf, buildTree_none f h]

/-- A symbol has a VALID entry exactly when its count is not zero (40_huffman_encode R185 item 1). -/
theorem tableOf_valid (f : Table Word) (b : Byte) :
    ((tableOf (codesOf f)).get b).valid = true ↔ f.get b ≠ 0 := by
  by_cases hne : ∃ s, f.get s ≠ 0
  · obtain ⟨root, hroot, -⟩ := buildTree_spec f hne
    rcases tableOf_spec hroot b with ⟨c, -, -, hc, hf⟩ | ⟨-, hc, hf⟩
    · simpa [hc] using hf
    · simp [hc, hf]
  · have h0 : ∀ s, f.get s = 0 := by simpa using hne
    simp [codesOf_eq_nil h0, tableOf, codeFor, h0 b]

/-- A VALID entry's code is the tree's, and conversely. -/
theorem mem_codes_iff {f : Table Word} {root : Node} (h : buildTree f = some root) (b : Byte) (c : Bits) :
    (b, c) ∈ root.codes [] ↔
      ((tableOf (codesOf f)).get b).valid = true ∧ ((tableOf (codesOf f)).get b).code = c := by
  have hnd : ((root.codes []).map Prod.fst).Nodup := by
    rw [root.codes_fst]; exact buildTree_symbols_nodup h
  rcases tableOf_spec h b with ⟨d, hd, hlen, he, -⟩ | ⟨hno, he, -⟩
  · rw [he, CtEntry.code_ofCode d hlen]
    constructor
    · intro hc
      have h1 := (codeFor_eq_some hnd).mpr hc
      have h2 := (codeFor_eq_some hnd).mpr hd
      rw [h1] at h2
      exact ⟨rfl, by simpa using h2.symm⟩
    · rintro ⟨-, rfl⟩; exact hd
  · simp [he, hno c]

/-- The table HUF_BUILD writes is prefix-free (40_huffman_encode R185 item 2). -/
theorem tableOf_prefixFree (f : Table Word) : PrefixFree (tableOf (codesOf f)) := by
  intro a b ha hb hab hpre
  have hne : ∃ s, f.get s ≠ 0 := ⟨a, (tableOf_valid f a).mp ha⟩
  obtain ⟨root, hroot, -⟩ := buildTree_spec f hne
  have hca := (mem_codes_iff hroot a _).mpr ⟨ha, rfl⟩
  have hcb := (mem_codes_iff hroot b _).mpr ⟨hb, rfl⟩
  have hpw := root.codes_prefixFree []
  have hsymm : Std.Symm fun x y : Byte × Bits => ¬ x.2 <+: y.2 ∧ ¬ y.2 <+: x.2 :=
    ⟨fun _ _ h => ⟨h.2, h.1⟩⟩
  have := hpw.forall hca hcb (fun h => hab (congrArg Prod.fst h))
  exact this.1 hpre

theorem Queued.before_asymm {x y : Queued} (h : x.before y = true) : y.before x = false := by
  rw [← Bool.not_eq_true, Queued.before_iff]
  rw [Queued.before_iff] at h
  omega

/-- The least element of a queue is one only, if it is before all others. -/
theorem least_unique {x y : Queued} {r u : List Queued} (hp : (x :: r).Perm (y :: u))
    (hx : ∀ z ∈ r, x.before z = true) (hy : ∀ z ∈ u, y.before z = true) : x = y := by
  rcases List.mem_cons.mp (hp.mem_iff.mp (List.mem_cons_self (a := x))) with h1 | h1
  · exact h1
  · rcases List.mem_cons.mp (hp.mem_iff.mpr (List.mem_cons_self (a := y))) with h2 | h2
    · exact h2.symm
    · have a := hy _ h1
      rw [Queued.before_asymm (hx _ h2)] at a
      cases a

/-- The merging of least nodes gives one tree: it is a function of the set of nodes (40_huffman_encode
R182). -/
theorem BuildsTo.unique {k : Nat} {q : List Queued} {root : Node} (h : BuildsTo k q root) :
    ∀ {q' : List Queued} {root' : Node}, q.Perm q' → BuildsTo k q' root' → root = root' := by
  induction h with
  | done k q =>
    intro q' root' hp h'
    cases h' with
    | done k q' =>
      have := hp.singleton_eq
      simp at this
      rw [this]
    | merge k _ rest x y _ hq =>
      exfalso
      have := (hp.trans hq).length_eq
      simp at this
  | merge k queue rest x y root hq hx hy _ ih =>
    intro q' root' hp h'
    cases h' with
    | done k q' =>
      exfalso
      have := (hp.symm.trans hq).length_eq
      simp at this
    | merge _ _ rest' x' y' _ hq' hx' hy' hb' =>
      have hpp : (x :: y :: rest).Perm (x' :: y' :: rest') := hq.symm.trans (hp.trans hq')
      obtain rfl := least_unique hpp hx hx'
      obtain rfl := least_unique hpp.cons_inv hy hy'
      exact ih (hpp.cons_inv.cons_inv.cons _) hb'

end Sys2Proof.Machine
end

