-- ==== Sys2Proof/Laws/HuffmanDecode.lean ====
section
/-! SUPPORT. The laws of the decode tree (41_huffman_decode R230, R231) and of the two walks (R232,
R233), all through one notion: where a path from a node leads. -/

namespace Sys2Proof.Machine

/-- Where a path leads. -/
def DecodeNode.walk : DecodeNode → Bits → DecodeNode
  | n, [] => n
  | n, b :: c => (n.child b).walk c

@[simp] theorem DecodeNode.walk_nil (n : DecodeNode) : n.walk [] = n := by cases n <;> rfl

theorem DecodeNode.walk_cons (n : DecodeNode) (b : Bool) (c : Bits) :
    n.walk (b :: c) = (n.child b).walk c := by cases n <;> rfl

@[simp] theorem DecodeNode.child_leaf (s : Byte) (b : Bool) : (DecodeNode.leaf s).child b = .absent := rfl

@[simp] theorem DecodeNode.child_absent (b : Bool) : DecodeNode.absent.child b = .absent := rfl

@[simp] theorem DecodeNode.child_inner (z o : DecodeNode) (b : Bool) :
    (DecodeNode.inner z o).child b = if b then o else z := rfl

@[simp] theorem DecodeNode.walk_absent (c : Bits) : DecodeNode.absent.walk c = .absent := by
  induction c with
  | nil => rfl
  | cons b c ih => rw [DecodeNode.walk_cons]; exact ih

theorem DecodeNode.walk_leaf_cons (s : Byte) (b : Bool) (c : Bits) :
    (DecodeNode.leaf s).walk (b :: c) = .absent := by simp [DecodeNode.walk_cons]

theorem DecodeNode.walk_append (n : DecodeNode) (c d : Bits) : n.walk (c ++ d) = (n.walk c).walk d := by
  induction c generalizing n with
  | nil => simp
  | cons b c ih => simp [DecodeNode.walk_cons, ih]

/-- Every inner node of the tree has a child. -/
def DecodeNode.live : DecodeNode → Prop
  | .absent => True
  | .leaf _ => True
  | .inner z o => (z ≠ .absent ∨ o ≠ .absent) ∧ z.live ∧ o.live

/-- A decode tree in the course of Rebuild: the fresh root, or one whose inner nodes have children. -/
def DecodeNode.good (n : DecodeNode) : Prop := n = .fresh ∨ n.live

theorem DecodeNode.live_child {n : DecodeNode} (h : n.live) (b : Bool) : (n.child b).live := by
  cases n with
  | absent => trivial
  | leaf => trivial
  | inner z o => cases b <;> simp [DecodeNode.live] at h ⊢ <;> tauto

theorem DecodeNode.live_walk {n : DecodeNode} (h : n.live) (c : Bits) : (n.walk c).live := by
  induction c generalizing n with
  | nil => simpa using h
  | cons b c ih => rw [DecodeNode.walk_cons]; exact ih (DecodeNode.live_child h b)

/-- Below a node of a live tree there is a leaf. -/
theorem DecodeNode.exists_leaf {n : DecodeNode} (h : n.live) (hn : n ≠ .absent) :
    ∃ c s, n.walk c = .leaf s := by
  induction n with
  | absent => exact absurd rfl hn
  | leaf s => exact ⟨[], s, rfl⟩
  | inner z o hz ho =>
    obtain ⟨hc, hlz, hlo⟩ := h
    rcases hc with hc | hc
    · obtain ⟨c, s, hs⟩ := hz hlz hc
      exact ⟨false :: c, s, by simpa [DecodeNode.walk_cons] using hs⟩
    · obtain ⟨c, s, hs⟩ := ho hlo hc
      exact ⟨true :: c, s, by simpa [DecodeNode.walk_cons] using hs⟩

theorem DecodeNode.good_child {n : DecodeNode} (h : n.good) (b : Bool) : (n.child b).live := by
  rcases h with rfl | h
  · cases b <;> exact trivial
  · exact DecodeNode.live_child h b

/-- Inserting succeeds, and the leaves are then the old ones and the new one; or it fails, and there is
a leaf on the path or below its end (41_huffman_decode R230). -/
theorem DecodeNode.insert_spec (s : Byte) (c : Bits) : ∀ n : DecodeNode, n.good →
    (∃ n', n.insert s c = some n' ∧ n'.live ∧ n' ≠ .absent ∧
      (∀ d t, n'.walk d = .leaf t ↔ (d = c ∧ t = s) ∨ n.walk d = .leaf t) ∧
      ∀ d t, n.walk d = .leaf t → ¬ d <+: c ∧ ¬ c <+: d) ∨
    (n.insert s c = none ∧ ∃ d t, n.walk d = .leaf t ∧ (d <+: c ∨ c <+: d)) := by
  induction c with
  | nil =>
    intro n hg
    have hleaf : ∀ (m : DecodeNode), (∀ d t, m.walk d ≠ .leaf t) →
        (∃ n', some (DecodeNode.leaf s) = some n' ∧ n'.live ∧ n' ≠ .absent ∧
          (∀ d t, n'.walk d = .leaf t ↔ (d = [] ∧ t = s) ∨ m.walk d = .leaf t) ∧
          ∀ d t, m.walk d = .leaf t → ¬ d <+: [] ∧ ¬ [] <+: d) := by
      intro m hm
      refine ⟨.leaf s, rfl, trivial, by simp, fun d t => ?_, fun d t h => absurd h (hm d t)⟩
      cases d with
      | nil =>
        have := hm [] t
        simp only [DecodeNode.walk_nil] at this ⊢
        simp [this, eq_comm]
      | cons b d => simp [DecodeNode.walk_leaf_cons, hm]
    match n with
    | .absent => left; simpa [DecodeNode.insert] using hleaf .absent (by simp)
    | .inner .absent .absent =>
      left
      refine hleaf _ fun d t h => ?_
      cases d with
      | nil => simp at h
      | cons b d => cases b <;> simp [DecodeNode.walk_cons] at h
    | .leaf t => right; exact ⟨rfl, [], t, rfl, .inl (List.prefix_refl _)⟩
    | .inner (.leaf t) o =>
      right; exact ⟨rfl, [false], t, rfl, .inr List.nil_prefix⟩
    | .inner .absent (.leaf t) =>
      right; exact ⟨rfl, [true], t, rfl, .inr List.nil_prefix⟩
    | .inner (.inner z1 o1) o =>
      right
      have hl := DecodeNode.good_child hg false
      obtain ⟨d, t, hd⟩ := DecodeNode.exists_leaf hl (by simp)
      exact ⟨rfl, false :: d, t, by rw [DecodeNode.walk_cons]; exact hd, .inr List.nil_prefix⟩
    | .inner .absent (.inner z1 o1) =>
      right
      have hl := DecodeNode.good_child hg true
      obtain ⟨d, t, hd⟩ := DecodeNode.exists_leaf hl (by simp)
      exact ⟨rfl, true :: d, t, by rw [DecodeNode.walk_cons]; exact hd, .inr List.nil_prefix⟩
  | cons b c ih =>
    intro n hg
    by_cases hn : ∃ t, n = .leaf t
    · obtain ⟨t, rfl⟩ := hn
      right
      exact ⟨by simp [DecodeNode.insert], [], t, rfl, .inl List.nil_prefix⟩
    · have hnl : ∀ t, n ≠ .leaf t := fun t h => hn ⟨t, h⟩
      have hins : n.insert s (b :: c) =
          ((n.child b).insert s c).map fun t =>
            if b then .inner (n.child false) t else .inner t (n.child true) := by
        cases n with
        | leaf t => exact absurd rfl (hnl t)
        | absent => cases b <;> rfl
        | inner z o => cases b <;> rfl
      rcases ih (n.child b) (.inr (DecodeNode.good_child hg b)) with
        ⟨m, hm, hmlive, hmne, hmwalk, hmpre⟩ | ⟨hm, d, t, hd, hp⟩
      · left
        have hchild : ∀ x, (if b then DecodeNode.inner (n.child false) m
            else .inner m (n.child true)).child x = if x = b then m else n.child x := by
          intro x; cases b <;> cases x <;> rfl
        refine ⟨_, by rw [hins, hm]; rfl, ?_, ?_, ?_, ?_⟩
        · cases b
          · exact ⟨.inl hmne, hmlive, DecodeNode.good_child hg true⟩
          · exact ⟨.inr hmne, DecodeNode.good_child hg false, hmlive⟩
        · cases b <;> simp
        · intro d t
          cases d with
          | nil => cases b <;> simp [hnl]
          | cons x d =>
            rw [DecodeNode.walk_cons, hchild, DecodeNode.walk_cons]
            by_cases hx : x = b
            · subst hx; simp [hmwalk]
            · simp [hx]
        · intro d t h
          cases d with
          | nil => exact absurd (by simpa using h) (hnl t)
          | cons x d =>
            rw [DecodeNode.walk_cons] at h
            by_cases hx : x = b
            · subst hx
              simpa [List.cons_prefix_cons] using hmpre d t h
            · have hx' : ¬ b = x := fun e => hx e.symm
              simp [List.cons_prefix_cons, hx, hx']
      · right
        refine ⟨by rw [hins, hm]; rfl, b :: d, t, by rw [DecodeNode.walk_cons]; exact hd, ?_⟩
        simpa [List.cons_prefix_cons] using hp

/-- The loop of Rebuild either inserts every VALID entry, and the leaves are then the old ones and
theirs, or stops at the first entry whose code meets a leaf. -/
theorem rebuildFrom_spec (es : List (Byte × CtEntry)) : ∀ root : DecodeNode, root.good →
    (∃ r, rebuildFrom es root = .ok r ∧ r.good ∧
      (∀ d t, r.walk d = .leaf t ↔ root.walk d = .leaf t ∨ ∃ e, (t, e) ∈ es ∧ e.valid = true ∧ e.code = d) ∧
      (∀ e ∈ es, e.2.valid = true → ∀ d t, root.walk d = .leaf t → ¬ d <+: e.2.code ∧ ¬ e.2.code <+: d) ∧
      es.Pairwise fun x y => x.2.valid = true → y.2.valid = true →
        ¬ x.2.code <+: y.2.code ∧ ¬ y.2.code <+: x.2.code) ∨
    (∃ before s e after, es = before ++ (s, e) :: after ∧ e.valid = true ∧
      rebuildFrom es root = .error ⟨.badCodeTable, s.toNat⟩ ∧
      (∃ r, rebuildFrom before root = .ok r) ∧
      ((∃ d t, root.walk d = .leaf t ∧ (d <+: e.code ∨ e.code <+: d)) ∨
        ∃ x ∈ before, x.2.valid = true ∧ (x.2.code <+: e.code ∨ e.code <+: x.2.code))) := by
  induction es with
  | nil =>
    intro root hg
    left
    exact ⟨root, rfl, hg, by simp, by simp, List.Pairwise.nil⟩
  | cons x rest ih =>
    obtain ⟨s, e⟩ := x
    intro root hg
    by_cases hv : e.valid = true
    · rcases DecodeNode.insert_spec s e.code root hg with
        ⟨n', hn', hlive, -, hwalk, hpre⟩ | ⟨hnone, d, t, hd, hp⟩
      · have hstep : rebuildFrom ((s, e) :: rest) root = rebuildFrom rest n' := by
          simp [rebuildFrom, hv, hn']
        rcases ih n' (.inr hlive) with ⟨r, hr, hrg, hrw, hrp, hpw⟩ | ⟨before, u, f, after, hes, hf, herr, ⟨r, hr⟩, hc⟩
        · left
          refine ⟨r, by rw [hstep, hr], hrg, fun d t => ?_, fun y hy hyv d t h => ?_, ?_⟩
          · rw [hrw, hwalk]
            constructor
            · rintro ((⟨rfl, rfl⟩ | h) | ⟨g, hg, h1, h2⟩)
              · exact .inr ⟨e, List.mem_cons_self, hv, rfl⟩
              · exact .inl h
              · exact .inr ⟨g, List.mem_cons_of_mem _ hg, h1, h2⟩
            · rintro (h | ⟨g, hg, h1, h2⟩)
              · exact .inl (.inr h)
              · rcases List.mem_cons.mp hg with h | h
                · cases h; exact .inl (.inl ⟨h2.symm, rfl⟩)
                · exact .inr ⟨g, h, h1, h2⟩
          · rcases List.mem_cons.mp hy with rfl | hy
            · exact hpre d t h
            · exact hrp y hy hyv d t ((hwalk d t).mpr (.inr h))
          · refine List.pairwise_cons.mpr ⟨fun y hy _ hyv => ?_, hpw⟩
            exact hrp y hy hyv e.code s ((hwalk _ _).mpr (.inl ⟨rfl, rfl⟩))
        · right
          refine ⟨(s, e) :: before, u, f, after, by rw [hes]; rfl, hf, by rw [hstep, herr],
            ⟨r, by simpa [rebuildFrom, hv, hn'] using hr⟩, ?_⟩
          rcases hc with ⟨d, t, hd, hp⟩ | ⟨y, hy, hyv, hp⟩
          · rcases (hwalk d t).mp hd with ⟨rfl, rfl⟩ | hd
            · exact .inr ⟨(t, e), List.mem_cons_self, hv, hp⟩
            · exact .inl ⟨d, t, hd, hp⟩
          · exact .inr ⟨y, List.mem_cons_of_mem _ hy, hyv, hp⟩
      · right
        refine ⟨[], s, e, rest, rfl, hv, by simp [rebuildFrom, hv, hnone], ⟨root, rfl⟩, .inl ⟨d, t, hd, hp⟩⟩
    · have hstep : rebuildFrom ((s, e) :: rest) root = rebuildFrom rest root := by
        simp [rebuildFrom, hv]
      rcases ih root hg with ⟨r, hr, hrg, hrw, hrp, hpw⟩ | ⟨before, u, f, after, hes, hf, herr, ⟨r, hr⟩, hc⟩
      · left
        refine ⟨r, by rw [hstep, hr], hrg, fun d t => ?_, fun y hy hyv d t h => ?_, ?_⟩
        · rw [hrw]
          constructor
          · rintro (h | ⟨g, hg, h1, h2⟩)
            · exact .inl h
            · exact .inr ⟨g, List.mem_cons_of_mem _ hg, h1, h2⟩
          · rintro (h | ⟨g, hg, h1, h2⟩)
            · exact .inl h
            · rcases List.mem_cons.mp hg with h | h
              · cases h; exact absurd h1 hv
              · exact .inr ⟨g, h, h1, h2⟩
        · rcases List.mem_cons.mp hy with rfl | hy
          · exact absurd hyv hv
          · exact hrp y hy hyv d t h
        · exact List.pairwise_cons.mpr ⟨fun y _ h => absurd h hv, hpw⟩
      · right
        refine ⟨(s, e) :: before, u, f, after, by rw [hes]; rfl, hf, by rw [hstep, herr],
          ⟨r, by simpa [rebuildFrom, hv] using hr⟩, ?_⟩
        rcases hc with h | ⟨y, hy, hyv, hp⟩
        · exact .inl h
        · exact .inr ⟨y, List.mem_cons_of_mem _ hy, hyv, hp⟩

theorem fresh_no_leaf (d : Bits) (t : Byte) : DecodeNode.fresh.walk d ≠ .leaf t := by
  cases d with
  | nil => simp [DecodeNode.fresh]
  | cons b d => cases b <;> simp [DecodeNode.fresh, DecodeNode.walk_cons]

/-- A decode tree of a code table: its leaves are the VALID entries, at the ends of their codes. -/
structure TreeOf (ct : Table CtEntry) (r : DecodeNode) : Prop where
  good : r.good
  leaves : ∀ d t, r.walk d = .leaf t ↔ (ct.get t).valid = true ∧ (ct.get t).code = d

/-- Rebuild succeeds on a prefix-free table and gives its decode tree (41_huffman_decode R231). -/
theorem rebuild_of_prefixFree {ct : Table CtEntry} (h : PrefixFree ct) :
    ∃ r, rebuild ct = .ok r ∧ TreeOf ct r := by
  rcases rebuildFrom_spec ct.entries .fresh (.inl rfl) with
    ⟨r, hr, hg, hw, -, -⟩ | ⟨before, s, e, after, hes, hv, -, -, hc⟩
  · refine ⟨r, hr, hg, fun d t => ?_⟩
    rw [hw]
    constructor
    · rintro (h | ⟨e, he, h1, h2⟩)
      · exact absurd h (fresh_no_leaf d t)
      · have := Table.mem_entries.mp he
        simp only at this
        rw [this]; exact ⟨h1, h2⟩
    · rintro ⟨h1, h2⟩
      exact .inr ⟨ct.get t, Table.mem_entries.mpr rfl, h1, h2⟩
  · exfalso
    rcases hc with ⟨d, t, hd, -⟩ | ⟨x, hx, hxv, hp⟩
    · exact fresh_no_leaf d t hd
    · have h1 : x ∈ ct.entries := by rw [hes]; exact List.mem_append_left _ hx
      have h2 : (s, e) ∈ ct.entries := by rw [hes]; simp
      have hne : x.1 ≠ s := by
        have hnd := allSymbols_nodup
        have hmap : ct.entries.map Prod.fst = allSymbols := by
          rw [Table.entries_eq, List.map_map]; simp [Function.comp_def]
        rw [← hmap, hes, List.map_append, List.map_cons, List.nodup_append] at hnd
        exact hnd.2.2 x.1 (List.mem_map.mpr ⟨x, hx, rfl⟩) s List.mem_cons_self
      have e1 := Table.mem_entries.mp h1
      have e2 := Table.mem_entries.mp h2
      simp only at e2
      rcases hp with hp | hp
      · exact h x.1 s (by rw [e1]; exact hxv) (by rw [e2]; exact hv) hne (by rw [e1, e2]; exact hp)
      · exact h s x.1 (by rw [e2]; exact hv) (by rw [e1]; exact hxv) hne.symm (by rw [e1, e2]; exact hp)

/-- Rebuild succeeds only on a prefix-free table (41_huffman_decode R231). -/
theorem prefixFree_of_rebuild {ct : Table CtEntry} {r : DecodeNode} (h : rebuild ct = .ok r) :
    PrefixFree ct := by
  rcases rebuildFrom_spec ct.entries .fresh (.inl rfl) with
    ⟨r', hr, -, -, -, hpw⟩ | ⟨before, s, e, after, -, -, herr, -, -⟩
  · intro a b ha hb hab hp
    have h1 : (a, ct.get a) ∈ ct.entries := Table.mem_entries.mpr rfl
    have h2 : (b, ct.get b) ∈ ct.entries := Table.mem_entries.mpr rfl
    have hsymm : Std.Symm fun x y : Byte × CtEntry => x.2.valid = true → y.2.valid = true →
        ¬ x.2.code <+: y.2.code ∧ ¬ y.2.code <+: x.2.code :=
      ⟨fun _ _ h h1 h2 => ⟨(h h2 h1).2, (h h2 h1).1⟩⟩
    exact (hpw.forall h1 h2 (fun h => hab (congrArg Prod.fst h)) ha hb).1 hp
  · rw [rebuild] at h
    rw [h] at herr
    simp at herr

/-- Rebuild's only error is BAD_CODE_TABLE (41_huffman_decode R230). -/
theorem rebuild_error {ct : Table CtEntry} {e : CodecError} (h : rebuild ct = .error e) :
    e.kind = .badCodeTable ∧ e.pos < 256 := by
  rcases rebuildFrom_spec ct.entries .fresh (.inl rfl) with
    ⟨r', hr, -⟩ | ⟨before, s, f, after, -, -, herr, -, -⟩
  · rw [rebuild] at h; rw [h] at hr; simp at hr
  · rw [rebuild] at h; rw [h] at herr
    cases herr
    exact ⟨rfl, s.isLt⟩

/-! ### Walks -/

section
variable {ct : Table CtEntry} {r : DecodeNode}

theorem TreeOf.prefixFree (h : TreeOf ct r) : PrefixFree ct := by
  intro a b ha hb hab hp
  obtain ⟨d, hd⟩ := hp
  have h1 := (h.leaves _ a).mpr ⟨ha, rfl⟩
  have h2 := (h.leaves _ b).mpr ⟨hb, rfl⟩
  rw [← hd, DecodeNode.walk_append, h1] at h2
  cases d with
  | nil => simp at h2; exact hab h2
  | cons x d => simp [DecodeNode.walk_leaf_cons] at h2

/-- A proper initial part of a VALID code leads to an inner node. -/
theorem TreeOf.inner_of_inside (h : TreeOf ct r) {p : Bits} (hp : InsideCode ct p) :
    ∃ z o, r.walk p = .inner z o := by
  obtain ⟨b, hv, ⟨d, hd⟩, hne⟩ := hp
  have hl := (h.leaves _ b).mpr ⟨hv, rfl⟩
  rw [← hd, DecodeNode.walk_append] at hl
  cases hw : r.walk p with
  | absent => rw [hw] at hl; simp at hl
  | leaf t =>
    rw [hw] at hl
    cases d with
    | nil => simp at hd; exact absurd hd hne
    | cons x d => simp [DecodeNode.walk_leaf_cons] at hl
  | inner z o => exact ⟨z, o, rfl⟩

/-- A path that begins no VALID code leads nowhere, when some entry is VALID. -/
theorem TreeOf.absent_of_no_code (h : TreeOf ct r) (hne : ∃ b, (ct.get b).valid = true) {p : Bits}
    (hp : ∀ b, (ct.get b).valid = true → ¬ p <+: (ct.get b).code) : r.walk p = .absent := by
  have hlive : r.live := by
    rcases h.good with hf | hl
    · obtain ⟨b, hb⟩ := hne
      have := (h.leaves _ b).mpr ⟨hb, rfl⟩
      rw [hf] at this
      exact absurd this (fresh_no_leaf _ _)
    · exact hl
  by_contra hw
  obtain ⟨d, s, hs⟩ := DecodeNode.exists_leaf (DecodeNode.live_walk hlive p) hw
  rw [← DecodeNode.walk_append] at hs
  obtain ⟨hv, hc⟩ := (h.leaves _ _).mp hs
  exact hp s hv ⟨d, hc.symm⟩

end

theorem walkSymbol_cons {n : DecodeNode} {b : Bool} {pos : Nat} {bits : Bits}
    (hn : ∀ s, n ≠ .leaf s) (hc : n.child b ≠ .absent) :
    walkSymbol n pos (b :: bits) = walkSymbol (n.child b) (pos + 1) bits := by
  cases n with
  | leaf s => exact absurd rfl (hn s)
  | absent => exact absurd rfl hc
  | inner z o =>
    rw [walkSymbol]
    · cases hch : (DecodeNode.inner z o).child b with
      | absent => exact absurd hch hc
      | leaf s => rfl
      | inner _ _ => rfl
    · simp

/-- The counted walk reads exactly one code (41_huffman_decode R232, R236). -/
theorem walkSymbol_leaf (c : Bits) : ∀ (n : DecodeNode) (pos : Nat) (rest : Bits) (s : Byte),
    n.walk c = .leaf s → walkSymbol n pos (c ++ rest) = .ok (s, pos + c.length, rest) := by
  induction c with
  | nil =>
    intro n pos rest s h
    simp only [DecodeNode.walk_nil] at h
    subst h
    cases rest <;> simp [walkSymbol]
  | cons b c ih =>
    intro n pos rest s h
    have hn : ∀ t, n ≠ .leaf t := by
      rintro t rfl; simp [DecodeNode.walk_leaf_cons] at h
    rw [DecodeNode.walk_cons] at h
    have hc : n.child b ≠ .absent := by
      intro he; rw [he] at h; simp at h
    rw [List.cons_append, walkSymbol_cons hn hc, ih _ _ _ _ h]
    simp only [List.length_cons]
    congr 3
    omega

/-- Along a path that ends at an inner node, the counted walk only moves on. -/
theorem walkSymbol_inner (p : Bits) : ∀ (n : DecodeNode) (pos : Nat) (rest : Bits),
    (∃ z o, n.walk p = .inner z o) →
      walkSymbol n pos (p ++ rest) = walkSymbol (n.walk p) (pos + p.length) rest := by
  induction p with
  | nil => intro n pos rest _; simp
  | cons b p ih =>
    intro n pos rest h
    obtain ⟨z, o, h⟩ := h
    have hn : ∀ t, n ≠ .leaf t := by
      rintro t rfl; simp [DecodeNode.walk_leaf_cons] at h
    have hc : n.child b ≠ .absent := by
      intro he; rw [DecodeNode.walk_cons, he] at h; simp at h
    rw [List.cons_append, walkSymbol_cons hn hc, ih _ _ _ ⟨z, o, by rw [← DecodeNode.walk_cons]; exact h⟩,
      DecodeNode.walk_cons]
    simp only [List.length_cons]
    congr 1
    omega

/-- The counted walk runs out of bits inside a code (41_huffman_decode R232). -/
theorem walkSymbol_truncated {n : DecodeNode} {p : Bits} (h : ∃ z o, n.walk p = .inner z o) (pos : Nat) :
    walkSymbol n pos p = .error ⟨.truncatedStream, pos + p.length⟩ := by
  have := walkSymbol_inner p n pos [] h
  rw [List.append_nil] at this
  rw [this]
  obtain ⟨z, o, h⟩ := h
  rw [h]
  rfl

/-- The counted walk meets a missing child (41_huffman_decode R232). -/
theorem walkSymbol_invalid {n : DecodeNode} {p : Bits} {b : Bool} (h : ∃ z o, n.walk p = .inner z o)
    (hb : n.walk (p ++ [b]) = .absent) (pos : Nat) (rest : Bits) :
    walkSymbol n pos (p ++ b :: rest) = .error ⟨.invalidBitSequence, pos + p.length⟩ := by
  rw [walkSymbol_inner p n pos (b :: rest) h]
  obtain ⟨z, o, h⟩ := h
  rw [DecodeNode.walk_append, h, DecodeNode.walk_cons, DecodeNode.walk_nil] at hb
  rw [h, walkSymbol]
  · rw [hb]
  · simp

section
variable {ct : Table CtEntry} {r : DecodeNode}

theorem streamOf_cons (b : Byte) (x : List Byte) :
    streamOf ct (b :: x) = (ct.get b).code ++ streamOf ct x := rfl

theorem streamOf_append (x y : List Byte) : streamOf ct (x ++ y) = streamOf ct x ++ streamOf ct y := by
  simp [streamOf]

/-- Over the codes of a symbol sequence the counted walk decodes it, and goes on with what is left. -/
theorem walkCounted_stream (h : TreeOf ct r) (maxOut : Nat) (x : List Byte) :
    ∀ (k n pos : Nat) (rest : Bits), (∀ b ∈ x, (ct.get b).valid = true) → n + x.length ≤ maxOut →
      walkCounted r maxOut (x.length + k) n pos (streamOf ct x ++ rest) =
        (walkCounted r maxOut k (n + x.length) (pos + (streamOf ct x).length) rest).map
          fun o => (x ++ o.1, o.2) := by
  induction x with
  | nil =>
    intro k n pos rest _ _
    simp only [streamOf, List.flatMap_nil, List.nil_append, List.length_nil, Nat.zero_add, Nat.add_zero]
    cases walkCounted r maxOut k n pos rest <;> rfl
  | cons b x ih =>
    intro k n pos rest hv hn
    simp only [List.length_cons] at hn
    have hb := (h.leaves _ b).mpr ⟨hv b List.mem_cons_self, rfl⟩
    have hk : (b :: x).length + k = (x.length + k) + 1 := by simp; omega
    rw [hk, streamOf_cons, List.append_assoc, walkCounted, walkSymbol_leaf _ _ _ _ _ hb]
    simp only
    rw [if_neg (by omega), ih k (n + 1) _ rest (fun c hc => hv c (List.mem_cons_of_mem _ hc)) (by omega)]
    have e1 : n + 1 + x.length = n + (b :: x).length := by simp; omega
    have e2 : pos + (ct.get b).code.length + (streamOf ct x).length =
        pos + ((ct.get b).code ++ streamOf ct x).length := by simp; omega
    rw [e1, e2]
    cases walkCounted r maxOut k (n + (b :: x).length)
      (pos + ((ct.get b).code ++ streamOf ct x).length) rest <;> rfl

/-- What the counted walk answers is what is written at that many symbols (41_huffman_decode R232). -/
theorem walkCounted_length (r : DecodeNode) (maxOut : Nat) :
    ∀ (k n pos : Nat) (bits : Bits) (out : List Byte) (last : Nat),
      walkCounted r maxOut k n pos bits = .ok (out, last) →
      out.length = k ∧ (n ≤ maxOut → n + out.length ≤ maxOut) := by
  intro k
  induction k with
  | zero =>
    intro n pos bits out last h
    simp only [walkCounted, Except.ok.injEq, Prod.mk.injEq] at h
    obtain ⟨rfl, -⟩ := h
    simp
  | succ k ih =>
    intro n pos bits out last h
    simp only [walkCounted] at h
    split at h
    · simp at h
    · split at h
      · simp at h
      · rename_i hn
        split at h
        · simp at h
        · rename_i out' last' hw
          simp only [Except.ok.injEq, Prod.mk.injEq] at h
          obtain ⟨rfl, -⟩ := h
          obtain ⟨h1, h2⟩ := ih _ _ _ _ _ hw
          simp only [List.length_cons]
          omega

end

end Sys2Proof.Machine
end

