-- ==== Sys2Proof/Laws/Rle.lean ====
section
/-! SUPPORT. The laws of the RLE functions: the scan gives the run-length form, the emitted bytes are the
pairs, and the parallel decode is the sequential one (42_rle R270–R279). -/

namespace Sys2Proof.Machine

/-- A pair without the index it carries for FAULT_POS. -/
def RlePair.plain (p : RlePair) : Nat × Byte := (p.count, p.value)

@[simp] theorem expand_nil : expand [] = [] := rfl

@[simp] theorem expand_cons (p : Nat × Byte) (ps : List (Nat × Byte)) :
    expand (p :: ps) = List.replicate p.1 p.2 ++ expand ps := rfl

@[simp] theorem expand_append (a b : List (Nat × Byte)) : expand (a ++ b) = expand a ++ expand b := by
  simp [expand]

@[simp] theorem pairBytes_nil : pairBytes [] = [] := rfl

@[simp] theorem pairBytes_cons (p : Nat × Byte) (ps : List (Nat × Byte)) :
    pairBytes (p :: ps) = BitVec.ofNat 8 p.1 :: p.2 :: pairBytes ps := rfl

theorem pairBytes_length (ps : List (Nat × Byte)) : (pairBytes ps).length = 2 * ps.length := by
  induction ps with
  | nil => rfl
  | cons p ps ih => simp [ih]; omega

/-! ### The scan -/

/-- The scan inside a run starts with a pair of the run's value. -/
theorem rleScan_head (v : Byte) (c st : Nat) (bytes : List Byte) :
    ∃ k rest, rleScan v c st bytes = ⟨c + k, v, st⟩ :: rest := by
  induction bytes generalizing c with
  | nil => exact ⟨0, [], rfl⟩
  | cons x bytes ih =>
    simp only [rleScan]
    split
    · obtain ⟨k, rest, h⟩ := ih (c + 1)
      exact ⟨k + 1, rest, by rw [h]; simp; omega⟩
    · exact ⟨0, _, rfl⟩

/-- The scan gives the run-length form of what it scanned (42_rle R270, R279 items 2 and 3). -/
theorem rleScan_spec (bytes : List Byte) : ∀ (v : Byte) (c st : Nat), 1 ≤ c → c ≤ 255 →
    RunLengthOf (List.replicate c v ++ bytes) ((rleScan v c st bytes).map RlePair.plain) := by
  induction bytes with
  | nil =>
    intro v c st h1 h2
    exact ⟨by simp [rleScan, RlePair.plain], by simp [rleScan, RlePair.plain]; omega,
      by simp [rleScan, RlePair.plain]⟩
  | cons x bytes ih =>
    intro v c st h1 h2
    simp only [rleScan]
    split
    · rename_i h
      obtain ⟨rfl, hc⟩ := h
      have := ih x (c + 1) st (by omega) (by omega)
      rw [List.replicate_succ'] at this
      simpa using this
    · rename_i h
      obtain ⟨e, cs, m⟩ := ih x 1 (st + c) (by omega) (by omega)
      refine ⟨?_, ?_, ?_⟩
      · simp only [List.map_cons, expand_cons, RlePair.plain] at e ⊢
        rw [e]; simp
      · intro p hp
        rcases List.mem_cons.mp hp with rfl | hp
        · exact ⟨h1, h2⟩
        · exact cs p hp
      · obtain ⟨k, rest, hk⟩ := rleScan_head x 1 (st + c) bytes
        rw [hk] at m ⊢
        refine List.isChain_cons_cons.mpr ⟨fun hv => ?_, m⟩
        simp only [RlePair.plain] at hv ⊢
        by_contra hne
        exact h ⟨hv.symm, by omega⟩

/-- `RleEnc` gives the run-length form of its slice (42_rle R270). -/
theorem rleEncode_spec (st : Nat) (bytes : List Byte) :
    RunLengthOf bytes ((rleEncode st bytes).map RlePair.plain) := by
  cases bytes with
  | nil => exact ⟨rfl, by simp [rleEncode], by simp [rleEncode]⟩
  | cons x bytes => simpa [rleEncode] using rleScan_spec bytes x 1 st (by omega) (by omega)

/-- A run-length form is determined by what it stands for. -/
theorem RunLengthOf.unique {data : List Byte} {p q : List (Nat × Byte)} (hp : RunLengthOf data p)
    (hq : RunLengthOf data q) : p = q := by
  induction p generalizing data q with
  | nil =>
    have : data = [] := by simpa using hp.expands.symm
    subst this
    cases q with
    | nil => rfl
    | cons x q =>
      have h1 := hq.expands
      have h2 := hq.counts x List.mem_cons_self
      simp only [expand_cons, List.append_eq_nil_iff, List.replicate_eq_nil_iff] at h1
      omega
  | cons x p ih =>
    cases q with
    | nil =>
      have : data = [] := by simpa using hq.expands.symm
      subst this
      have h1 := hp.expands
      have h2 := hp.counts x List.mem_cons_self
      simp only [expand_cons, List.append_eq_nil_iff, List.replicate_eq_nil_iff] at h1
      omega
    | cons y q =>
      have hx := hp.counts x List.mem_cons_self
      have hy := hq.counts y List.mem_cons_self
      have he : List.replicate x.1 x.2 ++ expand p = List.replicate y.1 y.2 ++ expand q := by
        rw [← expand_cons, ← expand_cons, hp.expands, hq.expands]
      have hval : x.2 = y.2 := by
        have := congrArg (fun l => l[0]?) he
        rw [List.getElem?_append_left (by simp; omega), List.getElem?_append_left (by simp; omega),
          List.getElem?_replicate, List.getElem?_replicate, if_pos (by omega), if_pos (by omega)] at this
        simpa using this
      have key : ∀ {a b : Nat × Byte} {r u : List (Nat × Byte)}, a.2 = b.2 → b.1 ≤ 255 → 1 ≤ a.1 →
          List.replicate a.1 a.2 ++ expand r = List.replicate b.1 b.2 ++ expand u →
          (∀ z ∈ r, 1 ≤ z.1) → (a :: r).IsChain (fun p q => p.2 = q.2 → p.1 = 255) → ¬ a.1 < b.1 := by
        intro a b r u hab hb ha h hr hc hlt
        have := congrArg (fun l => l[a.1]?) h
        rw [List.getElem?_append_right (by simp), List.getElem?_append_left (by simpa using hlt),
          List.getElem?_replicate, if_pos hlt, List.length_replicate, Nat.sub_self] at this
        cases r with
        | nil => simp at this
        | cons z r =>
          have hz := hr z List.mem_cons_self
          rw [expand_cons, List.getElem?_append_left (by simp; omega), List.getElem?_replicate,
            if_pos (by omega)] at this
          have hzb : z.2 = b.2 := by simpa using this
          have := (List.isChain_cons_cons.mp hc).1 (hab.trans hzb.symm)
          omega
      have h1 := key hval hy.2 hx.1 he (fun z hz => (hp.counts z (List.mem_cons_of_mem _ hz)).1) hp.maximal
      have h2 := key hval.symm hx.2 hy.1 he.symm
        (fun z hz => (hq.counts z (List.mem_cons_of_mem _ hz)).1) hq.maximal
      have hcount : x.1 = y.1 := by omega
      have hxy : x = y := Prod.ext hcount hval
      subst hxy
      have htail : expand p = expand q := List.append_cancel_left he
      rw [ih ⟨rfl, fun z hz => hp.counts z (List.mem_cons_of_mem _ hz), hp.maximal.of_cons⟩
        ⟨htail.symm, fun z hz => hq.counts z (List.mem_cons_of_mem _ hz), hq.maximal.of_cons⟩]

/-- Every pair carries the index of its first input byte (42_rle R270). -/
theorem rleScan_starts (bytes : List Byte) : ∀ (v : Byte) (c st : Nat) (a b : List RlePair) (p : RlePair),
    rleScan v c st bytes = a ++ p :: b → p.start = st + (expand (a.map RlePair.plain)).length := by
  induction bytes with
  | nil =>
    intro v c st a b p h
    cases a with
    | nil => simp only [rleScan, List.nil_append, List.cons.injEq] at h; simp [← h.1]
    | cons y a => simp [rleScan] at h
  | cons x bytes ih =>
    intro v c st a b p h
    simp only [rleScan] at h
    split at h
    · exact ih _ _ _ _ _ _ h
    · cases a with
      | nil => simp only [List.nil_append, List.cons.injEq] at h; simp [← h.1]
      | cons y a =>
        simp only [List.cons_append, List.cons.injEq] at h
        have := ih _ _ _ _ _ _ h.2
        rw [this, ← h.1]
        simp [RlePair.plain]
        omega

theorem rleEncode_starts {st : Nat} {bytes : List Byte} {a b : List RlePair} {p : RlePair}
    (h : rleEncode st bytes = a ++ p :: b) : p.start = st + (expand (a.map RlePair.plain)).length := by
  cases bytes with
  | nil => simp [rleEncode] at h
  | cons x bytes => exact rleScan_starts bytes x 1 st a b p h

/-! ### Emitting and expanding -/

theorem emitPairs_ok (maxOut : Nat) (ps : List RlePair) : ∀ o : Nat, o + 2 * ps.length ≤ maxOut →
    emitPairs maxOut o ps = .ok (pairBytes (ps.map RlePair.plain)) := by
  induction ps with
  | nil => intro o _; rfl
  | cons p ps ih =>
    intro o h
    simp only [List.length_cons] at h
    simp only [emitPairs]
    rw [if_neg (by omega), ih (o + 2) (by omega)]
    rfl

/-- The first pair that does not fit is reported (42_rle R272). -/
theorem emitPairs_error (maxOut : Nat) (a : List RlePair) (p : RlePair) (b : List RlePair) :
    ∀ o : Nat, o + 2 * a.length ≤ maxOut → maxOut < o + 2 * a.length + 2 →
    emitPairs maxOut o (a ++ p :: b) = .error ⟨.outOverflow, p.start⟩ := by
  induction a with
  | nil => intro o h1 h2; simp only [List.length_nil] at h2; simp [emitPairs]; omega
  | cons q a ih =>
    intro o h1 h2
    simp only [List.length_cons] at h1 h2
    simp only [List.cons_append, emitPairs]
    rw [if_neg (by omega), ih (o + 2) (by omega) (by omega)]

/-- What `emitPairs` answers, said once. -/
theorem emitPairs_cases (maxOut : Nat) (ps : List RlePair) (o : Nat) (ho : o ≤ maxOut) :
    (o + 2 * ps.length ≤ maxOut ∧ emitPairs maxOut o ps = .ok (pairBytes (ps.map RlePair.plain))) ∨
    (∃ a p b, ps = a ++ p :: b ∧ o + 2 * a.length ≤ maxOut ∧ maxOut < o + 2 * a.length + 2 ∧
      emitPairs maxOut o ps = .error ⟨.outOverflow, p.start⟩) := by
  by_cases h : o + 2 * ps.length ≤ maxOut
  · exact .inl ⟨h, emitPairs_ok maxOut ps o h⟩
  · right
    have hk : (maxOut - o) / 2 < ps.length := by omega
    refine ⟨ps.take ((maxOut - o) / 2), ps[(maxOut - o) / 2], ps.drop ((maxOut - o) / 2 + 1), ?_, ?_, ?_, ?_⟩
    · rw [List.getElem_cons_drop, List.take_append_drop]
    · rw [List.length_take]; omega
    · rw [List.length_take]; omega
    · conv_lhs => rw [← List.take_append_drop ((maxOut - o) / 2) ps, ← List.getElem_cons_drop hk]
      exact emitPairs_error maxOut _ _ _ o (by rw [List.length_take]; omega) (by rw [List.length_take]; omega)

/-- The pairs that a byte sequence holds (30_encoding R143). -/
def pairsOf : List Byte → List (Nat × Byte)
  | c :: v :: rest => (c.toNat, v) :: pairsOf rest
  | _ => []

theorem pairsOf_pairBytes (ps : List (Nat × Byte)) (h : ∀ p ∈ ps, p.1 ≤ 255) :
    pairsOf (pairBytes ps) = ps := by
  induction ps with
  | nil => rfl
  | cons p ps ih =>
    have h1 := h p List.mem_cons_self
    rw [pairBytes_cons, pairsOf, ih fun q hq => h q (List.mem_cons_of_mem _ hq), BitVec.toNat_ofNat,
      Nat.mod_eq_of_lt (by omega)]

theorem pairBytes_pairsOf (bytes : List Byte) (h : bytes.length % 2 = 0) :
    pairBytes (pairsOf bytes) = bytes := by
  induction bytes using pairsOf.induct with
  | case1 c v rest ih =>
    rw [pairsOf, pairBytes_cons, ih (by simp at h; omega)]
    simp
  | case2 bytes hb =>
    match bytes with
    | [] => rfl
    | [x] => simp at h
    | c :: v :: rest => exact absurd rfl (hb c v rest)

/-- The sequential decode in terms of the pairs (42_rle R273). -/
theorem expandPairs_ok (maxOut : Nat) (bytes : List Byte) : ∀ src o : Nat,
    o + (expand (pairsOf bytes)).length ≤ maxOut →
    expandPairs maxOut src o bytes = .ok (expand (pairsOf bytes)) := by
  induction bytes using pairsOf.induct with
  | case1 c v rest ih =>
    intro src o h
    simp only [pairsOf, expand_cons, List.length_append, List.length_replicate] at h ⊢
    rw [expandPairs, if_neg (by omega), ih (src + 2) (o + c.toNat) (by omega)]
  | case2 bytes hb =>
    intro src o _
    rw [expandPairs]
    · rw [pairsOf]
      · rfl
      · exact hb
    · exact hb

/-- The regions that the first pass gives stand for the same bytes, and it fails exactly as the
sequential decode does (42_rle R276, R279 item 5). -/
theorem regionPass_spec (maxOut : Nat) (bytes : List Byte) : ∀ (src o : Nat) (m : Memory) (pre : List Byte),
    pre.length = o →
    (∃ out regions, expandPairs maxOut src o bytes = .ok out ∧
      regionPass maxOut src o bytes = .ok (regions, o + out.length) ∧
      fillRegions (m.store 0 pre) regions = m.store 0 (pre ++ out)) ∨
    (∃ e, expandPairs maxOut src o bytes = .error e ∧ regionPass maxOut src o bytes = .error e) := by
  induction bytes using pairsOf.induct with
  | case1 c v rest ih =>
    intro src o m pre hp
    by_cases h : maxOut < o + c.toNat
    · right
      exact ⟨_, by rw [expandPairs, if_pos h], by rw [regionPass, if_pos h]⟩
    · rcases ih (src + 2) (o + c.toNat) m (pre ++ List.replicate c.toNat v) (by simp [hp]) with
        ⟨out, regions, h1, h2, h3⟩ | ⟨e, h1, h2⟩
      · left
        refine ⟨List.replicate c.toNat v ++ out, ⟨o, c.toNat, v⟩ :: regions, ?_, ?_, ?_⟩
        · rw [expandPairs, if_neg h, h1]
        · rw [regionPass, if_neg h, h2]
          simp [Nat.add_assoc]
        · have hstore := Memory.store_store_append m 0 pre (List.replicate c.toNat v)
          rw [Nat.zero_add, hp] at hstore
          simp only [fillRegions, List.foldl_cons, fillRegion, hstore]
          simpa [fillRegions, List.append_assoc] using h3
      · right
        exact ⟨e, by rw [expandPairs, if_neg h, h1], by rw [regionPass, if_neg h, h2]⟩
  | case2 bytes hb =>
    intro src o m pre _
    left
    refine ⟨[], [], ?_, ?_, by simp [fillRegions]⟩
    · rw [expandPairs]; exact hb
    · rw [regionPass]
      · simp
      · exact hb

/-! ### Chunks -/

theorem slice_append (bytes : List Byte) {a b c : Nat} (h1 : a ≤ b) (h2 : b ≤ c) :
    slice bytes a b ++ slice bytes b c = slice bytes a c := by
  unfold slice
  have : c - a = (b - a) + (c - b) := by omega
  rw [this, List.take_add, List.drop_drop]
  congr 3
  omega

theorem chunk_row (bytes : List Byte) (q k : Nat) :
    (((List.range k).map fun j => (j * q, (j + 1) * q)).flatMap fun c => slice bytes c.1 c.2) =
      slice bytes 0 (k * q) := by
  induction k with
  | zero => simp [slice]
  | succ k ih =>
    rw [List.range_succ, List.map_append, List.flatMap_append, ih]
    simp only [List.map_cons, List.map_nil, List.flatMap_cons, List.flatMap_nil, List.append_nil]
    exact slice_append bytes (by omega) (Nat.mul_le_mul_right q (by omega))

/-- The chunks, in index order, are the whole input (42_rle R274). -/
theorem chunks_cover (bytes : List Byte) (w : Nat) (hw : 1 ≤ w) :
    ((chunks bytes.length w).flatMap fun c => slice bytes c.1 c.2) = bytes := by
  unfold chunks
  split
  · simp [slice]
  · rename_i h
    have hq : (w - 1) * (bytes.length / w) ≤ bytes.length := by
      calc (w - 1) * (bytes.length / w) ≤ w * (bytes.length / w) := Nat.mul_le_mul_right _ (by omega)
        _ ≤ bytes.length := Nat.mul_div_le _ _
    rw [List.flatMap_append, chunk_row]
    simp only [List.flatMap_cons, List.flatMap_nil, List.append_nil]
    rw [slice_append bytes (by omega) hq]
    simp [slice]

/-- What RLE_ENC_PAR emits stands for the input (42_rle R275, R279 item 1). -/
theorem expand_rleEncodeChunks (bytes : List Byte) (w : Nat) (hw : 1 ≤ w) :
    expand ((rleEncodeChunks w bytes).map RlePair.plain) = bytes := by
  conv_rhs => rw [← chunks_cover bytes w hw]
  unfold rleEncodeChunks
  generalize chunks bytes.length w = cs
  induction cs with
  | nil => rfl
  | cons c cs ih =>
    simp only [List.flatMap_cons, List.map_append, expand_append, ih]
    rw [(rleEncode_spec c.1 _).expands]

theorem rleEncodeChunks_counts (bytes : List Byte) (w : Nat) :
    ∀ p ∈ (rleEncodeChunks w bytes).map RlePair.plain, 1 ≤ p.1 ∧ p.1 ≤ 255 := by
  intro p hp
  obtain ⟨x, hx, rfl⟩ := List.mem_map.mp hp
  obtain ⟨c, -, hc⟩ := List.mem_flatMap.mp hx
  exact (rleEncode_spec c.1 _).counts _ (List.mem_map.mpr ⟨x, hc, rfl⟩)

end Sys2Proof.Machine
end

