-- ==== Sys2Proof/Laws/Commands.lean ====
section
/-! SUPPORT. The laws of packing, of the baseline walk and of how far each loop can go; and after them
`exec_result`: everything that a command can do, said once. -/

namespace Sys2Proof.Machine

/-! ### Pack -/

section
variable {ct : Table CtEntry}

/-- Pack over symbols that have codes and fit goes on with what is left (40_huffman_encode R187). -/
theorem packFrom_stream (maxOut : Nat) (x : List Byte) : ∀ (i len : Nat) (rest : List Byte),
    (∀ b ∈ x, (ct.get b).valid = true) → len + (streamOf ct x).length ≤ 8 * maxOut →
    packFrom ct maxOut i len (x ++ rest) =
      (packFrom ct maxOut (i + x.length) (len + (streamOf ct x).length) rest).map (streamOf ct x ++ ·) := by
  induction x with
  | nil =>
    intro i len rest _ _
    simp only [streamOf, List.flatMap_nil, List.nil_append, List.length_nil, Nat.add_zero]
    cases packFrom ct maxOut i len rest <;> rfl
  | cons b x ih =>
    intro i len rest hv hl
    rw [streamOf_cons, List.length_append, CtEntry.length_code] at hl
    have hb := hv b List.mem_cons_self
    rw [List.cons_append, packFrom, if_neg (by simp [hb]), if_neg (by omega),
      ih (i + 1) _ rest (fun c hc => hv c (List.mem_cons_of_mem _ hc)) (by omega), streamOf_cons,
      List.length_append, CtEntry.length_code]
    have e1 : i + 1 + x.length = i + (b :: x).length := by simp; omega
    have e2 : len + (ct.get b).len.toNat + (streamOf ct x).length =
        len + ((ct.get b).len.toNat + (streamOf ct x).length) := by omega
    rw [e1, e2]
    cases packFrom ct maxOut (i + (b :: x).length)
      (len + ((ct.get b).len.toNat + (streamOf ct x).length)) rest <;> simp [Except.map]

/-- Pack succeeds with the codes in order, or reports the first symbol that has no code or does not fit. -/
theorem packFrom_cases (maxOut : Nat) (data : List Byte) : ∀ i len : Nat, len ≤ 8 * maxOut →
    ((∀ b ∈ data, (ct.get b).valid = true) ∧ len + (streamOf ct data).length ≤ 8 * maxOut ∧
      packFrom ct maxOut i len data = .ok (streamOf ct data)) ∨
    (∃ x b rest, data = x ++ b :: rest ∧ (∀ c ∈ x, (ct.get c).valid = true) ∧
      len + (streamOf ct x).length ≤ 8 * maxOut ∧
      (((ct.get b).valid = false ∧ packFrom ct maxOut i len data = .error ⟨.noCode, i + x.length⟩) ∨
        ((ct.get b).valid = true ∧
          8 * maxOut < len + (streamOf ct x).length + (ct.get b).len.toNat ∧
          packFrom ct maxOut i len data = .error ⟨.outOverflow, i + x.length⟩))) := by
  induction data with
  | nil =>
    intro i len hl
    left
    simp [packFrom, streamOf, hl]
  | cons b data ih =>
    intro i len hl
    cases hb : (ct.get b).valid with
    | false =>
      right
      exact ⟨[], b, data, rfl, by simp, by simpa [streamOf] using hl, .inl ⟨hb, by rw [packFrom, if_pos hb]; rfl⟩⟩
    | true =>
      by_cases hf : 8 * maxOut < len + (ct.get b).len.toNat
      · right
        refine ⟨[], b, data, rfl, by simp, by simpa [streamOf] using hl, .inr ⟨hb, by simpa [streamOf] using hf, ?_⟩⟩
        rw [packFrom, if_neg (by simp [hb]), if_pos hf]; rfl
      · rcases ih (i + 1) (len + (ct.get b).len.toNat) (by omega) with
          ⟨h1, h2, h3⟩ | ⟨x, c, rest, rfl, h1, h2, h3⟩
        · left
          refine ⟨?_, ?_, ?_⟩
          · simpa [hb] using h1
          · rw [streamOf_cons, List.length_append, CtEntry.length_code]; omega
          · rw [packFrom, if_neg (by simp [hb]), if_neg hf, h3, streamOf_cons]
        · right
          have hlen : (streamOf ct (b :: x)).length = (ct.get b).len.toNat + (streamOf ct x).length := by
            rw [streamOf_cons, List.length_append, CtEntry.length_code]
          refine ⟨b :: x, c, rest, rfl, by simpa [hb] using h1, by omega, ?_⟩
          rw [packFrom, if_neg (by simp [hb]), if_neg hf, hlen]
          have hi : i + 1 + x.length = i + (b :: x).length := by simp; omega
          rw [← hi]
          rcases h3 with ⟨h4, h5⟩ | ⟨h4, h5, h6⟩
          · exact .inl ⟨h4, by rw [h5]⟩
          · exact .inr ⟨h4, by omega, by rw [h6]⟩

end

/-! ### How far the walks go -/

theorem walkSymbol_bounds (bits : Bits) : ∀ (n : DecodeNode) (pos : Nat),
    (∃ s pos' bits', walkSymbol n pos bits = .ok (s, pos', bits') ∧
      pos' + bits'.length = pos + bits.length) ∨
    (∃ e, walkSymbol n pos bits = .error e ∧ e.pos ≤ pos + bits.length ∧
      (e.kind = .truncatedStream ∨ e.kind = .invalidBitSequence)) := by
  induction bits with
  | nil =>
    intro n pos
    cases n with
    | leaf s => exact .inl ⟨s, pos, [], rfl, rfl⟩
    | absent => exact .inr ⟨_, rfl, by simp, .inl rfl⟩
    | inner z o => exact .inr ⟨_, rfl, by simp, .inl rfl⟩
  | cons b bits ih =>
    intro n pos
    by_cases hn : ∃ s, n = .leaf s
    · obtain ⟨s, rfl⟩ := hn
      exact .inl ⟨s, pos, b :: bits, rfl, rfl⟩
    · by_cases hc : n.child b = .absent
      · right
        refine ⟨⟨.invalidBitSequence, pos⟩, ?_, by simp, .inr rfl⟩
        cases n with
        | leaf s => exact absurd ⟨s, rfl⟩ hn
        | absent => simp [walkSymbol]
        | inner z o => simp only [walkSymbol, hc]
      · rw [walkSymbol_cons (fun s h => hn ⟨s, h⟩) hc]
        rcases ih (n.child b) (pos + 1) with ⟨s, p', b', h1, h2⟩ | ⟨e, h1, h2, h3⟩
        · exact .inl ⟨s, p', b', h1, by simp only [List.length_cons]; omega⟩
        · exact .inr ⟨e, h1, by simp only [List.length_cons]; omega, h3⟩

theorem walkCounted_bounds (r : DecodeNode) (maxOut : Nat) : ∀ (k n pos : Nat) (bits : Bits), n ≤ maxOut →
    (∃ out last, walkCounted r maxOut k n pos bits = .ok (out, last) ∧ out.length = k ∧
      n + out.length ≤ maxOut ∧ last ≤ pos + bits.length) ∨
    (∃ e, walkCounted r maxOut k n pos bits = .error e ∧
      ((e.pos ≤ pos + bits.length ∧ (e.kind = .truncatedStream ∨ e.kind = .invalidBitSequence)) ∨
        (e.pos = maxOut ∧ e.kind = .outOverflow))) := by
  intro k
  induction k with
  | zero =>
    intro n pos bits hn
    exact .inl ⟨[], pos, rfl, rfl, by simpa using hn, by omega⟩
  | succ k ih =>
    intro n pos bits hn
    rcases walkSymbol_bounds bits r pos with ⟨s, p', b', h1, h2⟩ | ⟨e, h1, h2, h3⟩
    · by_cases hm : n = maxOut
      · exact .inr ⟨⟨.outOverflow, n⟩, by rw [walkCounted, h1]; simp only; rw [if_pos hm], .inr ⟨hm, rfl⟩⟩
      · rcases ih (n + 1) p' b' (by omega) with ⟨out, last, h3, h4, h5, h6⟩ | ⟨e, h3, h4⟩
        · left
          refine ⟨s :: out, last, ?_, by simp [h4], by simp only [List.length_cons]; omega, by omega⟩
          rw [walkCounted, h1]; simp only; rw [if_neg hm, h3]
        · right
          refine ⟨e, ?_, ?_⟩
          · rw [walkCounted, h1]; simp only; rw [if_neg hm, h3]
          · rcases h4 with ⟨h4, h5⟩ | h4
            · exact .inl ⟨by omega, h5⟩
            · exact .inr h4
    · exact .inr ⟨e, by rw [walkCounted, h1], .inl ⟨h2, h3⟩⟩

/-! ### The baseline walk -/

theorem walkBaseline_absent {r n : DecodeNode} {b : Bool} (h : n.child b = .absent) (maxOut : Nat)
    (inside : Bool) (k pos : Nat) (bits : Bits) :
    walkBaseline r maxOut n inside k pos (b :: bits) = .error ⟨.invalidBitSequence, pos⟩ := by
  simp only [walkBaseline, h]

theorem walkBaseline_inner {r n : DecodeNode} {b : Bool} (h : ∃ z o, n.child b = .inner z o)
    (maxOut : Nat) (inside : Bool) (k pos : Nat) (bits : Bits) :
    walkBaseline r maxOut n inside k pos (b :: bits) =
      walkBaseline r maxOut (n.child b) true k (pos + 1) bits := by
  obtain ⟨z, o, h⟩ := h
  simp only [walkBaseline, h, DecodeNode.symbol?]

theorem walkBaseline_leaf {r n : DecodeNode} {b : Bool} {s : Byte} (h : n.child b = .leaf s)
    (maxOut : Nat) (inside : Bool) (k pos : Nat) (bits : Bits) :
    walkBaseline r maxOut n inside k pos (b :: bits) =
      if k = maxOut then .error ⟨.outOverflow, k⟩
      else (walkBaseline r maxOut r false (k + 1) (pos + 1) bits).map
        fun o => (s :: o.1, o.2.1, o.2.2) := by
  simp only [walkBaseline, h, DecodeNode.symbol?]
  split
  · rfl
  · cases walkBaseline r maxOut r false (k + 1) (pos + 1) bits <;> rfl

theorem walkBaseline_bounds (r : DecodeNode) (maxOut : Nat) (bits : Bits) :
    ∀ (n : DecodeNode) (inside : Bool) (k pos : Nat), k ≤ maxOut →
    (∃ out tail, walkBaseline r maxOut n inside k pos bits = .ok (out, pos + bits.length, tail) ∧
      k + out.length ≤ maxOut) ∨
    (∃ e, walkBaseline r maxOut n inside k pos bits = .error e ∧
      ((e.pos ≤ pos + bits.length ∧ e.kind = .invalidBitSequence) ∨
        (e.pos = maxOut ∧ e.kind = .outOverflow))) := by
  induction bits with
  | nil =>
    intro n inside k pos hk
    exact .inl ⟨[], inside, by cases n <;> rfl, by simpa using hk⟩
  | cons b bits ih =>
    intro n inside k pos hk
    have hpos : pos + 1 + bits.length = pos + (b :: bits).length := by simp; omega
    cases hc : n.child b with
    | absent => exact .inr ⟨_, walkBaseline_absent hc .., .inl ⟨by simp, rfl⟩⟩
    | inner z o =>
      rw [walkBaseline_inner ⟨z, o, hc⟩, ← hpos]
      exact ih _ _ _ _ hk
    | leaf s =>
      rw [walkBaseline_leaf hc]
      by_cases hm : k = maxOut
      · exact .inr ⟨⟨.outOverflow, k⟩, by rw [if_pos hm], .inr ⟨hm, rfl⟩⟩
      · rw [if_neg hm]
        rcases ih r false (k + 1) (pos + 1) (by omega) with ⟨out, tail, h1, h2⟩ | ⟨e, h1, h2⟩
        · exact .inl ⟨s :: out, tail, by rw [h1, hpos]; rfl, by simp only [List.length_cons]; omega⟩
        · exact .inr ⟨e, by rw [h1]; rfl, by rw [← hpos]; exact h2⟩

/-- The baseline walk along a path of inner nodes (41_huffman_decode R233). -/
theorem walkBaseline_inside {r : DecodeNode} (maxOut : Nat) (p : Bits) :
    ∀ (n : DecodeNode) (inside : Bool) (k pos : Nat) (rest : Bits), (∃ z o, n.walk p = .inner z o) →
      walkBaseline r maxOut n inside k pos (p ++ rest) =
        walkBaseline r maxOut (n.walk p) (inside || p != []) k (pos + p.length) rest := by
  induction p with
  | nil => intro n inside k pos rest _; simp
  | cons b p ih =>
    intro n inside k pos rest h
    rw [DecodeNode.walk_cons] at h ⊢
    have hc : ∃ z o, n.child b = .inner z o := by
      obtain ⟨z, o, h⟩ := h
      cases hn : n.child b with
      | inner z o => exact ⟨z, o, rfl⟩
      | absent => rw [hn, DecodeNode.walk_absent] at h; cases h
      | leaf s =>
        rw [hn] at h
        cases p with
        | nil => simp at h
        | cons c p => rw [DecodeNode.walk_leaf_cons] at h; cases h
    rw [List.cons_append, walkBaseline_inner hc, ih _ _ _ _ _ h]
    have hpos : pos + 1 + p.length = pos + (b :: p).length := by simp; omega
    rw [hpos, show (b :: p != []) = true from rfl, Bool.or_true, Bool.true_or]

section
variable {ct : Table CtEntry} {r : DecodeNode}

/-- Reading one nonempty code from the root. -/
theorem walkBaseline_code (h : TreeOf ct r) {s : Byte} (hv : (ct.get s).valid = true)
    (hne : (ct.get s).code ≠ []) (maxOut k pos : Nat) (rest : Bits) :
    walkBaseline r maxOut r false k pos ((ct.get s).code ++ rest) =
      if k = maxOut then .error ⟨.outOverflow, k⟩
      else (walkBaseline r maxOut r false (k + 1) (pos + (ct.get s).code.length) rest).map
        fun o => (s :: o.1, o.2.1, o.2.2) := by
  obtain ⟨p, b, hpb⟩ : ∃ p b, (ct.get s).code = p ++ [b] :=
    ⟨_, _, (List.dropLast_append_getLast hne).symm⟩
  have hin : ∃ z o, r.walk p = .inner z o :=
    h.inner_of_inside ⟨s, hv, by rw [hpb]; exact ⟨[b], rfl⟩, by rw [hpb]; simp⟩
  have hleaf : (r.walk p).child b = .leaf s := by
    have := (h.leaves _ s).mpr ⟨hv, rfl⟩
    rw [hpb, DecodeNode.walk_append, DecodeNode.walk_cons, DecodeNode.walk_nil] at this
    exact this
  rw [hpb, List.append_assoc, walkBaseline_inside maxOut p _ _ _ _ _ hin, List.singleton_append,
    walkBaseline_leaf hleaf]
  have hpos : pos + p.length + 1 = pos + (p ++ [b]).length := by simp; omega
  rw [hpos]

/-- Over the nonempty codes of a symbol sequence the baseline walk decodes it, and goes on with what is
left (41_huffman_decode R233). -/
theorem walkBaseline_stream (h : TreeOf ct r) (maxOut : Nat) (x : List Byte) :
    ∀ (k pos : Nat) (rest : Bits),
      (∀ b ∈ x, (ct.get b).valid = true ∧ (ct.get b).code ≠ []) → k + x.length ≤ maxOut →
      walkBaseline r maxOut r false k pos (streamOf ct x ++ rest) =
        (walkBaseline r maxOut r false (k + x.length) (pos + (streamOf ct x).length) rest).map
          fun o => (x ++ o.1, o.2.1, o.2.2) := by
  induction x with
  | nil =>
    intro k pos rest _ _
    simp only [streamOf, List.flatMap_nil, List.nil_append, List.length_nil, Nat.add_zero]
    cases walkBaseline r maxOut r false k pos rest <;> rfl
  | cons b x ih =>
    intro k pos rest hv hk
    simp only [List.length_cons] at hk
    obtain ⟨h1, h2⟩ := hv b List.mem_cons_self
    rw [streamOf_cons, List.append_assoc, walkBaseline_code h h1 h2, if_neg (by omega),
      ih _ _ _ (fun c hc => hv c (List.mem_cons_of_mem _ hc)) (by omega), List.length_append]
    have e1 : k + 1 + x.length = k + (b :: x).length := by simp; omega
    rw [e1, ← Nat.add_assoc]
    cases walkBaseline r maxOut r false (k + (b :: x).length)
      (pos + (ct.get b).code.length + (streamOf ct x).length) rest <;> rfl

end

/-! ### How far the RLE loops go -/

theorem expandPairs_cases (maxOut : Nat) (bytes : List Byte) : ∀ src o : Nat, o ≤ maxOut →
    (o + (expand (pairsOf bytes)).length ≤ maxOut ∧
      expandPairs maxOut src o bytes = .ok (expand (pairsOf bytes))) ∨
    (∃ e, expandPairs maxOut src o bytes = .error e ∧ e.kind = .outOverflow ∧
      e.pos < src + bytes.length) := by
  induction bytes using pairsOf.induct with
  | case1 c v rest ih =>
    intro src o ho
    by_cases h : maxOut < o + c.toNat
    · exact .inr ⟨⟨.outOverflow, src⟩, by rw [expandPairs, if_pos h], rfl, by simp⟩
    · rcases ih (src + 2) (o + c.toNat) (by omega) with ⟨h1, h2⟩ | ⟨e, h1, h2, h3⟩
      · left
        rw [pairsOf, expand_cons, expandPairs, if_neg h, h2]
        exact ⟨by simp only [List.length_append, List.length_replicate]; omega, rfl⟩
      · right
        exact ⟨e, by rw [expandPairs, if_neg h, h1], h2, by simp only [List.length_cons]; omega⟩
  | case2 bytes hb =>
    intro src o ho
    left
    have hp : pairsOf bytes = [] := by rw [pairsOf]; exact hb
    rw [hp]
    exact ⟨by simpa using ho, by rw [expandPairs]; exacts [rfl, hb]⟩

/-! ### Everything a command can do -/

/-- The start-check errors of each command (60_exceptions R352). -/
def startErrors : Instr → List ErrKind
  | .nop => []
  | .hufFreq => [.inLenTooLarge]
  | .hufBuild => [.emptyInput]
  | .hufPack => [.inLenTooLarge]
  | .hufEnc => [.inLenTooLarge]
  | .hufDec => [.missingCodeTable, .badCodeTable, .inLenTooLarge]
  | .hufDecB => [.missingCodeTable, .badCodeTable, .inLenTooLarge]
  | .rleEnc => [.inLenTooLarge]
  | .rleDec => [.inLenTooLarge, .rleOddLength]
  | .rleEncPar => [.inLenTooLarge, .badWorkers]
  | .rleDecPar => [.inLenTooLarge, .rleOddLength, .badWorkers]
  | .clearTables => []

/-- Every way in which a command can end, from state `s`: the success or the error, and the whole state
that it leaves. -/
inductive CommandResult (s : State) (i : Instr) : State → Prop where
  | startError (e : CodecError) (kind : e.kind ∈ startErrors i)
      (pos : e.pos < 256 ∨ e.pos ≤ s.cfg.maxIn) : CommandResult s i (s.reportError e)
  | nop (which : i = .nop) : CommandResult s i s.complete
  | clearTables (which : i = .clearTables) : CommandResult s i s.clearTables.complete
  | freq (which : i = .hufFreq) : CommandResult s i s.writeFreq.complete
  | build (which : i = .hufBuild) (present : ∃ b, s.freqOf b ≠ 0) :
      CommandResult s i s.writeTable.complete
  | pack (which : i = .hufPack) (fits : s.inLen.toNat ≤ s.cfg.maxIn)
      (coded : ∀ b ∈ s.inData, (s.ctOf b).valid = true)
      (room : (streamOf s.ct s.inData).length ≤ 8 * s.cfg.maxOut) :
      CommandResult s i (s.writePacked (streamOf s.ct s.inData)).complete
  | packError (e : CodecError) (which : i = .hufPack) (fits : s.inLen.toNat ≤ s.cfg.maxIn)
      (kind : e.kind = .noCode ∨ e.kind = .outOverflow) (pos : e.pos < s.inLen.toNat) :
      CommandResult s i (s.failPack e)
  | encodeEmpty (which : i = .hufEnc) (empty : s.inLen = 0) : CommandResult s i s.encodeEmpty.complete
  | encode (which : i = .hufEnc) (fits : s.inLen.toNat ≤ s.cfg.maxIn) (nonempty : s.inLen ≠ 0)
      (room : (streamOf s.writeFreq.writeTable.ct s.inData).length ≤ 8 * s.cfg.maxOut) :
      CommandResult s i
        (s.writeFreq.writeTable.writePacked (streamOf s.writeFreq.writeTable.ct s.inData)).complete
  | encodeError (e : CodecError) (which : i = .hufEnc) (fits : s.inLen.toNat ≤ s.cfg.maxIn)
      (nonempty : s.inLen ≠ 0) (kind : e.kind = .outOverflow) (pos : e.pos < s.inLen.toNat) :
      CommandResult s i (s.writeFreq.writeTable.failPack e)
  | decode (out : List Byte) (pos : Nat) (tail : Bool) (which : i = .hufDec ∨ i = .hufDecB)
      (fits : s.inLen.toNat ≤ s.cfg.maxIn) (room : out.length ≤ s.cfg.maxOut)
      (read : pos ≤ 8 * s.inLen.toNat) (mode : tail = true → i = .hufDecB) :
      CommandResult s i ((s.writeDecoded out pos).complete tail)
  | decodeError (e : CodecError) (which : i = .hufDec ∨ i = .hufDecB)
      (fits : s.inLen.toNat ≤ s.cfg.maxIn)
      (kind : e.kind = .invalidBitSequence ∨ e.kind = .outOverflow ∨
        (e.kind = .truncatedStream ∧ i = .hufDec))
      (pos : e.pos ≤ 8 * s.inLen.toNat ∨ e.pos = s.cfg.maxOut) : CommandResult s i (s.failDecode e)
  | rleEncode (pairs : List (Nat × Byte)) (which : i = .rleEnc ∨ i = .rleEncPar)
      (fits : s.inLen.toNat ≤ s.cfg.maxIn) (room : 2 * pairs.length ≤ s.cfg.maxOut) :
      CommandResult s i
        { s.writeOut (pairBytes pairs) with runs := BitVec.ofNat 32 pairs.length }.complete
  | rleDecode (out : List Byte) (which : i = .rleDec ∨ i = .rleDecPar)
      (fits : s.inLen.toNat ≤ s.cfg.maxIn) (room : out.length ≤ s.cfg.maxOut) :
      CommandResult s i
        { s.writeOut out with runs := BitVec.ofNat 32 (s.inLen.toNat / 2) }.complete
  | rleError (e : CodecError) (which : i = .rleEnc ∨ i = .rleEncPar ∨ i = .rleDec ∨ i = .rleDecPar)
      (fits : s.inLen.toNat ≤ s.cfg.maxIn) (kind : e.kind = .outOverflow)
      (pos : e.pos ≤ s.inLen.toNat) : CommandResult s i (s.failRle e)

theorem State.not_inTooLong {s : State} (h : s.inTooLong = false) : s.inLen.toNat ≤ s.cfg.maxIn := by
  simpa [State.inTooLong] using h

theorem State.inTooLong_eq_false {s : State} (h : s.inLen.toNat ≤ s.cfg.maxIn) : s.inTooLong = false := by
  simpa [State.inTooLong] using h

/-- A count of an input fits in its FREQ entry (00_scope R12). -/
theorem countSymbols_toNat {data : List Byte} (h : data.length < 2 ^ 32) (b : Byte) :
    ((countSymbols data).get b).toNat = data.count b := by
  rw [countSymbols, Table.get_ofFn, BitVec.toNat_ofNat, Nat.mod_eq_of_lt]
  exact Nat.lt_of_le_of_lt List.count_le_length h

theorem State.inData_lt (s : State) : s.inData.length < 2 ^ 32 := by
  rw [State.inData_length]; exact s.inLen.isLt

/-- Every input symbol has a code after the FREQ and BUILD stages (40_huffman_encode R189). -/
theorem State.coded_after_build (s : State) :
    ∀ b ∈ s.inData, (s.writeFreq.writeTable.ct.get b).valid = true := by
  intro b hb
  show ((tableOf (codesOf (countSymbols s.inData))).get b).valid = true
  rw [tableOf_valid]
  intro h0
  have h1 := countSymbols_toNat s.inData_lt b
  rw [h0] at h1
  have := List.count_pos_iff.mpr hb
  simp at h1
  omega

theorem State.packBody_cases (s : State) :
    ((∀ b ∈ s.inData, (s.ctOf b).valid = true) ∧
      (streamOf s.ct s.inData).length ≤ 8 * s.cfg.maxOut ∧
      s.packBody = (s.writePacked (streamOf s.ct s.inData)).complete) ∨
    (∃ e : CodecError, s.packBody = s.failPack e ∧ e.pos < s.inLen.toNat ∧
      (e.kind = .noCode ∧ (∃ b ∈ s.inData, (s.ctOf b).valid = false) ∨ e.kind = .outOverflow)) := by
  rcases packFrom_cases (ct := s.ct) s.cfg.maxOut s.inData 0 0 (by omega) with
    ⟨h1, h2, h3⟩ | ⟨x, b, rest, hd, h1, h2, h3⟩
  · exact .inl ⟨h1, by omega, by rw [State.packBody, h3]⟩
  · right
    have hl : x.length < s.inLen.toNat := by
      rw [← State.inData_length, hd]; simp
    rcases h3 with ⟨h4, h5⟩ | ⟨-, -, h5⟩
    · exact ⟨_, by rw [State.packBody, h5], by simpa using hl,
        .inl ⟨rfl, b, by rw [hd]; simp, h4⟩⟩
    · exact ⟨_, by rw [State.packBody, h5], by simpa using hl, .inr rfl⟩

theorem State.decodeWith_cases {s : State} {needed : Bool} {body : State → DecodeNode → State} {t : State}
    (h : s.decodeWith needed body = t) :
    (∃ e : CodecError, t = s.reportError e ∧ (e.kind = .missingCodeTable ∨ e.kind = .badCodeTable) ∧
      e.pos < 256) ∨
    t = (s.writeDecoded [] 0).complete ∨ ∃ root, t = body s root := by
  subst h
  unfold State.decodeWith
  split
  · split
    · exact .inl ⟨⟨.missingCodeTable, 0⟩, rfl, .inl rfl, by simp⟩
    · exact .inr (.inl rfl)
  · split
    · exact .inr (.inr ⟨_, rfl⟩)
    · rename_i e he
      obtain ⟨h1, h2⟩ := rebuild_error he
      exact .inl ⟨e, rfl, .inr h1, h2⟩

theorem length_unpack_inData (s : State) : (unpackBits s.inData).length = 8 * s.inLen.toNat := by
  rw [length_unpackBits, State.inData_length]

theorem State.encodePairs_cases (s : State) (ps : List RlePair)
    (hpos : ∀ a p b, ps = a ++ p :: b → p.start ≤ s.inLen.toNat) :
    (2 * ps.length ≤ s.cfg.maxOut ∧ s.encodePairs ps =
      { s.writeOut (pairBytes (ps.map RlePair.plain)) with
        runs := BitVec.ofNat 32 ps.length }.complete) ∨
    (∃ e : CodecError, s.encodePairs ps = s.failRle e ∧ e.kind = .outOverflow ∧
      e.pos ≤ s.inLen.toNat) := by
  rcases emitPairs_cases s.cfg.maxOut ps 0 (by omega) with ⟨h1, h2⟩ | ⟨a, p, b, hp, -, -, h2⟩
  · left
    refine ⟨by omega, ?_⟩
    rw [State.encodePairs, h2]
    simp only [pairBytes_length, List.length_map]
    rw [Nat.mul_div_cancel_left _ (by omega)]
  · exact .inr ⟨_, by rw [State.encodePairs, h2], rfl, hpos a p b hp⟩

theorem State.decodeRegions_eq (s : State) : s.decodeRegions = s.decodePairs := by
  unfold State.decodeRegions State.decodePairs
  rcases regionPass_spec s.cfg.maxOut s.inData 0 0 s.outMem [] rfl with
    ⟨out, regions, h1, h2, h3⟩ | ⟨e, h1, h2⟩
  · rw [h1, h2]
    simp only [Memory.store_zero_nil, List.nil_append] at h3
    simp only [h3, Nat.zero_add]
    rfl
  · rw [h1, h2]

theorem State.decodePairs_cases (s : State) :
    (∃ out : List Byte, out.length ≤ s.cfg.maxOut ∧ out = expand (pairsOf s.inData) ∧ s.decodePairs =
      { s.writeOut out with runs := BitVec.ofNat 32 (s.inLen.toNat / 2) }.complete) ∨
    (∃ e : CodecError, s.decodePairs = s.failRle e ∧ e.kind = .outOverflow ∧ e.pos ≤ s.inLen.toNat) := by
  unfold State.decodePairs
  rcases expandPairs_cases s.cfg.maxOut s.inData 0 0 (by omega) with ⟨h1, h2⟩ | ⟨e, h1, h2, h3⟩
  · exact .inl ⟨_, by omega, rfl, by rw [h2]⟩
  · rw [State.inData_length] at h3
    exact .inr ⟨e, by rw [h1], h2, by omega⟩

/-- The scan of a chunk starts inside the input. -/
theorem rleEncode_start_le {st : Nat} {bytes : List Byte} {p : RlePair} (h : p ∈ rleEncode st bytes) :
    p.start ≤ st + bytes.length := by
  obtain ⟨a, b, hab⟩ := List.append_of_mem h
  rw [rleEncode_starts hab]
  have hs := (rleEncode_spec st bytes).expands
  rw [hab, List.map_append, expand_append] at hs
  have := congrArg List.length hs
  rw [List.length_append] at this
  omega

theorem mem_chunks_le {n w : Nat} (hw : 1 ≤ w) {c : Nat × Nat} (h : c ∈ chunks n w) :
    c.1 ≤ c.2 ∧ c.2 ≤ n := by
  unfold chunks at h
  split at h
  · simp only [List.mem_singleton] at h
    subst h; simp
  · have hq : n / w * w ≤ n := Nat.div_mul_le_self n w
    rw [List.mem_append] at h
    rcases h with h | h
    · obtain ⟨k, hk, rfl⟩ := List.mem_map.mp h
      rw [List.mem_range] at hk
      refine ⟨Nat.mul_le_mul_right _ (by omega), ?_⟩
      calc (k + 1) * (n / w) ≤ w * (n / w) := Nat.mul_le_mul_right _ (by omega)
        _ ≤ n := by rw [Nat.mul_comm]; exact hq
    · simp only [List.mem_singleton] at h
      subst h
      refine ⟨?_, le_refl n⟩
      calc (w - 1) * (n / w) ≤ w * (n / w) := Nat.mul_le_mul_right _ (by omega)
        _ ≤ n := by rw [Nat.mul_comm]; exact hq

theorem slice_length {bytes : List Byte} {lo hi : Nat} (h : hi ≤ bytes.length) :
    (slice bytes lo hi).length = hi - lo := by
  rw [slice, List.length_take, List.length_drop]; omega

/-- Every command, in every state, ends in one of the ways of `CommandResult`. -/
theorem exec_result (i : Instr) (s : State) : ∃ t, exec i s = .next t ∧ CommandResult s i t := by
  have tooLong : ∀ i, .inLenTooLarge ∈ startErrors i → CommandResult s i (s.failStart .inLenTooLarge 0) :=
    fun i h => .startError ⟨.inLenTooLarge, 0⟩ h (.inl (by simp))
  cases i with
  | nop => exact ⟨_, rfl, .nop rfl⟩
  | clearTables => exact ⟨_, rfl, .clearTables rfl⟩
  | hufFreq =>
    simp only [exec, execHufFreq]
    split
    · exact ⟨_, rfl, tooLong _ (by decide)⟩
    · exact ⟨_, rfl, .freq rfl⟩
  | hufBuild =>
    simp only [exec, execHufBuild]
    split
    · exact ⟨_, rfl, .startError ⟨.emptyInput, 0⟩ (by decide) (.inl (by simp))⟩
    · rename_i h
      refine ⟨_, rfl, .build rfl ?_⟩
      rw [distinctSymbols_eq_zero] at h
      push Not at h
      exact h
  | hufPack =>
    simp only [exec, execHufPack]
    split
    · exact ⟨_, rfl, tooLong _ (by decide)⟩
    · rename_i h
      have hf := State.not_inTooLong (Bool.eq_false_iff.mpr h)
      refine ⟨_, rfl, ?_⟩
      rcases s.packBody_cases with ⟨h1, h2, h3⟩ | ⟨e, h1, h2, h3⟩
      · rw [h3]; exact .pack rfl hf h1 h2
      · rw [h1]; exact .packError e rfl hf (h3.imp And.left id) h2
  | hufEnc =>
    simp only [exec, execHufEnc]
    split
    · exact ⟨_, rfl, tooLong _ (by decide)⟩
    · rename_i h
      have hf := State.not_inTooLong (Bool.eq_false_iff.mpr h)
      split
      · rename_i h0
        exact ⟨_, rfl, .encodeEmpty rfl h0⟩
      · rename_i h0
        refine ⟨_, rfl, ?_⟩
        rcases s.writeFreq.writeTable.packBody_cases with ⟨h1, h2, h3⟩ | ⟨e, h1, h2, h3⟩
        · rw [h3]; exact .encode rfl hf h0 h2
        · rw [h1]
          refine .encodeError e rfl hf h0 ?_ h2
          rcases h3 with ⟨-, b, hb, hc⟩ | h3
          · rw [show s.writeFreq.writeTable.ctOf b = s.writeFreq.writeTable.ct.get b from rfl,
              s.coded_after_build b hb] at hc
            cases hc
          · exact h3
  | hufDec =>
    simp only [exec, execHufDec]
    split
    · exact ⟨_, rfl, tooLong _ (by decide)⟩
    · rename_i h
      have hf := State.not_inTooLong (Bool.eq_false_iff.mpr h)
      refine ⟨_, rfl, ?_⟩
      rcases State.decodeWith_cases (rfl : s.decodeWith (s.symCount != 0) State.countedBody = _) with
        ⟨e, h1, h2, h3⟩ | h1 | ⟨root, h1⟩
      · rw [h1]; exact .startError e (by rcases h2 with h2 | h2 <;> rw [h2] <;> decide) (.inl h3)
      · rw [h1]; exact .decode [] 0 false (.inl rfl) hf (by simp) (by omega) (by simp)
      · rw [h1, State.countedBody]
        rcases walkCounted_bounds root s.cfg.maxOut s.symCount.toNat 0 0 (unpackBits s.inData)
          (by omega) with ⟨out, last, h2, h3, h4, h5⟩ | ⟨e, h2, h3⟩
        · rw [h2]
          rw [length_unpack_inData] at h5
          exact .decode out last false (.inl rfl) hf (by omega) (by omega) (by simp)
        · rw [h2]
          rw [length_unpack_inData] at h3
          rcases h3 with ⟨h3, h4⟩ | ⟨h3, h4⟩
          · exact .decodeError e (.inl rfl) hf
              (h4.elim (fun h => .inr (.inr ⟨h, rfl⟩)) fun h => .inl h) (.inl (by omega))
          · exact .decodeError e (.inl rfl) hf (.inr (.inl h4)) (.inr h3)
  | hufDecB =>
    simp only [exec, execHufDecB]
    split
    · exact ⟨_, rfl, tooLong _ (by decide)⟩
    · rename_i h
      have hf := State.not_inTooLong (Bool.eq_false_iff.mpr h)
      refine ⟨_, rfl, ?_⟩
      rcases State.decodeWith_cases (rfl : s.decodeWith (s.inLen != 0) State.baselineBody = _) with
        ⟨e, h1, h2, h3⟩ | h1 | ⟨root, h1⟩
      · rw [h1]; exact .startError e (by rcases h2 with h2 | h2 <;> rw [h2] <;> decide) (.inl h3)
      · rw [h1]; exact .decode [] 0 false (.inr rfl) hf (by simp) (by omega) (by simp)
      · rw [h1, State.baselineBody]
        rcases walkBaseline_bounds root s.cfg.maxOut (unpackBits s.inData) root false 0 0
          (by omega) with ⟨out, tail, h2, h3⟩ | ⟨e, h2, h3⟩
        · rw [h2]
          exact .decode out _ tail (.inr rfl) hf (by omega) (by rw [length_unpack_inData]; omega)
            fun _ => rfl
        · rw [h2]
          rw [length_unpack_inData] at h3
          rcases h3 with ⟨h3, h4⟩ | ⟨h3, h4⟩
          · exact .decodeError e (.inr rfl) hf (.inl h4) (.inl (by omega))
          · exact .decodeError e (.inr rfl) hf (.inr (.inl h4)) (.inr h3)
  | rleEnc =>
    simp only [exec, execRleEnc]
    split
    · exact ⟨_, rfl, tooLong _ (by decide)⟩
    · rename_i h
      have hf := State.not_inTooLong (Bool.eq_false_iff.mpr h)
      refine ⟨_, rfl, ?_⟩
      rcases s.encodePairs_cases (rleEncode 0 s.inData) (fun a p b hab => by
          have := rleEncode_start_le (p := p) (by rw [hab]; simp : p ∈ rleEncode 0 s.inData)
          rw [State.inData_length] at this
          omega) with ⟨h1, h2⟩ | ⟨e, h1, h2, h3⟩
      · rw [h2, ← List.length_map (as := rleEncode 0 s.inData) RlePair.plain]
        exact .rleEncode _ (.inl rfl) hf (by simpa using h1)
      · rw [h1]; exact .rleError e (.inl rfl) hf h2 h3
  | rleEncPar =>
    simp only [exec, execRleEncPar]
    split
    · exact ⟨_, rfl, tooLong _ (by decide)⟩
    · rename_i h
      have hf := State.not_inTooLong (Bool.eq_false_iff.mpr h)
      split
      · exact ⟨_, rfl, .startError ⟨.badWorkers, 0⟩ (by decide) (.inl (by simp))⟩
      · rename_i hw
        have hw1 : 1 ≤ s.workers.toNat := by
          simp [State.badWorkers] at hw; omega
        refine ⟨_, rfl, ?_⟩
        rcases s.encodePairs_cases (rleEncodeChunks s.workers.toNat s.inData) (fun a p b hab => by
            have hp : p ∈ rleEncodeChunks s.workers.toNat s.inData := by rw [hab]; simp
            obtain ⟨c, hc, hpc⟩ := List.mem_flatMap.mp hp
            obtain ⟨h1, h2⟩ := mem_chunks_le hw1 hc
            have := rleEncode_start_le hpc
            rw [slice_length h2] at this
            rw [State.inData_length] at h2
            omega) with ⟨h1, h2⟩ | ⟨e, h1, h2, h3⟩
        · rw [h2, ← List.length_map (as := rleEncodeChunks s.workers.toNat s.inData) RlePair.plain]
          exact .rleEncode _ (.inr rfl) hf (by simpa using h1)
        · rw [h1]; exact .rleError e (.inr (.inl rfl)) hf h2 h3
  | rleDec =>
    simp only [exec, execRleDec]
    split
    · exact ⟨_, rfl, tooLong _ (by decide)⟩
    · rename_i h
      have hf := State.not_inTooLong (Bool.eq_false_iff.mpr h)
      split
      · exact ⟨_, rfl, .startError ⟨.rleOddLength, s.inLen.toNat - 1⟩ (by simp [startErrors])
          (.inr (Nat.le_trans (Nat.sub_le _ _) hf))⟩
      · refine ⟨_, rfl, ?_⟩
        rcases s.decodePairs_cases with ⟨out, h1, -, h2⟩ | ⟨e, h1, h2, h3⟩
        · rw [h2]; exact .rleDecode out (.inl rfl) hf h1
        · rw [h1]; exact .rleError e (.inr (.inr (.inl rfl))) hf h2 h3
  | rleDecPar =>
    simp only [exec, execRleDecPar]
    split
    · exact ⟨_, rfl, tooLong _ (by decide)⟩
    · rename_i h
      have hf := State.not_inTooLong (Bool.eq_false_iff.mpr h)
      split
      · exact ⟨_, rfl, .startError ⟨.badWorkers, 0⟩ (by decide) (.inl (by simp))⟩
      · split
        · exact ⟨_, rfl, .startError ⟨.rleOddLength, s.inLen.toNat - 1⟩ (by simp [startErrors])
            (.inr (Nat.le_trans (Nat.sub_le _ _) hf))⟩
        · refine ⟨_, rfl, ?_⟩
          rw [s.decodeRegions_eq]
          rcases s.decodePairs_cases with ⟨out, h1, -, h2⟩ | ⟨e, h1, h2, h3⟩
          · rw [h2]; exact .rleDecode out (.inr rfl) hf h1
          · rw [h1]; exact .rleError e (.inr (.inr (.inr rfl))) hf h2 h3

theorem exec_cases {i : Instr} {s t : State} (h : exec i s = .next t) : CommandResult s i t := by
  obtain ⟨u, hu, hr⟩ := exec_result i s
  rw [hu] at h
  cases h
  exact hr

/-! ### Past the start checks -/

theorem succeeded_complete {s u : State} (h : u.status.overrun = s.status.overrun) (p : Bool) :
    Succeeded s (u.complete p) p := ⟨rfl, rfl, rfl, rfl, rfl, h, rfl, rfl⟩

theorem failed_reportError {s u : State} (h : u.status.overrun = s.status.overrun) (e : CodecError) :
    Failed s (u.reportError e) e.kind e.pos := ⟨rfl, rfl, rfl, rfl, rfl, h, rfl, rfl⟩

theorem State.badWorkers_eq_false {s : State} (h1 : 1 ≤ s.workers.toNat)
    (h2 : s.workers.toNat ≤ s.cfg.maxWorkers) : s.badWorkers = false := by
  simp [State.badWorkers]
  omega

theorem exec_hufFreq {s : State} (h : s.inLen.toNat ≤ s.cfg.maxIn) :
    exec .hufFreq s = .next s.writeFreq.complete := if_neg (by simp [State.inTooLong_eq_false h])

theorem exec_hufBuild {s : State} (h : ∃ b, s.freqOf b ≠ 0) :
    exec .hufBuild s = .next s.writeTable.complete := by
  refine if_neg fun h0 => ?_
  obtain ⟨b, hb⟩ := h
  exact hb ((distinctSymbols_eq_zero _).mp h0 b)

theorem exec_hufPack {s : State} (h : s.inLen.toNat ≤ s.cfg.maxIn) : exec .hufPack s = .next s.packBody :=
  if_neg (by simp [State.inTooLong_eq_false h])

theorem exec_hufEnc {s : State} (h : s.inLen.toNat ≤ s.cfg.maxIn) (h0 : s.inLen ≠ 0) :
    exec .hufEnc s = .next s.writeFreq.writeTable.packBody :=
  (if_neg (by simp [State.inTooLong_eq_false h])).trans (if_neg h0)

theorem exec_hufDec {s : State} (h : s.inLen.toNat ≤ s.cfg.maxIn) :
    exec .hufDec s = .next (s.decodeWith (s.symCount != 0) State.countedBody) :=
  if_neg (by simp [State.inTooLong_eq_false h])

theorem exec_hufDecB {s : State} (h : s.inLen.toNat ≤ s.cfg.maxIn) :
    exec .hufDecB s = .next (s.decodeWith (s.inLen != 0) State.baselineBody) :=
  if_neg (by simp [State.inTooLong_eq_false h])

/-- With a table that rebuilds, the decoders walk. -/
theorem State.decodeWith_walk {s : State} {root : DecodeNode} (h : ∃ b, (s.ctOf b).valid = true)
    (hr : rebuild s.ct = .ok root) (needed : Bool) (body : State → DecodeNode → State) :
    s.decodeWith needed body = body s root := by
  unfold State.decodeWith
  rw [if_neg, hr]
  intro h0
  obtain ⟨b, hb⟩ := h
  rw [State.ctOf, (validEntries_eq_zero _).mp h0 b] at hb
  cases hb

theorem exec_rleEnc {s : State} (h : s.inLen.toNat ≤ s.cfg.maxIn) :
    exec .rleEnc s = .next (s.encodePairs (rleEncode 0 s.inData)) :=
  if_neg (by simp [State.inTooLong_eq_false h])

theorem exec_rleEncPar {s : State} (h : s.inLen.toNat ≤ s.cfg.maxIn) (h1 : 1 ≤ s.workers.toNat)
    (h2 : s.workers.toNat ≤ s.cfg.maxWorkers) :
    exec .rleEncPar s = .next (s.encodePairs (rleEncodeChunks s.workers.toNat s.inData)) :=
  (if_neg (by simp [State.inTooLong_eq_false h])).trans (if_neg (by simp [State.badWorkers_eq_false h1 h2]))

theorem exec_rleDec {s : State} (h : s.inLen.toNat ≤ s.cfg.maxIn) (h2 : s.inLen.toNat % 2 = 0) :
    exec .rleDec s = .next s.decodePairs :=
  (if_neg (by simp [State.inTooLong_eq_false h])).trans (if_neg (by simp [State.oddLength, h2]))

theorem exec_rleDecPar {s : State} (h : s.inLen.toNat ≤ s.cfg.maxIn) (h2 : s.inLen.toNat % 2 = 0)
    (h3 : 1 ≤ s.workers.toNat) (h4 : s.workers.toNat ≤ s.cfg.maxWorkers) :
    exec .rleDecPar s = .next s.decodePairs := by
  rw [← State.decodeRegions_eq]
  exact (if_neg (by simp [State.inTooLong_eq_false h])).trans
    ((if_neg (by simp [State.badWorkers_eq_false h3 h4])).trans (if_neg (by simp [State.oddLength, h2])))

end Sys2Proof.Machine
end

