-- ==== Sys2Proof/Laws/Host.lean ====
section
/-! SUPPORT. The laws of the host's accesses: what a location is, the words of IN, OUT and CT, and what a bus
read or write and one input do (20_memory R90–R111, 43_control R322–R327). -/

namespace Sys2Proof.Machine

/-- The bounds that a legal configuration gives (00_scope R10). -/
theorem Config.bounds {c : Config} (h : c.wf = true) :
    1 ≤ c.maxIn ∧ c.maxIn ≤ 2 ^ 28 ∧ 1 ≤ c.maxOut ∧ c.maxOut ≤ 2 ^ 28 ∧ c.maxWorkers ≤ 255 := by
  simp [Config.wf] at h
  omega

theorem toNat_word {n : Nat} (h : n < 2 ^ 32) : (BitVec.ofNat 32 n).toNat = n := by
  rw [BitVec.toNat_ofNat, Nat.mod_eq_of_lt h]

/-! ### Locations -/

theorem dataLocation_input {cfg : Config} {i k : Nat} (h : i + k ≤ cfg.maxIn) :
    dataLocation cfg (inBase + i) k = some (.input i) := by
  unfold dataLocation
  rw [if_pos (by omega)]
  simp

theorem dataLocation_output {cfg : Config} (hc : cfg.wf = true) {i k : Nat} (h : i + k ≤ cfg.maxOut)
    (hk : 1 ≤ k) : dataLocation cfg (outBase + i) k = some (.output i) := by
  unfold dataLocation
  have := Config.bounds hc
  rw [if_neg (by unfold inBase outBase; omega), if_pos (by omega)]
  simp

/-- What `dataLocation` answers, said once. -/
theorem dataLocation_cases {cfg : Config} {n k : Nat} {loc : Location} (h : dataLocation cfg n k = some loc) :
    (∃ i, loc = .input i ∧ n = inBase + i ∧ i + k ≤ cfg.maxIn) ∨
    (∃ i, loc = .output i ∧ n = outBase + i ∧ i + k ≤ cfg.maxOut) := by
  unfold dataLocation at h
  split at h
  · cases h
    exact .inl ⟨n - inBase, rfl, by omega, by omega⟩
  · split at h
    · cases h
      exact .inr ⟨n - outBase, rfl, by omega, by omega⟩
    · cases h

theorem Reg.offset_of_atOffset {n : Nat} {r : Reg} (h : Reg.atOffset n = some r) : n = r.offset := by
  unfold Reg.atOffset at h
  split at h <;> cases h <;> rfl

/-- The bytes that a legal access of IN or OUT stores lie inside the memory. -/
theorem locate_within {cfg : Config} {a : Word} {w : Width} {loc : Location} (h : locate cfg a w = some loc)
    (v : Word) : (∀ i, loc = .input i → i + (storedBytes w v).length ≤ cfg.maxIn) ∧
      ∀ i, loc = .output i → i + (storedBytes w v).length ≤ cfg.maxOut := by
  have data : ∀ n k, (storedBytes w v).length = k → dataLocation cfg n k = some loc →
      (∀ i, loc = .input i → i + (storedBytes w v).length ≤ cfg.maxIn) ∧
      ∀ i, loc = .output i → i + (storedBytes w v).length ≤ cfg.maxOut := by
    intro n k hk hd
    rcases dataLocation_cases hd with ⟨i, rfl, -, hi⟩ | ⟨i, rfl, -, hi⟩
    · exact ⟨fun j hj => (by cases hj; omega), fun j hj => (by cases hj)⟩
    · exact ⟨fun j hj => (by cases hj), fun j hj => (by cases hj; omega)⟩
  unfold locate at h
  cases w with
  | w8 => exact data _ 1 rfl h
  | w16 => cases h
  | w32 =>
    simp only at h
    split at h
    · cases h
    · split at h
      · cases hr : Reg.atOffset a.toNat <;> rw [hr] at h <;> cases h
        exact ⟨fun i hi => (by cases hi), fun i hi => (by cases hi)⟩
      · split at h
        · cases h
          exact ⟨fun i hi => (by cases hi), fun i hi => (by cases hi)⟩
        · split at h
          · unfold ctLocation at h
            simp only at h
            split at h
            · cases h
              exact ⟨fun i hi => (by cases hi), fun i hi => (by cases hi)⟩
            · split at h
              · cases h
                exact ⟨fun i hi => (by cases hi), fun i hi => (by cases hi)⟩
              · cases h
          · exact data _ 4 rfl h

/-! ### Words -/

/-- The number that four little-endian bytes are (20_memory R95). -/
theorem wordOfBytes_toNat (b0 b1 b2 b3 : Byte) : (wordOfBytes b0 b1 b2 b3).toNat =
    b0.toNat + 2 ^ 8 * b1.toNat + 2 ^ 16 * b2.toNat + 2 ^ 24 * b3.toNat := by
  have h0 := b0.isLt
  have h1 := b1.isLt
  have h2 := b2.isLt
  have h3 := b3.isLt
  unfold wordOfBytes
  simp only [BitVec.toNat_append]
  rw [← Nat.shiftLeft_add_eq_or_of_lt (by omega), ← Nat.shiftLeft_add_eq_or_of_lt (by omega),
    ← Nat.shiftLeft_add_eq_or_of_lt (by omega)]
  simp only [Nat.shiftLeft_eq]
  omega

/-- The bits of V after a write to CT_CODE(k) (20_memory R99). -/
theorem CtEntry.getLsbD_setCodeWord (e : CtEntry) (k : Nat) (v : Word) (p : Nat) :
    (e.setCodeWord k v).v.getLsbD p =
      if p < 255 ∧ 32 * k ≤ p ∧ p < 32 * k + 32 then v.getLsbD (p - 32 * k) else e.v.getLsbD p := by
  simp only [CtEntry.setCodeWord, BitVec.getLsbD_or, BitVec.getLsbD_and, BitVec.getLsbD_not,
    BitVec.getLsbD_shiftLeft, BitVec.getLsbD_setWidth, BitVec.getLsbD_allOnes]
  by_cases hp : p < 255
  · by_cases h1 : 32 * k ≤ p
    · by_cases h2 : p < 32 * k + 32
      · rw [if_pos ⟨hp, h1, h2⟩]
        have e1 : p - 32 * k < 32 := by omega
        have e2 : p - 32 * k < 255 := by omega
        simp [hp, e1, e2, Nat.not_lt.mpr h1]
      · rw [if_neg (by omega)]
        have e1 : ¬ p - 32 * k < 32 := by omega
        rw [BitVec.getLsbD_of_ge v _ (by omega)]
        simp [hp, e1]
    · rw [if_neg (by omega)]
      simp [hp, Nat.lt_of_not_le h1]
  · rw [if_neg (by omega), BitVec.getLsbD_of_ge e.v _ (by omega)]
    simp [hp]

/-- The words of V after a write to CT_CODE(k) (20_memory R99). -/
theorem CtEntry.codeWord_setCodeWord (e : CtEntry) (k j : Nat) (v : Word) (hk : k < 8) (hj : j < 8) :
    (e.setCodeWord k v).codeWord j =
      if j = k then (if k = 7 then v &&& 0x7FFFFFFF#32 else v) else e.codeWord j := by
  apply BitVec.eq_of_getLsbD_eq
  intro t ht
  rw [CtEntry.codeWord, BitVec.getLsbD_extractLsb', getLsbD_setCodeWord]
  simp only [ht, decide_true, Bool.true_and]
  by_cases hjk : j = k
  · subst hjk
    rw [if_pos rfl]
    by_cases h7 : j = 7
    · subst h7
      rw [if_pos rfl, BitVec.getLsbD_and]
      by_cases h31 : t = 31
      · subst h31
        simp [BitVec.getLsbD_of_ge]
      · have hm : (0x7FFFFFFF#32).getLsbD t = true := by
          have : t < 31 := by omega
          clear * - this
          interval_cases t <;> decide
        rw [if_pos (by omega), hm, show 32 * 7 + t - 32 * 7 = t by omega]
        simp
    · rw [if_neg h7, if_pos (by omega), show 32 * j + t - 32 * j = t by omega]
  · rw [if_neg hjk, if_neg (by omega), CtEntry.codeWord, BitVec.getLsbD_extractLsb']
    simp [ht]

/-! ### Accesses and inputs -/

/-- What a bus write does, said once. -/
theorem State.busWrite_cases (s : State) (a : Word) (w : Width) (v : Word) :
    (locate s.cfg a w = none ∧ s.busWrite a w v = s.respond .busError) ∨
    (∃ loc, locate s.cfg a w = some loc ∧ s.busWrite a w v = (s.writeLocation loc w v).respond .written) := by
  unfold State.busWrite
  cases h : locate s.cfg a w with
  | none => exact .inl ⟨rfl, rfl⟩
  | some loc => exact .inr ⟨loc, rfl, rfl⟩

/-- What a bus read does, said once. -/
theorem State.busRead_cases (s : State) (a : Word) (w : Width) :
    (locate s.cfg a w = none ∧ s.busRead a w = s.respond .busError) ∨
    (∃ loc, locate s.cfg a w = some loc ∧
      ((s.status.busy && !loc.heldWhileBusy) = true ∧ s.busRead a w =
        { s with draws := s.draws + 1 }.respond (.data (narrowTo w (Config.freeWord s.draws))) ∨
      (s.status.busy && !loc.heldWhileBusy) = false ∧
        s.busRead a w = s.respond (.data (s.heldWord loc w)))) := by
  unfold State.busRead
  cases h : locate s.cfg a w with
  | none => exact .inl ⟨rfl, rfl⟩
  | some loc =>
    refine .inr ⟨loc, rfl, ?_⟩
    cases hb : (s.status.busy && !loc.heldWhileBusy)
    · exact .inr ⟨rfl, by simp [hb]⟩
    · exact .inl ⟨rfl, by simp [hb]⟩

/-- What a legal write does, said once. -/
theorem State.writeLocation_cases (s : State) (loc : Location) (w : Width) (v : Word) :
    (loc = .reg .ctrl ∧ s.writeLocation loc w v = { s with ie := v.getLsbD 0 }) ∨
    (loc = .reg .status ∧ s.writeLocation loc w v = s.acknowledge v) ∨
    (loc ≠ .reg .ctrl ∧ loc ≠ .reg .status ∧
      (s.status.busy = true ∧ s.writeLocation loc w v = { s with status := s.status.dropWrite } ∨
      s.status.busy = false ∧ s.writeLocation loc w v = s.writeIdle loc w v)) := by
  unfold State.writeLocation
  split
  · exact .inl ⟨by assumption, rfl⟩
  · split
    · exact .inr (.inl ⟨by assumption, rfl⟩)
    · refine .inr (.inr ⟨by assumption, by assumption, ?_⟩)
      cases hb : s.status.busy <;> simp

end Sys2Proof.Machine
end

