-- ==== Sys2Proof/Laws/Invariant.lean ====
section
/-! SUPPORT. Each operation of the machine keeps the state invariant `State.Inv`. -/

namespace Sys2Proof.Machine

theorem toNat_word_le {n : Nat} (h : n ≤ 2 ^ 31) : (BitVec.ofNat 32 n).toNat = n := toNat_word (by omega)

theorem ErrKind.code_le (k : ErrKind) : k.code.toNat ≤ 11 := by cases k <;> decide

theorem ErrKind.code_ne_zero (k : ErrKind) : k.code ≠ 0 := by cases k <;> decide

/-- Taking an error keeps the invariant, when its position is in bounds (60_exceptions R357). -/
theorem State.Inv.reportError {s : State} (h : s.Inv) (e : CodecError) (he : e.pos ≤ 2 ^ 31) :
    (s.reportError e).Inv where
  cfgLegal := h.cfgLegal
  phaseMirrored := by simp
  latchedMirrored := h.latchedMirrored
  busyFlags := by simp
  errHasCode _ := e.kind.code_ne_zero
  codeKnown := e.kind.code_le
  noErrorNoPos h := absurd h e.kind.code_ne_zero
  posBound := by rw [State.reportError_faultPos, toNat_word_le he]; exact he
  tailNoError := by simp
  outLenBound := h.outLenBound
  bitLenBound := h.bitLenBound
  runsBound := h.runsBound
  entriesBound := h.entriesBound
  inCanonical := h.inCanonical
  outCanonical := h.outCanonical
  inWithin := h.inWithin
  outWithin := h.outWithin
  inDrawn := h.inDrawn
  outDrawn := h.outDrawn
  drawsDiffer := h.drawsDiffer

/-- A completion without error keeps the invariant. -/
theorem State.Inv.complete {s : State} (h : s.Inv) (p : Bool) : (s.complete p).Inv where
  cfgLegal := h.cfgLegal
  phaseMirrored := by simp
  latchedMirrored := h.latchedMirrored
  busyFlags := by simp
  errHasCode := by simp
  codeKnown := by simp
  noErrorNoPos := by simp
  posBound := by simp
  tailNoError := by simp
  outLenBound := h.outLenBound
  bitLenBound := h.bitLenBound
  runsBound := h.runsBound
  entriesBound := h.entriesBound
  inCanonical := h.inCanonical
  outCanonical := h.outCanonical
  inWithin := h.inWithin
  outWithin := h.outWithin
  inDrawn := h.inDrawn
  outDrawn := h.outDrawn
  drawsDiffer := h.drawsDiffer

/-- Accepting a command word keeps the invariant. -/
theorem State.Inv.accept {s : State} (h : s.Inv) (v : Word) : (s.accept v).Inv where
  cfgLegal := h.cfgLegal
  phaseMirrored := by simp [State.accept, Status.accept]
  latchedMirrored := rfl
  busyFlags _ := ⟨rfl, rfl⟩
  errHasCode h := by cases h
  codeKnown := h.codeKnown
  noErrorNoPos := h.noErrorNoPos
  posBound := h.posBound
  tailNoError := h.tailNoError
  outLenBound := h.outLenBound
  bitLenBound := h.bitLenBound
  runsBound := h.runsBound
  entriesBound := h.entriesBound
  inCanonical := h.inCanonical
  outCanonical := h.outCanonical
  inWithin := h.inWithin
  outWithin := h.outWithin
  inDrawn := h.inDrawn
  outDrawn := h.outDrawn
  drawsDiffer := h.drawsDiffer

theorem State.Inv.writeOut {s : State} (h : s.Inv) (b : List Byte) (hb : b.length ≤ s.cfg.maxOut) :
    (s.writeOut b).Inv := by
  have := Config.bounds h.cfgLegal
  refine { h with outLenBound := ?_, outCanonical := ?_, outWithin := ?_ }
  · show (BitVec.ofNat 32 b.length).toNat ≤ s.cfg.maxOut
    rw [toNat_word (by omega)]
    exact hb
  · exact Memory.store_wf h.outCanonical 0 b
  · exact Memory.store_within h.outWithin 0 b (by omega)

theorem State.Inv.scrambleOut {s : State} (h : s.Inv) : s.scrambleOut.Inv := by
  have h1 := h.inDrawn
  refine { h with outCanonical := ?_, outWithin := ?_, inDrawn := ?_, outDrawn := ?_, drawsDiffer := ?_ }
  · exact List.Pairwise.nil
  · intro c hc
    cases hc
  · show s.inDraw < s.draws + 1
    omega
  · show s.draws < s.draws + 1
    omega
  · show s.inDraw ≠ s.draws
    omega

theorem State.Inv.tables {s : State} (h : s.Inv) (f : Table Word) (c : Table CtEntry) (n : BitVec 9)
    (hn : n.toNat ≤ 256) : State.Inv { s with freq := f, ct := c, tableEntries := n } :=
  { h with entriesBound := hn }

theorem State.Inv.writeFreq {s : State} (h : s.Inv) : s.writeFreq.Inv := { h with }

theorem State.Inv.writeTable {s : State} (h : s.Inv) : s.writeTable.Inv := by
  refine h.tables s.freq _ _ ?_
  have := distinctSymbols_le s.freq
  rw [BitVec.toNat_ofNat, Nat.mod_eq_of_lt] <;> omega

theorem State.Inv.writePacked {s : State} (h : s.Inv) (b : Bits) (hb : b.length ≤ 8 * s.cfg.maxOut) :
    (s.writePacked b).Inv := by
  have := Config.bounds h.cfgLegal
  have h2 := h.writeOut (packBits b) (by rw [length_packBits]; omega)
  refine { h2 with bitLenBound := ?_ }
  show (BitVec.ofNat 32 b.length).toNat ≤ _
  rw [toNat_word_le] <;> omega

theorem State.Inv.failPack {s : State} (h : s.Inv) (e : CodecError) (he : e.pos ≤ 2 ^ 31) : (s.failPack e).Inv := by
  refine State.Inv.reportError (State.Inv.scrambleOut ?_) e he
  exact { h with outLenBound := Nat.zero_le _, bitLenBound := Nat.zero_le _ }

theorem State.Inv.failDecode {s : State} (h : s.Inv) (e : CodecError) (he : e.pos ≤ 2 ^ 31) :
    (s.failDecode e).Inv := by
  refine State.Inv.reportError (State.Inv.scrambleOut ?_) e he
  exact { h with outLenBound := Nat.zero_le _, bitLenBound := Nat.zero_le _ }

theorem State.Inv.failRle {s : State} (h : s.Inv) (e : CodecError) (he : e.pos ≤ 2 ^ 31) : (s.failRle e).Inv := by
  refine State.Inv.reportError (State.Inv.scrambleOut ?_) e he
  exact { h with outLenBound := Nat.zero_le _, runsBound := Nat.zero_le _ }

/-- Every command keeps the invariant. -/
theorem State.Inv.exec {i : Instr} {s t : State} (h : s.Inv) (he : Machine.exec i s = .next t) : t.Inv := by
  have hc := Config.bounds h.cfgLegal
  cases exec_cases he with
  | startError e _ hp => exact h.reportError e (by omega)
  | nop => exact h.complete _
  | clearTables => exact State.Inv.complete (h.tables _ _ 0 (by simp)) _
  | freq => exact h.writeFreq.complete _
  | build => exact h.writeTable.complete _
  | pack _ _ _ room => exact (h.writePacked _ room).complete _
  | packError e _ hf _ hp => exact h.failPack e (by omega)
  | encodeEmpty =>
    exact State.Inv.complete (s := s.encodeEmpty)
      { h.tables (Table.ofFn fun _ => 0) (Table.ofFn fun _ => CtEntry.clear) 0 (by simp) with
        outLenBound := Nat.zero_le _, bitLenBound := Nat.zero_le _ } _
  | encode _ _ _ room => exact (h.writeFreq.writeTable.writePacked _ room).complete _
  | encodeError e _ hf _ _ hp => exact h.writeFreq.writeTable.failPack e (by omega)
  | decode out pos tail _ hf room read _ =>
    refine State.Inv.complete (s := s.writeDecoded out pos) { h.writeOut out room with bitLenBound := ?_ } _
    show (BitVec.ofNat 32 pos).toNat ≤ _
    rw [toNat_word_le] <;> omega
  | decodeError e _ hf _ hp => exact h.failDecode e (by omega)
  | rleEncode pairs _ _ room =>
    refine State.Inv.complete (s := { s.writeOut (pairBytes pairs) with runs := BitVec.ofNat 32 pairs.length })
      { h.writeOut (pairBytes pairs) (by rw [pairBytes_length]; exact room) with runsBound := ?_ } _
    show (BitVec.ofNat 32 _).toNat ≤ _
    rw [toNat_word_le] <;> omega
  | rleDecode out _ hf room =>
    refine State.Inv.complete (s := { s.writeOut out with runs := BitVec.ofNat 32 (s.inLen.toNat / 2) })
      { h.writeOut out room with runsBound := ?_ } _
    show (BitVec.ofNat 32 _).toNat ≤ _
    rw [toNat_word_le] <;> omega
  | rleError e _ hf _ hp => exact h.failRle e (by omega)

theorem State.Inv.respond {s : State} (h : s.Inv) (r : BusResponse) : (s.respond r).Inv := { h with }

theorem State.Inv.acknowledge {s : State} (h : s.Inv) (v : Word) : (s.acknowledge v).Inv := by
  refine { h with busyFlags := ?_, errHasCode := ?_ }
  · intro hb
    obtain ⟨h1, h2⟩ := h.busyFlags hb
    exact ⟨by simp [State.acknowledge, h1], by simp [State.acknowledge, h2]⟩
  · intro he
    refine h.errHasCode ?_
    simp [State.acknowledge] at he
    exact he.1

theorem State.Inv.writeReg {s : State} (h : s.Inv) (r : Reg) (v : Word) : (s.writeReg r v).Inv := by
  unfold State.writeReg
  split
  · exact h
  · cases r <;> first | exact h | exact h.accept v | exact { h with }

/-- A bus write keeps the invariant. -/
theorem State.Inv.busWrite {s : State} (h : s.Inv) (a : Word) (w : Width) (v : Word) : (s.busWrite a w v).Inv := by
  rcases s.busWrite_cases a w v with ⟨-, e⟩ | ⟨loc, hl, e⟩ <;> rw [e]
  · exact h.respond _
  · refine State.Inv.respond ?_ _
    have within := locate_within hl v
    rcases s.writeLocation_cases loc w v with ⟨-, e⟩ | ⟨-, e⟩ | ⟨-, -, ⟨-, e⟩ | ⟨-, e⟩⟩ <;> rw [e]
    · exact { h with }
    · exact h.acknowledge v
    · exact { h with }
    · unfold State.writeIdle
      cases loc with
      | reg r => exact h.writeReg r v
      | freq b => exact { h with }
      | ctMeta b => exact { h with }
      | ctCode b k => exact { h with }
      | input i =>
        exact { h with
          inCanonical := Memory.store_wf h.inCanonical _ _
          inWithin := Memory.store_within h.inWithin _ _ (.inl (within.1 i rfl)) }
      | output i =>
        exact { h with
          outCanonical := Memory.store_wf h.outCanonical _ _
          outWithin := Memory.store_within h.outWithin _ _ (.inl (within.2 i rfl)) }

/-- A bus read keeps the invariant. -/
theorem State.Inv.busRead {s : State} (h : s.Inv) (a : Word) (w : Width) : (s.busRead a w).Inv := by
  rcases s.busRead_cases a w with ⟨-, e⟩ | ⟨loc, -, ⟨-, e⟩ | ⟨-, e⟩⟩ <;> rw [e]
  · exact h.respond _
  · exact State.Inv.respond (s := { s with draws := s.draws + 1 }) { h with
      inDrawn := Nat.lt_succ_of_lt h.inDrawn
      outDrawn := Nat.lt_succ_of_lt h.outDrawn } _
  · exact h.respond _

end Sys2Proof.Machine
end

