-- ==== Sys2Proof/Laws/Parallel.lean ====
section
/-! SUPPORT. The laws of the parallel RLE commands: regions, chunks, and where errors are reported
(42_rle R274–R279). -/

namespace Sys2Proof.Machine

@[simp] theorem slice_self (bytes : List Byte) (n : Nat) : slice bytes n n = [] := by simp [slice]

@[simp] theorem slice_all (bytes : List Byte) : slice bytes 0 bytes.length = bytes := by simp [slice]

/-! ### The sequential decode -/

/-- The first pair whose expansion does not fit is reported (42_rle R273). -/
theorem expandPairs_error (maxOut : Nat) (p : Nat × Byte) (after : List (Nat × Byte)) (hp : p.1 ≤ 255) :
    ∀ (before : List (Nat × Byte)) (src o : Nat), (∀ q ∈ before, q.1 ≤ 255) →
    o + (expand before).length ≤ maxOut → maxOut < o + (expand before).length + p.1 →
    expandPairs maxOut src o (pairBytes (before ++ p :: after)) =
      .error ⟨.outOverflow, src + 2 * before.length⟩ := by
  intro before
  have h8 : ∀ n, n ≤ 255 → (BitVec.ofNat 8 n).toNat = n := by
    intro n hn
    rw [BitVec.toNat_ofNat, Nat.mod_eq_of_lt]
    omega
  induction before with
  | nil =>
    intro src o _ _ h
    rw [List.nil_append, pairBytes_cons, expandPairs, if_pos (by rw [h8 _ hp]; simpa [expand] using h)]
    rfl
  | cons q before ih =>
    intro src o hq h1 h2
    rw [expand_cons, List.length_append, List.length_replicate] at h1 h2
    rw [List.cons_append, pairBytes_cons, expandPairs, h8 _ (hq q (by simp)), if_neg (by omega),
      ih _ _ (fun r hr => hq r (by simp [hr])) (by omega) (by omega)]
    simp
    ring

/-! ### Regions -/

/-- The byte at an index after one region has been filled (42_rle R277). -/
theorem get?_fillRegion (m : Memory) (r : RleRegion) (i : Nat) :
    (fillRegion m r).get? i = if r.dst ≤ i ∧ i < r.dst + r.count then some r.value else m.get? i := by
  unfold fillRegion
  rw [Memory.get?_store]
  simp only [List.length_replicate, List.getElem?_replicate]
  split
  · rw [if_pos (by omega)]
  · rfl

/-- The regions of the first pass lie one after the other (42_rle R276, R278). -/
theorem regionPass_disjoint (maxOut : Nat) : ∀ (n : Nat) (bytes : List Byte) (src dst total : Nat)
    (regions : List RleRegion), bytes.length ≤ n → regionPass maxOut src dst bytes = .ok (regions, total) →
    (∀ r ∈ regions, dst ≤ r.dst) ∧ regions.Pairwise fun a b => a.dst + a.count ≤ b.dst := by
  intro n
  induction n with
  | zero =>
    intro bytes src dst total regions hb h
    cases bytes with
    | nil =>
      simp [regionPass] at h
      obtain ⟨rfl, rfl⟩ := h
      simp
    | cons _ _ => simp at hb
  | succ n ih =>
    intro bytes src dst total regions hb h
    match bytes, hb, h with
    | [], _, h =>
      simp [regionPass] at h
      obtain ⟨rfl, rfl⟩ := h
      simp
    | [x], _, h =>
      simp [regionPass] at h
      obtain ⟨rfl, rfl⟩ := h
      simp
    | c :: v :: rest, hb, h =>
      simp only [regionPass] at h
      split at h
      · cases h
      · split at h
        · rename_i rs tot he
          cases h
          have := ih rest _ _ _ _ (by simp at hb; omega) he
          refine ⟨fun r hr => ?_, List.pairwise_cons.mpr ⟨fun r hr => this.1 r hr, this.2⟩⟩
          rcases List.mem_cons.mp hr with rfl | hr
          · exact le_rfl
          · have := this.1 r hr
            omega
        · cases h

/-! ### Chunks -/

/-- Chunks that begin at `n` and follow one another. -/
def Contiguous : Nat → List (Nat × Nat) → Prop
  | _, [] => True
  | n, c :: cs => c.1 = n ∧ c.1 ≤ c.2 ∧ Contiguous c.2 cs

theorem Contiguous.append : ∀ (cs ds : List (Nat × Nat)) (n m : Nat), Contiguous n cs →
    (∀ c, cs.getLast? = some c → c.2 = m) → (cs = [] → n = m) → Contiguous m ds →
    Contiguous n (cs ++ ds) := by
  intro cs
  induction cs with
  | nil =>
    intro ds n m _ _ h hd
    rw [h rfl]
    exact hd
  | cons c cs ih =>
    intro ds n m hc hl _ hd
    refine ⟨hc.1, hc.2.1, ih ds c.2 m hc.2.2 ?_ ?_ hd⟩
    · intro d hd
      apply hl
      cases cs with
      | nil => cases hd
      | cons e cs =>
        rw [List.getLast?_cons_cons]
        exact hd
    · rintro rfl
      exact hl c rfl

theorem contiguous_row (q k : Nat) : Contiguous 0 ((List.range k).map fun j => (j * q, (j + 1) * q)) := by
  induction k with
  | zero => trivial
  | succ k ih =>
    rw [List.range_succ, List.map_append]
    refine Contiguous.append _ _ 0 (k * q) ih ?_ ?_ ⟨rfl, Nat.mul_le_mul_right _ (by omega), trivial⟩
    · intro c hc
      cases k with
      | zero => simp at hc
      | succ k =>
        rw [List.range_succ, List.map_append] at hc
        simp at hc
        rw [← hc]
    · intro h
      cases k with
      | zero => simp
      | succ k => simp at h

/-- The chunks follow one another from 0 (42_rle R274). -/
theorem contiguous_chunks (n w : Nat) (hw : 1 ≤ w) : Contiguous 0 (chunks n w) := by
  unfold chunks
  split
  · exact ⟨rfl, Nat.zero_le _, trivial⟩
  · refine Contiguous.append _ _ 0 ((w - 1) * (n / w)) (contiguous_row _ _) ?_ ?_ ⟨rfl, ?_, trivial⟩
    · intro c hc
      obtain ⟨k, hk⟩ : ∃ k, w - 1 = k := ⟨_, rfl⟩
      rw [hk] at hc ⊢
      cases k with
      | zero => simp at hc
      | succ k =>
        rw [List.range_succ, List.map_append] at hc
        simp at hc
        rw [← hc]
    · intro h
      have : w - 1 = 0 := by simpa using h
      simp [this]
    · calc (w - 1) * (n / w) ≤ w * (n / w) := Nat.mul_le_mul_right _ (by omega)
        _ ≤ n := Nat.mul_div_le _ _

/-- Over chunks that follow one another, every pair carries the index of its first input byte (42_rle
R270, R275). -/
theorem starts_of_contiguous (bytes : List Byte) : ∀ (cs : List (Nat × Nat)) (n : Nat), Contiguous n cs →
    (∀ c ∈ cs, c.2 ≤ bytes.length) → ∀ (a : List RlePair) (q : RlePair) (b : List RlePair),
    (cs.flatMap fun c => rleEncode c.1 (slice bytes c.1 c.2)) = a ++ q :: b →
    q.start = n + (expand (a.map RlePair.plain)).length := by
  intro cs
  induction cs with
  | nil =>
    intro n _ _ a q b h
    simp at h
  | cons c cs ih =>
    intro n hc hle a q b h
    obtain ⟨hc1, hc2, hc3⟩ := hc
    rw [List.flatMap_cons] at h
    rcases List.append_eq_append_iff.mp h with ⟨a', ha, hb⟩ | ⟨b', ha, hb⟩
    · subst ha
      have := ih c.2 hc3 (fun d hd => hle d (by simp [hd])) a' q b hb
      rw [this, List.map_append, expand_append, List.length_append, (rleEncode_spec _ _).expands,
        slice_length (hle c (by simp))]
      omega
    · cases b' with
      | nil =>
        rw [List.append_nil] at ha
        simp only [List.nil_append] at hb
        have := ih c.2 hc3 (fun d hd => hle d (by simp [hd])) [] q b hb.symm
        rw [this, ← ha, (rleEncode_spec _ _).expands, slice_length (hle c (by simp))]
        simp [expand]
        omega
      | cons q' b' =>
        simp only [List.cons_append, List.cons.injEq] at hb
        obtain ⟨rfl, -⟩ := hb
        rw [rleEncode_starts ha, hc1]

/-! ### Where a slice is cut -/

/-- More bytes already seen of a run cost at most one more pair. -/
theorem rleScan_length_mono (b : List Byte) : ∀ (v : Byte) (c c' s s' : Nat), c ≤ c' → c' ≤ 255 → 1 ≤ c →
    (rleScan v c s b).length ≤ (rleScan v c' s' b).length ∧
      (rleScan v c' s' b).length ≤ (rleScan v c s b).length + 1 := by
  induction b with
  | nil =>
    intro v c c' s s' h h2 h3
    simp [rleScan]
  | cons y b ih =>
    intro v c c' s s' h h2 h3
    have r1 := ih y 1 1 (s' + c') (s + c) (by omega) (by omega) (by omega)
    have r2 := ih y 1 1 (s + c) (s' + c') (by omega) (by omega) (by omega)
    simp only [rleScan]
    by_cases hy : y = v
    · subst hy
      by_cases h1 : c' < 255
      · rw [if_pos ⟨rfl, by omega⟩, if_pos ⟨rfl, h1⟩]
        exact ih _ _ _ _ _ (by omega) (by omega) (by omega)
      · by_cases h4 : c < 255
        · rw [if_pos ⟨rfl, h4⟩, if_neg (by simp [h1])]
          have := ih y 1 (c + 1) (s' + c') s (by omega) (by omega) (by omega)
          simp only [List.length_cons]
          omega
        · rw [if_neg (by simp [h4]), if_neg (by simp [h1])]
          simp only [List.length_cons]
          omega
    · rw [if_neg (by simp [hy]), if_neg (by simp [hy])]
      simp only [List.length_cons]
      omega

/-- Cutting inside a scan costs at most one more pair. -/
theorem rleScan_append_length : ∀ (a : List Byte) (v : Byte) (c st st2 : Nat) (x : Byte) (b : List Byte),
    (rleScan v c st a).length + (rleScan x 1 st2 b).length ≤ (rleScan v c st (a ++ x :: b)).length + 1 := by
  intro a
  induction a with
  | nil =>
    intro v c st st2 x b
    simp only [List.nil_append, rleScan]
    split
    · rename_i h
      simp only [List.length_singleton]
      have := rleScan_length_mono b x 1 (c + 1) st2 st (by omega) (by omega) (by omega)
      rw [h.1] at *
      omega
    · have := rleScan_length_mono b x 1 1 st2 (st + c) (by omega) (by omega) (by omega)
      simp
      omega
  | cons y a ih =>
    intro v c st st2 x b
    simp only [List.cons_append, rleScan]
    split
    · exact ih ..
    · have := ih y 1 (st + c) st2 x b
      simp only [List.length_cons]
      omega

/-- The number of pairs does not depend on where the slice begins. -/
theorem rleEncode_length_start (a b : Nat) (l : List Byte) : (rleEncode a l).length = (rleEncode b l).length := by
  have h : ∀ (l : List Byte) (v : Byte) (c a b : Nat), (rleScan v c a l).length = (rleScan v c b l).length := by
    intro l
    induction l with
    | nil => intros; simp [rleScan]
    | cons y l ih =>
      intro v c a b
      simp only [rleScan]
      split
      · exact ih ..
      · simp only [List.length_cons]
        rw [ih]
  cases l with
  | nil => rfl
  | cons x l => exact h l x 1 a b

/-- Cutting a slice in two costs at most one more pair (42_rle R279 item 4). -/
theorem rleEncode_append_length (s1 s2 s3 : Nat) (a b : List Byte) :
    (rleEncode s1 a).length + (rleEncode s2 b).length ≤ (rleEncode s3 (a ++ b)).length + 1 := by
  cases a with
  | nil =>
    rw [List.nil_append, rleEncode_length_start s2 s3]
    simp [rleEncode]
  | cons x a =>
    cases b with
    | nil =>
      rw [List.append_nil, rleEncode_length_start s1 s3]
      simp [rleEncode]
    | cons y b =>
      rw [rleEncode_length_start s1 s3]
      exact rleScan_append_length a x 1 s3 s2 y b

end Sys2Proof.Machine
end

