-- ==== Sys2Proof/Laws/PerInstr.lean ====
section
/-! SUPPORT. Statements made for each instruction as syntax: one lemma per constructor of `Instr`. -/

namespace Sys2Proof.Laws

/-- RoundTrip: the command word of an instruction is legal, has zero reserved bits and is read back as
the instruction (30_encoding R133, R134). -/
def RoundTrip.Statement (i : Instr) : Prop :=
  reservedField (encode i) = 0 ∧ legalWord (encode i) = true ∧ decode (encode i) = .ok i

theorem RoundTrip.nop : RoundTrip.Statement .nop := ⟨rfl, rfl, rfl⟩
theorem RoundTrip.hufFreq : RoundTrip.Statement .hufFreq := ⟨rfl, rfl, rfl⟩
theorem RoundTrip.hufBuild : RoundTrip.Statement .hufBuild := ⟨rfl, rfl, rfl⟩
theorem RoundTrip.hufPack : RoundTrip.Statement .hufPack := ⟨rfl, rfl, rfl⟩
theorem RoundTrip.hufEnc : RoundTrip.Statement .hufEnc := ⟨rfl, rfl, rfl⟩
theorem RoundTrip.hufDec : RoundTrip.Statement .hufDec := ⟨rfl, rfl, rfl⟩
theorem RoundTrip.hufDecB : RoundTrip.Statement .hufDecB := ⟨rfl, rfl, rfl⟩
theorem RoundTrip.rleEnc : RoundTrip.Statement .rleEnc := ⟨rfl, rfl, rfl⟩
theorem RoundTrip.rleDec : RoundTrip.Statement .rleDec := ⟨rfl, rfl, rfl⟩
theorem RoundTrip.rleEncPar : RoundTrip.Statement .rleEncPar := ⟨rfl, rfl, rfl⟩
theorem RoundTrip.rleDecPar : RoundTrip.Statement .rleDecPar := ⟨rfl, rfl, rfl⟩
theorem RoundTrip.clearTables : RoundTrip.Statement .clearTables := ⟨rfl, rfl, rfl⟩

end Sys2Proof.Laws
end

