-- ==== Sys2Proof/Tests/Slice0.lean ====
section
/-! SUPPORT. The model's own tests. Every expected value comes from spec/95_test_vectors.md (the vector is
named) or from the rule named; the last part shows states that meet the hypotheses of each statement. -/

namespace Sys2Proof.Tests

open Sys2Proof.Machine

-- One theorem after another: each kernel evaluation waits for the theorems before it.
set_option Elab.async false

/-! ### Small states -/

/-- Reset, with IN[0..n−1] and IN_LEN written, as FILL writes them. -/
def loaded (bytes : List Byte) : State :=
  { State.reset with
    inMem := Memory.layOut 0 bytes
    inLen := BitVec.ofNat 32 bytes.length }

/-- With other parameters. -/
def sized (maxIn maxOut : Nat) (s : State) : State := { s with cfg := ⟨maxIn, maxOut, 8⟩ }

/-- With the codes of a table written. -/
def coded (codes : List (Byte × Bits)) (s : State) : State := { s with ct := tableOf codes }

/-- With FREQ entries written. -/
def counted (entries : List (Byte × Word)) (s : State) : State :=
  { s with freq := Table.ofFn fun b => (entries.lookup b).getD 0 }

/-- With SYM_COUNT written. -/
def expecting (n : Word) (s : State) : State := { s with symCount := n }

/-- With WORKERS written. -/
def workedBy (n : BitVec 8) (s : State) : State := { s with workers := n }

/-- With the command word accepted and these inputs to come. -/
def running (v : Word) (inputs : List Input) (s : State) : State := { s.accept v with inputs := inputs }

/-- With these inputs to come. -/
def given (inputs : List Input) (s : State) : State := { s with inputs := inputs }

/-- The state a command ends in. -/
def after (i : Instr) (s : State) : State :=
  match exec i s with
  | .next t => t
  | .fault _ => s
  | .refused _ => s

/-- The state one step ends in. -/
def afterStep (s : State) : State :=
  match step s with
  | .next t => t
  | .fault _ => s
  | .refused _ => s

/-- STATUS, ERR_CODE and FAULT_POS. -/
def ending (s : State) : Nat × Nat × Nat := (s.status.word.toNat, s.errCode.toNat, s.faultPos.toNat)

/-- "aaabbbccd". -/
def scenario : List Byte := [0x61, 0x61, 0x61, 0x62, 0x62, 0x62, 0x63, 0x63, 0x64]

/-- Table T1 of spec/95 section 2.7. -/
def tableT1 : List (Byte × Bits) :=
  [(0x61, [true, false]), (0x62, [true, true]), (0x63, [false, true]), (0x64, [false, false])]

/-- The stream of "aaabbbccd" under T1 (HE-1). -/
def streamT1 : List Byte := [0xAB, 0xF5, 0x00]

/-- RE-1's input. -/
def runs8 : List Byte := [5, 5, 5, 5, 5, 7, 7, 9]

/-! ### WellFormed: one ill-formed term for each check (00_scope R10, 30_encoding R134) -/

theorem wf_standard : Config.standard.wf = true := by decide
theorem wf_smallest_and_largest : (⟨1, 1, 4⟩ : Config).wf = true ∧ (⟨2 ^ 28, 2 ^ 28, 255⟩ : Config).wf = true := by
  decide
theorem wf_rejects_maxIn_zero : (⟨0, 4096, 8⟩ : Config).wf = false := by decide
theorem wf_rejects_maxIn_large : (⟨2 ^ 28 + 1, 4096, 8⟩ : Config).wf = false := by decide
theorem wf_rejects_maxOut_zero : (⟨4096, 0, 8⟩ : Config).wf = false := by decide
theorem wf_rejects_maxOut_large : (⟨4096, 2 ^ 28 + 1, 8⟩ : Config).wf = false := by decide
theorem wf_rejects_maxWorkers_small : (⟨4096, 4096, 3⟩ : Config).wf = false := by decide
theorem wf_rejects_maxWorkers_large : (⟨4096, 4096, 256⟩ : Config).wf = false := by decide
theorem wf_rejects_reserved_bit : legalWord 0x00000020 = false ∧ decode 0x00000020 = .error .reservedBits := by decide
theorem wf_rejects_top_bit : legalWord 0x80000005 = false ∧ decode 0x80000005 = .error .reservedBits := by decide
theorem wf_rejects_reserved_op : legalWord 0x0000000B = false ∧ decode 0x0000000B = .error .reservedOpcode := by
  decide
theorem wf_rejects_mode_bit : legalWord 0x00000014 = false ∧ decode 0x00000014 = .error .modeNotAllowed := by decide

/-! ### Decoding: each word written out as RSV [31:5], M [4], OP [3:0] (30_encoding R130, R131) -/

theorem test_decode_nop : decode (0#27 ++ 0b0#1 ++ 0b0000#4) = .ok .nop := by decide
theorem test_decode_hufFreq : decode (0#27 ++ 0b0#1 ++ 0b0001#4) = .ok .hufFreq := by decide
theorem test_decode_hufBuild : decode (0#27 ++ 0b0#1 ++ 0b0010#4) = .ok .hufBuild := by decide
theorem test_decode_hufPack : decode (0#27 ++ 0b0#1 ++ 0b0011#4) = .ok .hufPack := by decide
theorem test_decode_hufEnc : decode (0#27 ++ 0b0#1 ++ 0b0100#4) = .ok .hufEnc := by decide
theorem test_decode_hufDec : decode (0#27 ++ 0b0#1 ++ 0b0101#4) = .ok .hufDec := by decide
theorem test_decode_hufDecB : decode (0#27 ++ 0b1#1 ++ 0b0101#4) = .ok .hufDecB := by decide
theorem test_decode_rleEnc : decode (0#27 ++ 0b0#1 ++ 0b0110#4) = .ok .rleEnc := by decide
theorem test_decode_rleDec : decode (0#27 ++ 0b0#1 ++ 0b0111#4) = .ok .rleDec := by decide
theorem test_decode_rleEncPar : decode (0#27 ++ 0b0#1 ++ 0b1000#4) = .ok .rleEncPar := by decide
theorem test_decode_rleDecPar : decode (0#27 ++ 0b0#1 ++ 0b1001#4) = .ok .rleDecPar := by decide
theorem test_decode_clearTables : decode (0#27 ++ 0b0#1 ++ 0b1010#4) = .ok .clearTables := by decide
/-- ENC-6 to ENC-15: illegal words. -/
theorem test_decode_illegal : (([0x0B, 0x0F, 0x10, 0x14, 0x16, 0x1A, 0x20, 0x25, 0x80000005, 0xFFFFFFFF] :
    List Word).map fun v => (legalWord v, (decode v).toOption)) = List.replicate 10 (false, none) := by decide +kernel

/-! ### The commands -/

/-- CTL-1, CTL-17: NOP leaves STATUS = 0x2 and raises IRQ when IE = 1. -/
theorem test_nop : ending (after .nop (running 0 [] State.reset)) = (0x2, 0, 0) ∧
    (after .nop { State.reset with ie := true }).irq = true := by decide +kernel

/-- HF-1. -/
theorem test_hufFreq : ([0x60, 0x61, 0x62, 0x63, 0x64, 0x65] : List Byte).map
    (after .hufFreq (loaded scenario)).freqOf = [0, 3, 3, 2, 1, 0] := by decide +kernel

/-- HF-3: nothing but the completion fields changes. -/
theorem test_hufFreq_too_long :
    let t := after .hufFreq { counted [(5, 7)] (sized 8 4096 State.reset) with inLen := 9 }
    ending t = (0x6, 8, 0) ∧ t.freqOf 5 = 7 := by decide +kernel

/-- HB-1: the codes and TABLE_ENTRIES. -/
theorem test_hufBuild :
    let t := after .hufBuild (counted [(0x61, 3), (0x62, 3), (0x63, 2), (0x64, 1)] State.reset)
    tableT1.map (fun e : Byte × Bits => (t.ctOf e.1).code) = tableT1.map Prod.snd ∧ t.tableEntries = 4 ∧
      (t.ctOf 0x65).valid = false := by decide +kernel

/-- HB-6: among equal weights a leaf comes before an inner node. -/
theorem test_hufBuild_tie :
    let t := after .hufBuild (counted [(0x78, 5), (0x79, 2), (0x7A, 3)] State.reset)
    ([0x78, 0x79, 0x7A] : List Byte).map (fun b => (t.ctOf b).code) =
      [[false], [true, false], [true, true]] := by decide +kernel

/-- HP-1. -/
theorem test_hufPack :
    let t := after .hufPack (coded tableT1 (loaded scenario))
    t.outData 3 = streamT1 ∧ (t.outLen, t.bitLen, t.symCount) = (3, 18, 9) := by decide +kernel

/-- HP-9: NO_CODE at index 0 comes before any overflow. -/
theorem test_hufPack_error :
    ending (after .hufPack (sized 4096 1 (coded [(0x61, List.replicate 9 true)] (loaded [0x7A, 0x61])))) =
      (0x6, 6, 0) := by decide +kernel

/-- HE-5: "abracadabra". -/
theorem test_hufEnc :
    let t := after .hufEnc (loaded [0x61, 0x62, 0x72, 0x61, 0x63, 0x61, 0x64, 0x61, 0x62, 0x72, 0x61])
    t.outData 3 = [0x6E, 0x8A, 0xDC] ∧
      (t.outLen, t.bitLen, t.symCount, t.tableEntries) = (3, 23, 11, 5) := by decide +kernel

/-- HE-16: the overflow is at input index 8, and the table is kept. -/
theorem test_hufEnc_overflow :
    let t := after .hufEnc (sized 4096 2
      (loaded [0x61, 0x62, 0x72, 0x61, 0x63, 0x61, 0x64, 0x61, 0x62, 0x72, 0x61]))
    ending t = (0x6, 7, 8) ∧ (t.outLen, t.bitLen, t.symCount, t.tableEntries, t.freqOf 0x61) =
      (0, 0, 0, 5, 5) := by decide +kernel

/-- HD-1. -/
theorem test_hufDec :
    let t := after .hufDec (expecting 9 (coded tableT1 (loaded streamT1)))
    t.outData 9 = scenario ∧ (t.outLen, t.bitLen) = (9, 18) := by decide +kernel

/-- HD-6: bit 1 has no child. -/
theorem test_hufDec_invalid :
    ending (after .hufDec (expecting 1 (coded [(0x61, [false]), (0x62, [true, false])] (loaded [0xC0])))) =
      (0x6, 2, 1) := by decide +kernel

/-- HDB-1: six padding bits decode as three more 'd'. -/
theorem test_hufDecB :
    let t := after .hufDecB (coded tableT1 (loaded streamT1))
    t.outData 12 = scenario ++ [0x64, 0x64, 0x64] ∧ (t.outLen, t.bitLen) = (12, 24) := by decide +kernel

/-- HDB-2: PARTIAL_TAIL. -/
theorem test_hufDecB_tail :
    let t := after .hufDecB
      (coded [(0x61, [true]), (0x62, [false, true]), (0x63, [false, false])] (loaded [0x80]))
    ending t = (0x12, 0, 0) ∧ t.outData 4 = [0x61, 0x63, 0x63, 0x63] := by decide +kernel

/-- RE-1. -/
theorem test_rleEnc :
    let t := after .rleEnc (loaded runs8)
    t.outData 6 = [5, 5, 2, 7, 1, 9] ∧ (t.outLen, t.runs) = (6, 3) := by decide +kernel

/-- RE-3: a run of 300 is split at 255. -/
theorem test_rleEnc_cap :
    (after .rleEnc (loaded (List.replicate 300 0x41))).outData 4 = [0xFF, 0x41, 0x2D, 0x41] := by
  decide +kernel

/-- RD-4: pairs of count 0 expand to nothing and are counted in RUNS. -/
theorem test_rleDec :
    let t := after .rleDec (loaded [0, 9, 3, 1, 0, 2])
    t.outData 3 = [1, 1, 1] ∧ (t.outLen, t.runs) = (3, 3) := by decide +kernel

/-- RD-3: the unpaired byte is index 2. -/
theorem test_rleDec_odd : ending (after .rleDec (loaded [5, 5, 2])) = (0x6, 9, 2) := by decide +kernel

/-- REP-6: the remainder goes to the last chunk. -/
theorem test_rleEncPar :
    let t := after .rleEncPar (workedBy 4 (loaded [1, 1, 1, 1, 1, 1, 2, 2, 2, 2]))
    t.outData 8 = [2, 1, 2, 1, 2, 1, 4, 2] ∧ (t.outLen, t.runs) = (8, 4) := by decide +kernel

/-- REP-5: 9 workers are more than MAX_WORKERS = 8. -/
theorem test_rleEncPar_workers : ending (after .rleEncPar (workedBy 9 (loaded [5, 5]))) = (0x6, 10, 0) := by
  decide +kernel

/-- RDP-1. -/
theorem test_rleDecPar :
    let t := after .rleDecPar (workedBy 4 (loaded [2, 5, 2, 5, 1, 5, 1, 7, 1, 7, 1, 9]))
    t.outData 8 = runs8 ∧ (t.outLen, t.runs) = (8, 6) := by decide +kernel

/-- RDP-2: BAD_WORKERS comes before the odd length. -/
theorem test_rleDecPar_order : ending (after .rleDecPar (workedBy 0 (loaded [5, 5, 2]))) = (0x6, 10, 0) := by
  decide +kernel

/-- CTL-2. -/
theorem test_clearTables :
    let t := after .clearTables { coded tableT1 (counted [(0x61, 3)] State.reset) with
      tableEntries := 4, outLen := 3 }
    ((t.ctOf 0x61).metaWord, t.freqOf 0x61, t.tableEntries, t.outLen) = (0, 0, 0, 3) := by decide +kernel

/-! ### The host's accesses, the step and reset -/

/-- CTW-1, CTW-6: the words of CT entries. -/
theorem test_ct_words :
    (CtEntry.ofCode [true, false]).metaWord = 0x80000002 ∧ (CtEntry.ofCode [true, false]).codeWord 0 = 2 ∧
      (CtEntry.ofCode (List.replicate 255 true)).metaWord = 0x800000FF ∧
      (CtEntry.ofCode (List.replicate 255 true)).codeWord 6 = 0xFFFFFFFF ∧
      (CtEntry.ofCode (List.replicate 255 true)).codeWord 7 = 0x7FFFFFFF := by decide +kernel

/-- CTW-5: '1' followed by 32 '0'. -/
theorem test_ct_word_1 : (CtEntry.ofCode (true :: List.replicate 32 false)).codeWord 1 = 1 ∧
    (CtEntry.ofCode (true :: List.replicate 32 false)).codeWord 0 = 0 := by decide +kernel

/-- CTL-12: a 32-bit read of IN is little-endian. -/
theorem test_read_little_endian :
    (afterStep (given [.read 0x10000000 .w32] (loaded [0x11, 0x22, 0x33, 0x44]))).responses =
      [.data 0x44332211] := by decide +kernel

/-- CTL-13: a 32-bit write of IN is little-endian. -/
theorem test_write_little_endian :
    let t := afterStep (given [.write 0x10000004 .w32 0xAABBCCDD] State.reset)
    (t.inByte 4, t.inByte 7) = (0xDD, 0xAA) ∧ t.responses = [.written] := by decide +kernel

/-- CTL-15: bus errors. -/
theorem test_bus_errors : ∀ input ∈ ([.write 0x018 .w8 1, .read 0x019 .w32, .read 0x040 .w32, .read 0x1004 .w32,
    .read 0x5000 .w32, .write 0x10000001 .w32 0, .read 0x20000FFE .w32, .read 0x10001000 .w32,
    .read 0x10000000 .w16] : List Input),
    (afterStep (given [input] State.reset)).responses = [.busError] := by decide +kernel

/-- CTL-16: the last word of IN and the last byte of OUT are mapped. -/
theorem test_last_bytes : locate Config.standard 0x10000FFC .w32 = some (.input 4092) ∧
    locate Config.standard 0x20000FFF .w8 = some (.output 4095) := by decide

/-- CTL-23 (a): a write right after a CMD write is dropped and sets OVERRUN. -/
theorem test_overrun :
    let t := afterStep (running 4 [.write 0x024 .w32 5] (loaded scenario))
    t.inLen = 9 ∧ t.status.overrun = true := by decide +kernel

/-- CTL-6: of 0x12, the W1C word 0x13 clears DONE only. -/
theorem test_w1c : (afterStep { given [.write 0x018 .w32 0x13] State.reset with
    status := ⟨false, true, false, false, true⟩ }).status.word = 0x10 := by decide

/-- CTL-8, CTL-22: only the held bits of CTRL and WORKERS are written. -/
theorem test_held_bits : (afterStep (given [.write 0x010 .w32 0xFFFFFFFF] State.reset)).ctrlWord = 1 ∧
    (afterStep (given [.write 0x034 .w32 0x104] State.reset)).workers = 4 := by decide +kernel

/-- CTL-4: ILLEGAL_CMD comes before IN_LEN_TOO_LARGE. -/
theorem test_illegal : ending (afterStep { running 0x16 [] (sized 2 4096 State.reset) with inLen := 3 }) =
    (0x6, 11, 0) := by decide +kernel

/-- 60_exceptions R353: the placed word runs as the next step (REP-1's cousin RE-9: AA gives 01 AA). -/
theorem test_placed_word :
    (afterStep ((loaded [0xAA]).withFetchWord 32 6)).outData 2 = [0x01, 0xAA] := by decide +kernel

/-- RST-1, RST-2: reset abandons a running command and gives the registers their reset values. -/
theorem test_reset :
    let t := afterStep (running 4 [.reset] { loaded scenario with ie := true })
    (t.regWord .id, t.regWord .capIn, t.regWord .capWorkers, t.regWord .workers) =
        (0x48524301, 0x1000, 8, 4) ∧
      (t.regWord .status, t.regWord .cmd, t.regWord .inLen, t.irq, t.phase) = (0, 0, 0, false, .idle) := by
  decide +kernel

/-- SF-1 and the symbol tokens of SF-2. -/
theorem test_side_file : sideFile (tableOf tableT1) =
      [0x61, 0x20, 0x31, 0x30, 0x0A, 0x62, 0x20, 0x31, 0x31, 0x0A,
        0x63, 0x20, 0x30, 0x31, 0x0A, 0x64, 0x20, 0x30, 0x30, 0x0A] ∧
    symbolToken 0x0A = [0x5C, 0x6E] ∧ symbolToken 0x20 = [0x5B, 0x73, 0x70, 0x61, 0x63, 0x65, 0x5D] := by
  decide +kernel

/-- P5: SETCT 0x61, '1' and ISSUE HUF_DEC.B expand to these writes. -/
theorem test_setct : programInputs [.setCt 0x61 1 1, .issue .hufDecB] =
    [.write 0x2840 .w32 0x80000001, .write 0x2860 .w32 1, .write 0x2864 .w32 0, .write 0x2868 .w32 0,
      .write 0x286C .w32 0, .write 0x2870 .w32 0, .write 0x2874 .w32 0, .write 0x2878 .w32 0,
      .write 0x287C .w32 0, .write 0x014 .w32 0x15] := by decide +kernel

/-! ### States that meet the hypotheses of the statements -/

/-- Every command answers a next state, and `after` names it. -/
theorem exec_after (i : Instr) (s : State) : exec i s = .next (after i s) := by
  obtain ⟨t, h, -⟩ := exec_result i s
  simp [after, h]

/-- A table whose codes can be rebuilt is prefix-free. -/
theorem prefixFree_of_isOk {ct : Table CtEntry} (h : (rebuild ct).isOk = true) : PrefixFree ct := by
  cases hr : rebuild ct with
  | ok r => exact prefixFree_of_rebuild hr
  | error e => simp [hr, Except.isOk, Except.toBool] at h

/-- Each chunk has its run-length form. -/
theorem chunk_forms (data : List Byte) (cs : List (Nat × Nat)) :
    List.Forall₂ (fun c q => RunLengthOf (slice data c.1 c.2) q) cs
      (cs.map fun c => (rleEncode c.1 (slice data c.1 c.2)).map RlePair.plain) := by
  rw [List.forall₂_map_right_iff, List.forall₂_same]
  exact fun c _ => rleEncode_spec c.1 _

theorem witness_StepRunsPlacedCommand :
    Instr.hufDecB.wf = true ∧ decodeTableWord 32 0x15 = some .hufDecB := by decide

theorem witness_EngineRunsLatchedCommand : ∀ inputs ∈ ([[], [.engine], [.wait, .engine]] : List (List Input)),
    (running 6 inputs (loaded [0xAA])).phase = .busy ∧
      decode (running 6 inputs (loaded [0xAA])).latched = .ok .rleEnc ∧
      (running 6 inputs (loaded [0xAA])).inputs = inputs := by decide +kernel

/-- Each clause; CTL-3 is `ISSUE.RAW w ; WAIT`. -/
theorem witness_IllegalWordReportsIllegalCmd : ∀ inputs ∈ ([[], [.engine], [.wait]] : List (List Input)),
    (running 0x0B inputs State.reset).phase = .busy ∧
      decode (running 0x0B inputs State.reset).latched = .error .reservedOpcode ∧
      (running 0x0B inputs State.reset).inputs = inputs := by decide +kernel

/-- A running state meets the invariant, and steps. -/
theorem witness_StepKeepsInvariant : (running 6 [] (loaded [0xAA])).Inv ∧
    step (running 6 [] (loaded [0xAA])) = .next (after .rleEnc (running 6 [] (loaded [0xAA]))) := by
  refine ⟨?_, exec_after .rleEnc (running 6 [] (loaded [0xAA]))⟩
  constructor <;> decide +kernel

theorem witness_ResetMeetsInvariant : (⟨1, 2 ^ 28, 255⟩ : Config).wf = true := by decide

theorem witness_ResetRestoresEveryValue :
    (running 4 [.reset, .wait] (loaded scenario)).inputs = [.reset, .wait] := by decide +kernel

/-- The first and the last index of each clause. -/
theorem witness_LegalAccessesReachTheirLocation : Config.standard.wf = true ∧ 7 < 8 ∧
    0 < Config.standard.maxIn ∧ 4095 < Config.standard.maxIn ∧ 4092 % 4 = 0 ∧
    4092 + 4 ≤ Config.standard.maxIn ∧ 4095 < Config.standard.maxOut ∧ 4092 + 4 ≤ Config.standard.maxOut := by
  decide

/-- A location of every kind and width; CT_CODE(0xFF, 7) is the last word of CT. -/
theorem witness_OtherAccessesAreBusErrors : Config.standard.wf = true ∧
    locate Config.standard 0x03C .w32 = some (.reg .runs) ∧
    locate Config.standard 0x7FC .w32 = some (.freq 0xFF) ∧
    locate Config.standard 0x4FC0 .w32 = some (.ctMeta 0xFF) ∧
    locate Config.standard 0x4FFC .w32 = some (.ctCode 0xFF 7) ∧
    locate Config.standard 0x10000FFF .w8 = some (.input 4095) ∧
    locate Config.standard 0x20000FFC .w32 = some (.output 4092) := by decide

theorem witness_BusErrorChangesNothing : locate State.reset.cfg 0x040 .w32 = none ∧
    (given [.read 0x040 .w32] State.reset).inputs = [.read 0x040 .w32] ∧
    (given [.write 0x040 .w32 1] State.reset).inputs = [.write 0x040 .w32 1] := by decide

theorem witness_WriteWhileBusyIsDropped :
    let s := running 4 [.write 0x024 .w32 5] State.reset
    s.status.busy = true ∧ locate s.cfg 0x024 .w32 = some (.reg .inLen) ∧
      Location.reg .inLen ≠ .reg .ctrl ∧ Location.reg .inLen ≠ .reg .status ∧
      s.inputs = [.write 0x024 .w32 5] := by decide

theorem witness_ReadsHaveNoSideEffect :
    let s := given [.read 0x20000000 .w8] State.reset
    locate s.cfg 0x20000000 .w8 = some (.output 0) ∧ s.inputs = [.read 0x20000000 .w8] ∧
      s.status.busy = false := by decide

/-- A held location and a free one, at both widths. -/
theorem witness_ReadsWhileBusy : ∀ a ∈ ([(0x034, .w32), (0x028, .w32), (0x10000000, .w8)] : List (Word × Width)),
    (running 4 [.read a.1 a.2] State.reset).status.busy = true ∧
      (locate (running 4 [.read a.1 a.2] State.reset).cfg a.1 a.2).isSome = true ∧
      (running 4 [.read a.1 a.2] State.reset).inputs = [.read a.1 a.2] := by decide +kernel

theorem witness_HeldWordsHoldTheirFields : (coded tableT1 (loaded scenario)).cfg.wf = true := by decide

theorem witness_CmdWriteIsAccepted :
    (given [.write Reg.cmd.addr .w32 0x0B] State.reset).inputs = [.write Reg.cmd.addr .w32 0x0B] ∧
      State.reset.status.busy = false ∧ (running 4 [] State.reset).status.busy = true := by decide

theorem witness_StatusWriteClearsBits :
    (given [.write Reg.status.addr .w32 0xE] State.reset).inputs = [.write Reg.status.addr .w32 0xE] := by decide

theorem witness_CtrlWriteSetsEnable :
    (given [.write Reg.ctrl.addr .w32 1] State.reset).inputs = [.write Reg.ctrl.addr .w32 1] := by decide

theorem witness_RegisterWrites : ∀ r ∈ ([.inLen, .symCount, .workers, .id, .runs] : List Reg),
    (given [.write r.addr .w32 0x104] State.reset).inputs = [.write r.addr .w32 0x104] ∧
      State.reset.status.busy = false := by decide +kernel

/-- The last byte and the last word of IN and OUT. -/
theorem witness_DataWritesStoreTheirBytes : State.reset.cfg.wf = true ∧ State.reset.status.busy = false ∧
    4095 + 1 ≤ State.reset.cfg.maxIn ∧ 4095 + 1 ≤ State.reset.cfg.maxOut ∧ 4092 % 4 = 0 ∧
    4092 + 4 ≤ State.reset.cfg.maxIn ∧ 4092 + 4 ≤ State.reset.cfg.maxOut ∧
    (given [.write (inAddr 4095) .w8 1] State.reset).inputs = [.write (inAddr 4095) .w8 1] ∧
    (given [.write (outAddr 4092) .w32 1] State.reset).inputs = [.write (outAddr 4092) .w32 1] := by decide

/-- The last word of FREQ, of CT_META and of CT_CODE. -/
theorem witness_TableWritesReadBack : State.reset.cfg.wf = true ∧ State.reset.status.busy = false ∧ 7 < 8 ∧
    (given [.write (freqAddr 0xFF) .w32 1] State.reset).inputs = [.write (freqAddr 0xFF) .w32 1] ∧
    (given [.write (ctMetaAddr 0xFF) .w32 1] State.reset).inputs = [.write (ctMetaAddr 0xFF) .w32 1] ∧
    (given [.write (ctCodeAddr 0xFF 7) .w32 1] State.reset).inputs = [.write (ctCodeAddr 0xFF 7) .w32 1] := by
  decide

theorem witness_HostWritesDoNotDisturbCommand :
    exec .hufEnc (loaded scenario) = .next (after .hufEnc (loaded scenario)) := exec_after _ _

theorem witness_NoCommandTouchesItsOperands :
    exec .rleDec (loaded [5, 5]) = .next (after .rleDec (loaded [5, 5])) := exec_after _ _

theorem witness_CommandsKeepWhatTheyDoNotWrite :
    exec .hufBuild (counted [(0x61, 3)] State.reset) = .next (after .hufBuild (counted [(0x61, 3)] State.reset)) :=
  exec_after _ _

theorem witness_SuccessKeepsOutAboveOutLen : (loaded runs8).cfg.wf = true ∧
    exec .rleEnc (loaded runs8) = .next (after .rleEnc (loaded runs8)) ∧
    (after .rleEnc (loaded runs8)).errCode = 0 :=
  ⟨by decide, exec_after _ _, by decide +kernel⟩

/-- A start-check error of a legal word and of an illegal word. -/
theorem witness_StartCheckErrorsChangeNothing :
    (running 2 [] State.reset).completionStep = .next (after .hufBuild (running 2 [] State.reset)) ∧
    (after .hufBuild (running 2 [] State.reset)).errCode = 1 ∧
    (running 0x0B [] State.reset).completionStep =
      .next ((running 0x0B [] State.reset).failStart .illegalCmd 0) ∧
    ((running 0x0B [] State.reset).failStart .illegalCmd 0).errCode = 11 :=
  ⟨exec_after .hufBuild _, by decide +kernel, rfl, rfl⟩

/-- An execution error of each clause: HP-2, HE-16 with less, HD-6 and RE-8. -/
theorem witness_ExecutionErrorsClearResults :
    (after .hufPack (coded [(0x61, [true]), (0x62, [false, true])] (loaded [0x61, 0x62, 0x7A]))).errCode = 6 ∧
    (after .hufEnc (sized 4096 2 (loaded scenario))).errCode = 7 ∧
    (after .hufDec (expecting 1 (coded [(0x61, [false])] (loaded [0xC0])))).errCode = 2 ∧
    (after .hufDec (expecting 9 (coded tableT1 (loaded [0xAB])))).errCode = 5 ∧
    (after .rleEnc (sized 4096 7 (loaded [1, 2, 3, 4]))).errCode = 7 := by decide +kernel

theorem witness_ErrorsAsTabulated :
    exec .hufDec (loaded [0xC0]) = .next (after .hufDec (loaded [0xC0])) := exec_after _ _

/-- Each clause, at the first value past its range: 4097 bytes; 0 and 9 workers; an odd length. -/
theorem witness_StartCheckOrder :
    { loaded [] with inLen := 4097 }.cfg.maxIn < { loaded [] with inLen := (4097 : Word) }.inLen.toNat ∧
    ((workedBy 0 (loaded [5])).workers.toNat = 0 ∧ (workedBy 9 (loaded [5])).cfg.maxWorkers <
      (workedBy 9 (loaded [5])).workers.toNat ∧ (loaded [5]).inLen.toNat ≤ (loaded [5]).cfg.maxIn) ∧
    ((loaded [5]).inLen.toNat % 2 = 1 ∧ 1 ≤ (loaded [5]).workers.toNat ∧
      (loaded [5]).workers.toNat ≤ (loaded [5]).cfg.maxWorkers) ∧
    (∀ b, State.reset.freqOf b = 0) ∧ (∀ b, State.reset.ctOf b = ⟨false, 0, 0⟩) ∧
    (expecting 1 (loaded [5])).symCount ≠ 0 ∧ (loaded [5]).inLen ≠ 0 := by
  refine ⟨by decide, by decide, by decide, fun b => ?_, fun b => ?_, by decide, by decide⟩
  · exact Table.get_replicate 0 b
  · exact Table.get_replicate _ b

theorem witness_HufFreqCountsInput : (loaded scenario).inLen.toNat ≤ (loaded scenario).cfg.maxIn ∧
    (sized 8 4096 (loaded scenario)).cfg.maxIn < (sized 8 4096 (loaded scenario)).inLen.toNat := by decide

theorem witness_HufBuildWritesCompleteTable : ∃ b, (counted [(0x61, 3)] State.reset).freqOf b ≠ 0 :=
  ⟨0x61, by decide +kernel⟩

/-- Both clauses: two symbols present, and none. -/
theorem witness_HufBuildWritesTreePaths :
    List.Perm [⟨0x62, .leaf 0x62 2⟩, ⟨0x61, .leaf 0x61 3⟩]
      ((allSymbols.filter fun b => (counted [(0x61, 3), (0x62, 2)] State.reset).freqOf b != 0).map fun b =>
        (⟨b.toNat, .leaf b ((counted [(0x61, 3), (0x62, 2)] State.reset).freqOf b).toNat⟩ : Queued)) ∧
    (∃ b, (counted [(0x61, 3), (0x62, 2)] State.reset).freqOf b ≠ 0) ∧ ∀ b, State.reset.freqOf b = 0 := by
  refine ⟨?_, ⟨0x61, by decide +kernel⟩, fun b => Table.get_replicate 0 b⟩
  decide +kernel

/-- HP-10: the codes fill OUT exactly. -/
theorem witness_HufPackWritesCodes :
    let s := sized 4096 1 (coded [(0x61, [true, true, true, true])] (loaded [0x61, 0x61]))
    s.cfg.wf = true ∧ s.inLen.toNat ≤ s.cfg.maxIn ∧ (∀ b ∈ s.inData, (s.ctOf b).valid = true) ∧
      (streamOf s.ct s.inData).length ≤ 8 * s.cfg.maxOut := by decide +kernel

/-- HP-2: a symbol without a code. -/
theorem witness_HufPackReportsFirstError_noCode :
    let s := coded [(0x61, [true]), (0x62, [false, true])] (loaded [0x61, 0x62, 0x7A])
    s.inLen.toNat ≤ s.cfg.maxIn ∧ s.inData = [0x61, 0x62] ++ 0x7A :: [] ∧
      (∀ c ∈ ([0x61, 0x62] : List Byte), (s.ctOf c).valid = true) ∧
      (streamOf s.ct [0x61, 0x62]).length ≤ 8 * s.cfg.maxOut ∧ (s.ctOf 0x7A).valid = false := by
  decide +kernel

/-- HP-4: a code that does not fit. -/
theorem witness_HufPackReportsFirstError_overflow :
    let s := sized 4096 1 (coded [(0x61, [true, false, true])] (loaded [0x61, 0x61, 0x61, 0x61]))
    s.inLen.toNat ≤ s.cfg.maxIn ∧ s.inData = [0x61, 0x61] ++ 0x61 :: [0x61] ∧
      (streamOf s.ct [0x61, 0x61]).length ≤ 8 * s.cfg.maxOut ∧ (s.ctOf 0x61).valid = true ∧
      8 * s.cfg.maxOut < (streamOf s.ct [0x61, 0x61]).length + (s.ctOf 0x61).len.toNat := by decide +kernel

theorem witness_HufEncIsTheThreeStages : (loaded scenario).inLen.toNat ≤ (loaded scenario).cfg.maxIn ∧
    (loaded scenario).inLen ≠ 0 ∧ (loaded scenario).cfg.wf = true := by decide

/-- HE-17 (23 bits into 3 bytes) and the empty input. -/
theorem witness_HufEncEncodesInput : ∀ x ∈ ([[0x61, 0x62, 0x72, 0x61, 0x63, 0x61, 0x64, 0x61, 0x62, 0x72, 0x61], []] :
    List (List Byte)), (sized 4096 3 (loaded x)).cfg.wf = true ∧ (loaded x).inLen.toNat ≤ 4096 ∧
      (streamOf (tableOf (codesOf (countSymbols (loaded x).inData))) (loaded x).inData).length ≤ 8 * 3 := by
  decide +kernel

/-- HD-4: the code of 'a' begins the code of 'b'. -/
theorem witness_BadCodeTableNamesFirstSymbol :
    let s := coded [(0x61, [false]), (0x62, [false, true])] (loaded [0])
    s.inLen.toNat ≤ s.cfg.maxIn ∧ (s.ctOf 0x61).valid = true ∧ (s.ctOf 0x62).valid = true ∧
      (s.ctOf 0x61).code <+: (s.ctOf 0x62).code ∧
      ∀ c d : Byte, (s.ctOf c).valid = true → (s.ctOf d).valid = true → c.toNat < d.toNat →
        d.toNat < (0x62 : Byte).toNat → ¬ (s.ctOf c).code <+: (s.ctOf d).code ∧
          ¬ (s.ctOf d).code <+: (s.ctOf c).code := by
  refine ⟨by decide, by decide +kernel, by decide +kernel, by decide +kernel, ?_⟩
  have low : ∀ c : Byte, ((coded [(0x61, [false]), (0x62, [false, true])] (loaded [0])).ctOf c).valid = true →
      0x61 ≤ c.toNat := by decide +kernel
  intro c d hc _ hcd hd
  have := low c hc
  simp at hd
  omega

/-- HD-1. -/
theorem witness_HufDecDecodesCountedStream :
    let s := expecting 9 (coded tableT1 (loaded streamT1))
    s.cfg.wf = true ∧ s.inLen.toNat ≤ s.cfg.maxIn ∧ PrefixFree s.ct ∧
      (∀ b ∈ scenario, (s.ctOf b).valid = true) ∧
      unpackBits s.inData = streamOf s.ct scenario ++ List.replicate 6 false ∧
      scenario.length = s.symCount.toNat ∧ scenario.length ≤ s.cfg.maxOut :=
  ⟨by decide, by decide, prefixFree_of_isOk (by decide +kernel), by decide +kernel, by decide +kernel,
    by decide, by decide⟩

/-- HD-5: the bits end where a fifth code would begin. -/
theorem witness_HufDecReportsFirstStreamError_truncated :
    let s := expecting 9 (coded tableT1 (loaded [0xAB]))
    s.inLen.toNat ≤ s.cfg.maxIn ∧ PrefixFree s.ct ∧ (∃ b, (s.ctOf b).valid = true) ∧
      (∀ b ∈ ([0x61, 0x61, 0x61, 0x62] : List Byte), (s.ctOf b).valid = true) ∧
      unpackBits s.inData = streamOf s.ct [0x61, 0x61, 0x61, 0x62] ++ [] ++ [] ∧ 4 < s.symCount.toNat ∧
      4 ≤ s.cfg.maxOut ∧ InsideCode s.ct [] :=
  ⟨by decide, prefixFree_of_isOk (by decide +kernel), ⟨0x61, by decide +kernel⟩, by decide +kernel,
    by decide +kernel, by decide, by decide, ⟨0x61, by decide +kernel⟩⟩

/-- HD-6: after '1' the bit '1' leads nowhere. -/
theorem witness_HufDecReportsFirstStreamError_invalid :
    let s := expecting 1 (coded [(0x61, [false]), (0x62, [true, false])] (loaded [0xC0]))
    s.inLen.toNat ≤ s.cfg.maxIn ∧ PrefixFree s.ct ∧ (∃ b, (s.ctOf b).valid = true) ∧
      unpackBits s.inData = streamOf s.ct [] ++ [true] ++ true :: List.replicate 6 false ∧
      0 < s.symCount.toNat ∧ InsideCode s.ct [true] ∧
      ∀ c, (s.ctOf c).valid = true → ¬ [true] ++ [true] <+: (s.ctOf c).code :=
  ⟨by decide, prefixFree_of_isOk (by decide +kernel), ⟨0x61, by decide +kernel⟩, by decide +kernel,
    by decide, ⟨0x62, by decide +kernel⟩, by decide +kernel⟩

/-- HD-8: the ninth symbol finds OUT full. -/
theorem witness_HufDecReportsFirstStreamError_full :
    let s := sized 4096 8 (expecting 9 (coded tableT1 (loaded streamT1)))
    s.inLen.toNat ≤ s.cfg.maxIn ∧ PrefixFree s.ct ∧ (∃ b, (s.ctOf b).valid = true) ∧
      (∀ b ∈ scenario.take 8, (s.ctOf b).valid = true) ∧
      unpackBits s.inData =
        streamOf s.ct (scenario.take 8) ++ [false, false] ++ List.replicate 6 false ∧
      (scenario.take 8).length < s.symCount.toNat ∧ (s.ctOf 0x64).valid = true ∧
      [false, false] = (s.ctOf 0x64).code ∧ (scenario.take 8).length = s.cfg.maxOut :=
  ⟨by decide, prefixFree_of_isOk (by decide +kernel), ⟨0x61, by decide +kernel⟩, by decide +kernel,
    by decide +kernel, by decide, by decide +kernel, by decide +kernel, by decide⟩

/-- HDB-2: the input ends inside a code path. -/
theorem witness_HufDecBDecodesWholeStream_tail :
    let s := coded [(0x61, [true]), (0x62, [false, true]), (0x63, [false, false])] (loaded [0x80])
    s.cfg.wf = true ∧ s.inLen.toNat ≤ s.cfg.maxIn ∧ PrefixFree s.ct ∧
      (∀ b ∈ ([0x61, 0x63, 0x63, 0x63] : List Byte), (s.ctOf b).valid = true ∧ (s.ctOf b).code ≠ []) ∧
      InsideCode s.ct [false] ∧
      unpackBits s.inData = streamOf s.ct [0x61, 0x63, 0x63, 0x63] ++ [false] :=
  ⟨by decide, by decide, prefixFree_of_isOk (by decide +kernel), by decide +kernel,
    ⟨0x62, by decide +kernel⟩, by decide +kernel⟩

/-- HDB-1: the input ends after a code. -/
theorem witness_HufDecBDecodesWholeStream_whole :
    let s := coded tableT1 (loaded streamT1)
    s.cfg.wf = true ∧ s.inLen.toNat ≤ s.cfg.maxIn ∧ PrefixFree s.ct ∧
      (∀ b ∈ scenario ++ [0x64, 0x64, 0x64], (s.ctOf b).valid = true ∧ (s.ctOf b).code ≠ []) ∧
      unpackBits s.inData = streamOf s.ct (scenario ++ [0x64, 0x64, 0x64]) ++ [] ∧
      (scenario ++ [0x64, 0x64, 0x64]).length ≤ s.cfg.maxOut :=
  ⟨by decide, by decide, prefixFree_of_isOk (by decide +kernel), by decide +kernel, by decide +kernel,
    by decide⟩

/-- HDB-9: node '11' has no child '1'. -/
theorem witness_HufDecBReportsFirstStreamError_invalid :
    let s := coded [(0x61, [false]), (0x62, [true, false]), (0x63, [true, true, false])] (loaded [0xFF])
    s.inLen.toNat ≤ s.cfg.maxIn ∧ PrefixFree s.ct ∧ (∃ c, (s.ctOf c).valid = true) ∧
      unpackBits s.inData = streamOf s.ct [] ++ [true, true] ++ true :: List.replicate 5 true ∧
      InsideCode s.ct [true, true] ∧
      ∀ c, (s.ctOf c).valid = true → ¬ [true, true] ++ [true] <+: (s.ctOf c).code :=
  ⟨by decide, prefixFree_of_isOk (by decide +kernel), ⟨0x61, by decide +kernel⟩, by decide +kernel,
    ⟨0x63, by decide +kernel⟩, by decide +kernel⟩

/-- HDB-7: the twelfth symbol finds OUT full. -/
theorem witness_HufDecBReportsFirstStreamError_full :
    let s := sized 4096 11 (coded tableT1 (loaded streamT1))
    s.inLen.toNat ≤ s.cfg.maxIn ∧ PrefixFree s.ct ∧ (∃ c, (s.ctOf c).valid = true) ∧
      (∀ c ∈ scenario ++ [0x64, 0x64], (s.ctOf c).valid = true ∧ (s.ctOf c).code ≠ []) ∧
      unpackBits s.inData = streamOf s.ct (scenario ++ [0x64, 0x64]) ++ [false] ++ false :: [] ∧
      (s.ctOf 0x64).valid = true ∧ [false] ++ [false] = (s.ctOf 0x64).code ∧
      (scenario ++ [0x64, 0x64]).length = s.cfg.maxOut :=
  ⟨by decide, prefixFree_of_isOk (by decide +kernel), ⟨0x61, by decide +kernel⟩, by decide +kernel,
    by decide +kernel, by decide +kernel, by decide +kernel, by decide⟩

/-- A state ready to decode what command `i` left in `s`: its stream copied to IN, its table and symbol
count kept (70_reset R409). -/
def copiedBack (i : Instr) (s : State) : State :=
  { after i s with
    inMem := Memory.layOut 0 ((after i s).outData (after i s).outLen.toNat)
    inLen := (after i s).outLen }

/-- P1 (HE-1, HD-1). -/
theorem witness_HuffmanRoundTrip :
    let s := loaded scenario
    let t := after .hufEnc s
    let u := copiedBack .hufEnc s
    s.cfg.wf = true ∧ exec .hufEnc s = .next t ∧ t.errCode = 0 ∧ s.inData.length ≤ s.cfg.maxOut ∧
      t.outLen.toNat ≤ s.cfg.maxIn ∧ u.cfg = s.cfg ∧ u.ct = t.ct ∧ u.symCount = t.symCount ∧
      u.inLen = t.outLen ∧ u.inData = t.outData t.outLen.toNat :=
  ⟨by decide, exec_after _ _, by decide +kernel, by decide +kernel, by decide +kernel, by decide +kernel,
    rfl, rfl, rfl, by decide +kernel⟩

/-- HE-1 (S = 4) with room for the extra symbols, with room for the input only, and with less, and HE-4
(S = 1) with room for the input and with less. -/
theorem witness_BaselineGap : ∀ x ∈ ([(4096, scenario), (11, scenario), (3, scenario),
    (4096, List.replicate 4 0x61), (1, List.replicate 4 0x61)] : List (Nat × List Byte)),
    let s := sized 4096 x.1 (loaded x.2)
    let t := after .hufEnc s
    let u := copiedBack .hufEnc s
    s.cfg.wf = true ∧ t.errCode = 0 ∧ s.inLen ≠ 0 ∧ t.outLen.toNat ≤ s.cfg.maxIn ∧
      u.cfg = s.cfg ∧ u.inLen = t.outLen ∧
      u.inData = t.outData t.outLen.toNat ∧
      t.tableEntries.toNat = (if x.2 = scenario then 4 else 1) := by decide +kernel

/-- RE-1, with OUT filled exactly. -/
theorem witness_RleEncWritesRunLengthForm :
    let s := sized 4096 6 (loaded runs8)
    s.cfg.wf = true ∧ s.inLen.toNat ≤ s.cfg.maxIn ∧ RunLengthOf s.inData [(5, 5), (2, 7), (1, 9)] ∧
      2 * 3 ≤ s.cfg.maxOut :=
  ⟨by decide, by decide, ⟨by decide +kernel, by decide, by decide⟩, by decide⟩

/-- RE-8, and the same input cut into four chunks. -/
theorem witness_RleEncReportsFirstPair :
    let s := workedBy 4 (sized 4096 7 (loaded [1, 2, 3, 4]))
    let parts := (chunks s.inLen.toNat s.workers.toNat).map fun c : Nat × Nat =>
      (rleEncode c.1 (slice s.inData c.1 c.2)).map RlePair.plain
    s.inLen.toNat ≤ s.cfg.maxIn ∧ 2 * 3 ≤ s.cfg.maxOut ∧ s.cfg.maxOut < 2 * 3 + 2 ∧
      RunLengthOf s.inData ([(1, 1), (1, 2), (1, 3)] ++ (1, 4) :: []) ∧
      1 ≤ s.workers.toNat ∧ s.workers.toNat ≤ s.cfg.maxWorkers ∧
      List.Forall₂ (fun c q => RunLengthOf (slice s.inData c.1 c.2) q)
        (chunks s.inLen.toNat s.workers.toNat) parts ∧
      parts.flatten = [(1, 1), (1, 2), (1, 3)] ++ (1, 4) :: [] :=
  ⟨by decide, by decide, by decide, ⟨by decide +kernel, by decide, by decide⟩, by decide, by decide,
    chunk_forms _ _, by decide +kernel⟩

/-- RD-6b, which fills OUT exactly, and a pair of count 0. -/
theorem witness_RleDecExpandsPairs :
    let s := sized 4096 300 (workedBy 8 (loaded [0xC8, 1, 0x64, 2, 0, 9]))
    s.cfg.wf = true ∧ s.inLen.toNat ≤ s.cfg.maxIn ∧
      (∀ p ∈ ([(200, 1), (100, 2), (0, 9)] : List (Nat × Byte)), p.1 ≤ 255) ∧
      s.inData = pairBytes [(200, 1), (100, 2), (0, 9)] ∧
      (expand [(200, 1), (100, 2), (0, 9)]).length ≤ s.cfg.maxOut ∧
      1 ≤ s.workers.toNat ∧ s.workers.toNat ≤ s.cfg.maxWorkers := by decide +kernel

/-- RD-6 and RDP-4. -/
theorem witness_RleDecReportsFirstPair :
    let s := sized 4096 300 (workedBy 2 (loaded [0xC8, 1, 0xC8, 2]))
    s.inLen.toNat ≤ s.cfg.maxIn ∧
      (∀ q ∈ ([(200, 1)] ++ (200, 2) :: [] : List (Nat × Byte)), q.1 ≤ 255) ∧
      s.inData = pairBytes ([(200, 1)] ++ (200, 2) :: []) ∧ (expand [(200, 1)]).length ≤ s.cfg.maxOut ∧
      s.cfg.maxOut < (expand [(200, 1)]).length + 200 ∧ 1 ≤ s.workers.toNat ∧
      s.workers.toNat ≤ s.cfg.maxWorkers := by decide +kernel

/-- REP-2 (fewer bytes than workers), one byte for each worker, and REP-6. -/
theorem witness_ChunksPartitionInput : 1 ≤ 4 ∧ ([5, 5, 7] : List Byte).length < 4 ∧
    4 ≤ ([5, 5, 7, 9] : List Byte).length ∧ chunks 10 4 = [(0, 2), (2, 4), (4, 6), (6, 10)] := by decide

/-- REP-1, with OUT filled exactly. -/
theorem witness_RleEncParEncodesChunks :
    let s := workedBy 4 (sized 4096 12 (loaded runs8))
    let parts := (chunks s.inLen.toNat s.workers.toNat).map fun c : Nat × Nat =>
      (rleEncode c.1 (slice s.inData c.1 c.2)).map RlePair.plain
    s.cfg.wf = true ∧ s.inLen.toNat ≤ s.cfg.maxIn ∧ 1 ≤ s.workers.toNat ∧
      s.workers.toNat ≤ s.cfg.maxWorkers ∧
      List.Forall₂ (fun c p => RunLengthOf (slice s.inData c.1 c.2) p)
        (chunks s.inLen.toNat s.workers.toNat) parts ∧ 2 * parts.flatten.length ≤ s.cfg.maxOut :=
  ⟨by decide, by decide, by decide, by decide, chunk_forms _ _, by decide +kernel⟩

/-- REP-2 and REP-3. -/
theorem witness_RleEncParFallsBack : ∀ s ∈ [workedBy 4 (loaded [5, 5, 7]), workedBy 1 (loaded runs8)],
    1 ≤ s.workers.toNat ∧ s.workers.toNat ≤ s.cfg.maxWorkers ∧
      (s.inLen.toNat < s.workers.toNat ∨ s.workers.toNat = 1) := by decide

/-- The smallest and the largest worker count. -/
theorem witness_RleDecParEqualsRleDec : ∀ s ∈ [workedBy 1 (loaded [5, 5]), workedBy 8 (loaded [5, 5])],
    1 ≤ s.workers.toNat ∧ s.workers.toNat ≤ s.cfg.maxWorkers := by decide

/-- RDP-8's pairs, taken in the opposite order. -/
theorem witness_WorkerOrderDoesNotMatter :
    regionPass 4096 0 0 [0, 9, 3, 1, 0, 2] = .ok ([⟨0, 0, 9⟩, ⟨0, 3, 1⟩, ⟨3, 0, 2⟩], 3) ∧
    List.Perm [⟨3, 0, 2⟩, ⟨0, 3, 1⟩, ⟨0, 0, 9⟩] [(⟨0, 0, 9⟩ : RleRegion), ⟨0, 3, 1⟩, ⟨3, 0, 2⟩] := by
  decide

/-- P2: each encoder's output, copied back; RLE_ENC then RLE_DEC also with WORKERS = 0. -/
theorem witness_RleRoundTrip : ∀ e ∈ ([.rleEnc, .rleEncPar] : List Instr),
    let s := loaded runs8
    let t := after e s
    let u := copiedBack e s
    s.cfg.wf = true ∧ exec e s = .next t ∧ t.errCode = 0 ∧ s.inData.length ≤ s.cfg.maxOut ∧
      t.outLen.toNat ≤ s.cfg.maxIn ∧ u.cfg = s.cfg ∧ 1 ≤ u.workers.toNat ∧
      u.workers.toNat ≤ u.cfg.maxWorkers ∧ u.inLen = t.outLen ∧ u.inData = t.outData t.outLen.toNat ∧
      (workedBy 0 u).inData = t.outData t.outLen.toNat ∧
      (Instr.rleDec = .rleDecPar →
        1 ≤ (workedBy 0 u).workers.toNat ∧ (workedBy 0 u).workers.toNat ≤ u.cfg.maxWorkers) := by
  intro e he
  refine ⟨by decide, exec_after e _, ?_⟩
  revert e
  decide +kernel

theorem witness_ParallelEncodeCost : 1 ≤ 1 ∧ 1 ≤ 255 := by decide

end Sys2Proof.Tests
end

/-! ## O8: every step keeps the state invariant

The commands and the bus accesses keep it by `State.Inv.exec`, `State.Inv.busRead` and
`State.Inv.busWrite`; what a step can do besides is reset, the report of an illegal word, and the taking
of the first input. -/

namespace Sys2Proof.Machine

/-- The reset values meet the invariant for legal parameters (70_reset R400). -/
theorem State.Inv.resetWith {cfg : Config} (hc : cfg.wf = true) (n : Nat) : (State.resetWith cfg n).Inv where
  cfgLegal := hc
  phaseMirrored := by simp [State.resetWith]
  latchedMirrored := rfl
  busyFlags _ := ⟨rfl, rfl⟩
  errHasCode := nofun
  codeKnown := Nat.zero_le _
  noErrorNoPos _ := rfl
  posBound := Nat.zero_le _
  tailNoError := nofun
  outLenBound := Nat.zero_le _
  bitLenBound := Nat.zero_le _
  runsBound := Nat.zero_le _
  entriesBound := Nat.zero_le _
  inCanonical := .nil
  outCanonical := .nil
  inWithin := nofun
  outWithin := nofun
  inDrawn := Nat.lt_add_of_pos_right Nat.two_pos
  outDrawn := Nat.lt_succ_self _
  drawsDiffer := Nat.ne_of_lt (Nat.lt_succ_self _)

/-- The invariant speaks neither of the inputs to come nor of the answers given (logs 5, 6). -/
theorem State.Inv.withHost {s : State} (h : s.Inv) (inputs : List Input) (responses : List BusResponse) :
    State.Inv { s with inputs := inputs, responses := responses } := { h with }

theorem State.Inv.applyReset {s : State} (h : s.Inv) : s.applyReset.Inv :=
  (State.Inv.resetWith h.cfgLegal s.draws).withHost s.inputs s.responses

/-- The completion step keeps the invariant, also for an illegal word (60_exceptions R353). -/
theorem State.Inv.completionStep {s t : State} (h : s.Inv) (ht : s.completionStep = .next t) : t.Inv := by
  unfold State.completionStep at ht
  split at ht
  case h_1 i _ => exact h.exec ht
  case h_2 r _ =>
    cases ht
    exact h.reportError ⟨.illegalCmd, 0⟩ (Nat.zero_le _)

theorem State.Inv.engineTurn {s t : State} (h : s.Inv) (ht : s.engineTurn = .next t) : t.Inv := by
  unfold State.engineTurn at ht
  split at ht
  case h_1 => exact h.completionStep ht
  case h_2 =>
    cases ht
    exact h

/-- Whatever the outside world does next, the invariant is kept (log 5). -/
theorem State.Inv.takeInput {s t : State} (h : s.Inv) (rest : List Input) {input : Input}
    (ht : s.takeInput rest input = .next t) : t.Inv := by
  have taken : State.Inv { s with inputs := rest } := h.withHost rest s.responses
  cases input with
  | read addr w => cases ht; exact taken.busRead addr w
  | write addr w v => cases ht; exact taken.busWrite addr w v
  | engine => exact taken.engineTurn ht
  | reset => cases ht; exact taken.applyReset
  | wait =>
    simp only [State.takeInput] at ht
    split at ht
    case h_1 => exact h.completionStep ht
    case h_2 => cases ht; exact taken.busRead statusAddr .w32

theorem State.Inv.step {s t : State} (h : s.Inv) (ht : Machine.step s = .next t) : t.Inv := by
  unfold Machine.step State.advance at ht
  split at ht
  case h_1 => exact h.engineTurn ht
  case h_2 input rest _ => exact h.takeInput rest ht

/-- Settles O8: each thing a step can do keeps the invariant (`State.Inv.step`). -/
theorem stepKeepsInvariant : Obligations.StepKeepsInvariant := by
  unfold Obligations.StepKeepsInvariant
  intro s t h ht
  exact h.step ht

end Sys2Proof.Machine

/-! ## O25: no command touches its operands

Each shared operation of `Machine/Ops.lean` keeps the operands; every command's end (`CommandResult`) is a
chain of such operations. -/

namespace Sys2Proof.Machine

namespace OperandsKept

theorem refl (s : State) : OperandsKept s s := ⟨rfl, rfl, rfl, rfl, rfl, rfl, fun _ => rfl, rfl, rfl⟩

section
variable {s t : State} (h : OperandsKept s t)
include h

theorem complete (p : Bool) : OperandsKept s (t.complete p) := { h with }
theorem reportError (e : CodecError) : OperandsKept s (t.reportError e) := { h with }
theorem scrambleOut : OperandsKept s t.scrambleOut := { h with }
theorem writeOut (bytes : List Byte) : OperandsKept s (t.writeOut bytes) := { h with }
theorem writeFreq : OperandsKept s t.writeFreq := { h with }
theorem writeTable : OperandsKept s t.writeTable := { h with }
theorem clearTables : OperandsKept s t.clearTables := { h with }

/-- The result registers are none of the operands (10_state R42–R44, R47). -/
theorem results (outLen bitLen symCount runs : Word) :
    OperandsKept s { t with outLen := outLen, bitLen := bitLen, symCount := symCount, runs := runs } :=
  { h with }

theorem writePacked (b : Bits) : OperandsKept s (t.writePacked b) :=
  (h.writeOut (packBits b)).results _ _ _ _

theorem writeDecoded (out : List Byte) (pos : Nat) : OperandsKept s (t.writeDecoded out pos) :=
  (h.writeOut out).results _ _ _ _

theorem failPack (e : CodecError) : OperandsKept s (t.failPack e) :=
  (h.results 0 0 0 t.runs).scrambleOut.reportError e

theorem failDecode (e : CodecError) : OperandsKept s (t.failDecode e) :=
  (h.results 0 0 t.symCount t.runs).scrambleOut.reportError e

theorem failRle (e : CodecError) : OperandsKept s (t.failRle e) :=
  (h.results 0 t.bitLen t.symCount 0).scrambleOut.reportError e

end

/-- However a command ends, its operands are kept. -/
theorem of_commandResult {i : Instr} {s t : State} (h : CommandResult s i t) : OperandsKept s t := by
  have kept := refl s
  cases h with
  | startError e => exact kept.reportError e
  | nop => exact kept.complete _
  | clearTables => exact kept.clearTables.complete _
  | freq => exact kept.writeFreq.complete _
  | build => exact kept.writeTable.complete _
  | pack => exact (kept.writePacked _).complete _
  | packError e => exact kept.failPack e
  | encodeEmpty => exact (kept.clearTables.results 0 0 0 _).complete _
  | encode => exact (kept.writeFreq.writeTable.writePacked _).complete _
  | encodeError e => exact kept.writeFreq.writeTable.failPack e
  | decode out pos tail => exact (kept.writeDecoded out pos).complete tail
  | decodeError e => exact kept.failDecode e
  | rleEncode pairs => exact ((kept.writeOut (pairBytes pairs)).results _ _ _ _).complete _
  | rleDecode out => exact ((kept.writeOut out).results _ _ _ _).complete _
  | rleError e => exact kept.failRle e

end OperandsKept

/-- Settles O25: each way a command can end keeps the operands. -/
theorem noCommandTouchesItsOperands : Obligations.NoCommandTouchesItsOperands := by
  unfold Obligations.NoCommandTouchesItsOperands
  intro i s t h
  exact .of_commandResult (exec_cases h)

end Sys2Proof.Machine

/-! ## O27: a successful command keeps OUT at OUT_LEN and above

A command that produces bytes ends in success only by storing, from index 0 of OUT, bytes that fit. -/

namespace Sys2Proof.Machine

/-- `t` is `s` with bytes that fit held in OUT (10_state R53). -/
def OutHoldsFitting (s t : State) : Prop :=
  ∃ bytes : List Byte, bytes.length ≤ s.cfg.maxOut ∧ OutHolds s t bytes

theorem OutHoldsFitting.outLen_le {s t : State} (h : OutHoldsFitting s t) :
    t.outLen.toNat ≤ s.cfg.maxOut := by
  obtain ⟨bytes, room, holds⟩ := h
  rw [holds.outLen]
  exact room

theorem OutHoldsFitting.outByte_above {s t : State} (h : OutHoldsFitting s t) {j : Nat}
    (hj : t.outLen.toNat ≤ j) : t.outByte j = s.outByte j := by
  obtain ⟨bytes, -, holds⟩ := h
  rw [holds.outLen] at hj
  exact holds.above j hj

/-- A store at index 0 of OUT that fits under a legal configuration, with OUT_LEN its length: OUT_LEN
does not wrap. -/
theorem OutHoldsFitting.of_store {s t : State} (hc : s.cfg.wf = true) (bytes : List Byte)
    (room : bytes.length ≤ s.cfg.maxOut) (hm : t.outMem = s.outMem.store 0 bytes)
    (hd : t.outDraw = s.outDraw) (hl : t.outLen = BitVec.ofNat 32 bytes.length) : OutHoldsFitting s t := by
  have bounds := Config.bounds hc
  exact ⟨bytes, room, outHolds_of_store hm hd (by rw [hl, toNat_word (by omega)])⟩

theorem packBits_length_le {b : Bits} {n : Nat} (h : b.length ≤ 8 * n) : (packBits b).length ≤ n := by
  rw [length_packBits]
  omega

/-- A command that produces bytes and ends without an error holds them in OUT, and they fit. -/
theorem CommandResult.outHoldsFitting {i : Instr} {s t : State} (h : CommandResult s i t)
    (hc : s.cfg.wf = true) (success : t.errCode = 0)
    (produces : i ∈ ([.hufPack, .hufEnc, .hufDec, .hufDecB, .rleEnc, .rleDec, .rleEncPar,
      .rleDecPar] : List Instr)) :
    OutHoldsFitting s t := by
  cases h with
  | startError e => exact absurd success e.kind.code_ne_zero
  | packError e => exact absurd success e.kind.code_ne_zero
  | encodeError e => exact absurd success e.kind.code_ne_zero
  | decodeError e => exact absurd success e.kind.code_ne_zero
  | rleError e => exact absurd success e.kind.code_ne_zero
  | nop which => exact absurd (which ▸ produces) (by decide)
  | clearTables which => exact absurd (which ▸ produces) (by decide)
  | freq which => exact absurd (which ▸ produces) (by decide)
  | build which => exact absurd (which ▸ produces) (by decide)
  | pack _ _ _ room => exact .of_store hc _ (packBits_length_le room) rfl rfl rfl
  | encodeEmpty =>
    exact .of_store hc [] (Nat.zero_le _) (Memory.store_zero_nil s.outMem).symm rfl rfl
  | encode _ _ _ room => exact .of_store hc _ (packBits_length_le room) rfl rfl rfl
  | decode out _ _ _ _ room => exact .of_store hc out room rfl rfl rfl
  | rleEncode pairs _ _ room =>
    exact .of_store hc (pairBytes pairs) (by rw [pairBytes_length]; exact room) rfl rfl rfl
  | rleDecode out _ _ room => exact .of_store hc out room rfl rfl rfl

/-- Settles O27: the bytes that a successful command leaves in OUT fit, and everything above them is
kept. -/
theorem successKeepsOutAboveOutLen : Obligations.SuccessKeepsOutAboveOutLen := by
  unfold Obligations.SuccessKeepsOutAboveOutLen
  intro i s t hc h success produces
  have fitting := (exec_cases h).outHoldsFitting hc success produces
  exact ⟨fitting.outLen_le, fun j hj => fitting.outByte_above hj⟩

end Sys2Proof.Machine

/-! ## O24: what the host writes before completion passes through a command

`State.mapHostFlags` changes the two flags that the host can change while a command runs. No command
reads them, so every command passes them through: a start check answers the same, and the body commutes
with the change. -/

namespace Sys2Proof.Machine

/-- `s` with IE and OVERRUN changed: what a CTRL write, a STATUS write and a dropped write can change
while BUSY (43_control R325, 20_memory R110). -/
def State.mapHostFlags (ie overrun : Bool → Bool) (s : State) : State :=
  { s with ie := ie s.ie, status := { s.status with overrun := overrun s.status.overrun } }

section
variable (ie overrun : Bool → Bool)

section
variable (s : State)

@[simp] theorem State.mapHostFlags_cfg : (s.mapHostFlags ie overrun).cfg = s.cfg := rfl
@[simp] theorem State.mapHostFlags_inLen : (s.mapHostFlags ie overrun).inLen = s.inLen := rfl
@[simp] theorem State.mapHostFlags_symCount : (s.mapHostFlags ie overrun).symCount = s.symCount := rfl
@[simp] theorem State.mapHostFlags_ct : (s.mapHostFlags ie overrun).ct = s.ct := rfl
@[simp] theorem State.mapHostFlags_inData : (s.mapHostFlags ie overrun).inData = s.inData := rfl

/-! ### The bodies commute with the change of the flags -/

theorem State.packBody_mapHostFlags :
    (s.mapHostFlags ie overrun).packBody = s.packBody.mapHostFlags ie overrun := by
  simp only [State.packBody, mapHostFlags_cfg, mapHostFlags_ct, mapHostFlags_inData]
  cases packFrom s.ct s.cfg.maxOut 0 0 s.inData <;> rfl

theorem State.countedBody_mapHostFlags (root : DecodeNode) :
    (s.mapHostFlags ie overrun).countedBody root = (s.countedBody root).mapHostFlags ie overrun := by
  simp only [State.countedBody, mapHostFlags_cfg, mapHostFlags_symCount, mapHostFlags_inData]
  cases walkCounted root s.cfg.maxOut s.symCount.toNat 0 0 (unpackBits s.inData) <;> rfl

theorem State.baselineBody_mapHostFlags (root : DecodeNode) :
    (s.mapHostFlags ie overrun).baselineBody root = (s.baselineBody root).mapHostFlags ie overrun := by
  simp only [State.baselineBody, mapHostFlags_cfg, mapHostFlags_inData]
  cases walkBaseline root s.cfg.maxOut root false 0 0 (unpackBits s.inData) <;> rfl

theorem State.decodeWith_mapHostFlags (needed : Bool) {body : State → DecodeNode → State}
    (hb : ∀ root, body (s.mapHostFlags ie overrun) root = (body s root).mapHostFlags ie overrun) :
    (s.mapHostFlags ie overrun).decodeWith needed body =
      (s.decodeWith needed body).mapHostFlags ie overrun := by
  unfold State.decodeWith
  by_cases h0 : validEntries s.ct = 0
  · rw [if_pos h0, if_pos (mapHostFlags_ct ie overrun s ▸ h0)]
    cases needed <;> rfl
  · rw [if_neg h0, if_neg (mapHostFlags_ct ie overrun s ▸ h0), mapHostFlags_ct]
    cases rebuild s.ct with
    | ok root => exact hb root
    | error e => rfl

theorem State.encodePairs_mapHostFlags (pairs : List RlePair) :
    (s.mapHostFlags ie overrun).encodePairs pairs = (s.encodePairs pairs).mapHostFlags ie overrun := by
  simp only [State.encodePairs, mapHostFlags_cfg]
  cases emitPairs s.cfg.maxOut 0 pairs <;> rfl

theorem State.decodePairs_mapHostFlags :
    (s.mapHostFlags ie overrun).decodePairs = s.decodePairs.mapHostFlags ie overrun := by
  simp only [State.decodePairs, mapHostFlags_cfg, mapHostFlags_inData, mapHostFlags_inLen]
  cases expandPairs s.cfg.maxOut 0 0 s.inData <;> rfl

end

/-! ### A command is start checks around a body -/

/-- The command passes the change of the flags through to the state in which it ends. -/
def PassesHostFlags (command : State → Host.Outcome State Fault Refusal) : Prop :=
  ∀ s t, command s = .next t → command (s.mapHostFlags ie overrun) = .next (t.mapHostFlags ie overrun)

section
variable {ie overrun : Bool → Bool}

theorem PassesHostFlags.next {body : State → State}
    (h : ∀ s, body (s.mapHostFlags ie overrun) = (body s).mapHostFlags ie overrun) :
    PassesHostFlags ie overrun fun s => .next (body s) := by
  rintro s t ⟨⟩
  exact congrArg _ (h s)

/-- A check that does not read the flags answers the same after the change. -/
theorem PassesHostFlags.check {check : State → Prop} [DecidablePred check]
    {whenTrue whenFalse : State → Host.Outcome State Fault Refusal}
    (same : ∀ s, check (s.mapHostFlags ie overrun) ↔ check s)
    (onTrue : PassesHostFlags ie overrun whenTrue) (onFalse : PassesHostFlags ie overrun whenFalse) :
    PassesHostFlags ie overrun fun s => if check s then whenTrue s else whenFalse s := by
  intro s t h
  by_cases hs : check s
  · simp only [if_pos hs, if_pos ((same s).mpr hs)] at h ⊢
    exact onTrue s t h
  · simp only [if_neg hs, if_neg (mt (same s).mp hs)] at h ⊢
    exact onFalse s t h

/-- A start check: its error reports without reading the flags, and its condition does not read them. -/
theorem PassesHostFlags.startCheck {check : State → Prop} [DecidablePred check] {kind : ErrKind}
    {pos : State → Nat} {rest : State → Host.Outcome State Fault Refusal}
    (same : ∀ s, check (s.mapHostFlags ie overrun) ↔ check s)
    (samePos : ∀ s, pos (s.mapHostFlags ie overrun) = pos s) (hrest : PassesHostFlags ie overrun rest) :
    PassesHostFlags ie overrun fun s => if check s then .next (s.failStart kind (pos s)) else rest s :=
  .check same (.next fun s => by rw [samePos]; rfl) hrest

/-- The start check of IN_LEN, which every command but NOP, HUF_BUILD and CLEAR_TABLES begins with. -/
theorem PassesHostFlags.lengthCheck {rest : State → Host.Outcome State Fault Refusal}
    (hrest : PassesHostFlags ie overrun rest) : PassesHostFlags ie overrun fun s =>
      if s.inTooLong then .next (s.failStart .inLenTooLarge 0) else rest s :=
  .startCheck (fun _ => .rfl) (fun _ => rfl) hrest

end

/-- No command reads IE or OVERRUN, and each passes them through. -/
theorem exec_passesHostFlags (i : Instr) : PassesHostFlags ie overrun (exec i) := by
  cases i with
  | nop => exact .next fun _ => rfl
  | clearTables => exact .next fun _ => rfl
  | hufFreq => exact .lengthCheck (.next fun _ => rfl)
  | hufBuild => exact .startCheck (fun _ => .rfl) (fun _ => rfl) (.next fun _ => rfl)
  | hufPack => exact .lengthCheck (.next (State.packBody_mapHostFlags ie overrun))
  | hufEnc =>
    exact .lengthCheck (.check (fun _ => .rfl) (.next fun _ => rfl)
      (.next fun s => s.writeFreq.writeTable.packBody_mapHostFlags ie overrun))
  | hufDec =>
    exact .lengthCheck (.next fun s => s.decodeWith_mapHostFlags ie overrun _
      (s.countedBody_mapHostFlags ie overrun))
  | hufDecB =>
    exact .lengthCheck (.next fun s => s.decodeWith_mapHostFlags ie overrun _
      (s.baselineBody_mapHostFlags ie overrun))
  | rleEnc => exact .lengthCheck (.next fun s => s.encodePairs_mapHostFlags ie overrun _)
  | rleDec =>
    exact .lengthCheck (.startCheck (fun _ => .rfl) (fun _ => rfl)
      (.next (State.decodePairs_mapHostFlags ie overrun)))
  | rleEncPar =>
    exact .lengthCheck (.startCheck (fun _ => .rfl) (fun _ => rfl)
      (.next fun s => s.encodePairs_mapHostFlags ie overrun _))
  | rleDecPar =>
    refine .lengthCheck (.startCheck (fun _ => .rfl) (fun _ => rfl)
      (.startCheck (fun _ => .rfl) (fun _ => rfl) (.next fun s => ?_)))
    rw [State.decodeRegions_eq, State.decodeRegions_eq]
    exact s.decodePairs_mapHostFlags ie overrun

end

/-- Settles O24: OVERRUN and IE are each a change of the host's flags, and every command passes it
through. -/
theorem hostWritesDoNotDisturbCommand : Obligations.HostWritesDoNotDisturbCommand := by
  unfold Obligations.HostWritesDoNotDisturbCommand
  intro i s t b h
  exact ⟨exec_passesHostFlags id (fun _ => b) i s t h, exec_passesHostFlags (fun _ => b) id i s t h⟩

end Sys2Proof.Machine

/-! ## O11, O12: the address map

What `locate` answers, said once in each direction: an equation for each region (20_memory R90, R98, R99),
and the one list of what an access can reach (R91–R93). -/

namespace Sys2Proof.Machine

/-! ### Addresses as numbers -/

theorem Reg.offset_lt (r : Reg) : r.offset < 0x40 := by cases r <;> decide

theorem Reg.offset_aligned (r : Reg) : r.offset % 4 = 0 := by cases r <;> decide

theorem Reg.addr_toNat (r : Reg) : r.addr.toNat = r.offset := by
  have := r.offset_lt
  exact toNat_word (by omega)

theorem freqAddr_toNat (b : Byte) : (freqAddr b).toNat = 0x400 + 4 * b.toNat := by
  have := b.isLt
  exact toNat_word (by omega)

theorem ctMetaAddr_toNat (b : Byte) : (ctMetaAddr b).toNat = 0x1000 + 0x40 * b.toNat := by
  have := b.isLt
  exact toNat_word (by omega)

theorem ctCodeAddr_toNat (b : Byte) {k : Nat} (hk : k < 8) :
    (ctCodeAddr b k).toNat = 0x1000 + 0x40 * b.toNat + 0x20 + 4 * k := by
  have := b.isLt
  exact toNat_word (by omega)

theorem inAddr_toNat {i : Nat} (hi : i < 2 ^ 28) : (inAddr i).toNat = inBase + i :=
  toNat_word (by unfold inBase; omega)

theorem outAddr_toNat {i : Nat} (hi : i < 2 ^ 28) : (outAddr i).toNat = outBase + i :=
  toNat_word (by unfold outBase; omega)

/-! ### What is reached at an address -/

theorem Reg.atOffset_offset (r : Reg) : Reg.atOffset r.offset = some r := by cases r <;> rfl

theorem ctLocation_meta (b : Byte) : ctLocation (0x40 * b.toNat) = some (.ctMeta b) := by
  simp [ctLocation]

theorem ctLocation_code (b : Byte) {k : Nat} (hk : k < 8) :
    ctLocation (0x40 * b.toNat + 0x20 + 4 * k) = some (.ctCode b k) := by
  have sym : (0x40 * b.toNat + 0x20 + 4 * k) / 0x40 = b.toNat := by omega
  have rest : (0x40 * b.toNat + 0x20 + 4 * k) % 0x40 = 0x20 + 4 * k := by omega
  unfold ctLocation
  simp [sym, rest]

/-- The converse of the two: the aligned words of the CT region, the holes left out (20_memory R99). -/
theorem ctLocation_cases {off : Nat} {loc : Location} (inside : off < 0x4000) (aligned : off % 4 = 0)
    (h : ctLocation off = some loc) :
    (∃ b, loc = .ctMeta b ∧ off = 0x40 * b.toNat) ∨
    (∃ b k, loc = .ctCode b k ∧ k < 8 ∧ off = 0x40 * b.toNat + 0x20 + 4 * k) := by
  have sym : (BitVec.ofNat 8 (off / 0x40)).toNat = off / 0x40 := by
    rw [BitVec.toNat_ofNat, Nat.mod_eq_of_lt (by omega)]
  unfold ctLocation at h
  simp only at h
  split at h
  · cases h
    exact .inl ⟨_, rfl, by omega⟩
  · split at h
    · cases h
      exact .inr ⟨_, _, rfl, by omega, by omega⟩
    · cases h

section
variable (cfg : Config)

theorem locate_reg (r : Reg) : locate cfg r.addr .w32 = some (.reg r) := by
  have lt := r.offset_lt
  have aligned := r.offset_aligned
  simp only [locate, r.addr_toNat]
  rw [if_neg (by omega), if_pos lt, Reg.atOffset_offset, Option.map_some]

theorem locate_freq (b : Byte) : locate cfg (freqAddr b) .w32 = some (.freq b) := by
  have lt := b.isLt
  simp only [locate, freqAddr_toNat]
  rw [if_neg (by omega), if_neg (by omega), if_pos (by omega)]
  simp

/-- A word of the CT region is what `ctLocation` says of its offset. -/
theorem locate_ct {a : Word} {off : Nat} (ha : a.toNat = 0x1000 + off) (inside : off < 0x4000)
    (aligned : off % 4 = 0) : locate cfg a .w32 = ctLocation off := by
  simp only [locate, ha]
  rw [if_neg (by omega), if_neg (by omega), if_neg (by omega), if_pos (by omega), Nat.add_sub_cancel_left]

theorem locate_ctMeta (b : Byte) : locate cfg (ctMetaAddr b) .w32 = some (.ctMeta b) := by
  have lt := b.isLt
  rw [locate_ct cfg (ctMetaAddr_toNat b) (by omega) (by omega), ctLocation_meta]

theorem locate_ctCode (b : Byte) {k : Nat} (hk : k < 8) :
    locate cfg (ctCodeAddr b k) .w32 = some (.ctCode b k) := by
  have lt := b.isLt
  have addr := ctCodeAddr_toNat b hk
  simp only [Nat.add_assoc] at addr
  rw [locate_ct cfg addr (by omega) (by omega), ← Nat.add_assoc, ctLocation_code b hk]

end

/-- The legal accesses of IN and OUT at index `i`, with their number `n` of bytes (20_memory R92). -/
def DataAccess (w : Width) (i n : Nat) : Prop := (w = .w8 ∧ n = 1) ∨ (w = .w32 ∧ n = 4 ∧ i % 4 = 0)

section
variable {cfg : Config} {w : Width} {i n : Nat}

theorem DataAccess.byte : DataAccess .w8 i 1 := .inl ⟨rfl, rfl⟩

theorem DataAccess.word (aligned : i % 4 = 0) : DataAccess .w32 i 4 := .inr ⟨rfl, rfl, aligned⟩

theorem DataAccess.pos (access : DataAccess w i n) : 1 ≤ n := by
  rcases access with ⟨-, rfl⟩ | ⟨-, rfl, -⟩ <;> decide

/-- Beyond the tables, a legal data access reaches what `dataLocation` says. -/
theorem DataAccess.locate_eq {a : Word} (access : DataAccess w i n) {base : Nat} (ha : a.toNat = base + i)
    (above : 0x5000 ≤ base) (aligned : base % 4 = 0) : locate cfg a w = dataLocation cfg (base + i) n := by
  rcases access with ⟨rfl, rfl⟩ | ⟨rfl, rfl, hi⟩
  · simp only [locate, ha]
  · simp only [locate, ha]
    rw [if_neg (by omega), if_neg (by omega), if_neg (by omega), if_neg (by omega)]

theorem DataAccess.locate_input (access : DataAccess w i n) (hc : cfg.wf = true) (room : i + n ≤ cfg.maxIn) :
    locate cfg (inAddr i) w = some (.input i) := by
  have bounds := Config.bounds hc
  have pos := access.pos
  rw [access.locate_eq (inAddr_toNat (by omega)) (by decide) (by decide), dataLocation_input room]

theorem DataAccess.locate_output (access : DataAccess w i n) (hc : cfg.wf = true)
    (room : i + n ≤ cfg.maxOut) : locate cfg (outAddr i) w = some (.output i) := by
  have bounds := Config.bounds hc
  have pos := access.pos
  rw [access.locate_eq (outAddr_toNat (by omega)) (by decide) (by decide), dataLocation_output hc room pos]

end

/-- Settles O11: an equation of `locate` for each kind of location. -/
theorem legalAccessesReachTheirLocation : Obligations.LegalAccessesReachTheirLocation := by
  unfold Obligations.LegalAccessesReachTheirLocation
  intro cfg hc
  exact ⟨locate_reg cfg, locate_freq cfg, locate_ctMeta cfg, fun b _ hk => locate_ctCode cfg b hk,
    fun _ room => DataAccess.byte.locate_input hc room,
    fun _ aligned room => (DataAccess.word aligned).locate_input hc room,
    fun _ room => DataAccess.byte.locate_output hc room,
    fun _ aligned room => (DataAccess.word aligned).locate_output hc room⟩

/-! ### Nothing else is reached -/

/-- What a 32-bit access can reach, said once. -/
theorem locate_w32_cases {cfg : Config} {a : Word} {loc : Location} (h : locate cfg a .w32 = some loc) :
    (∃ r, loc = .reg r ∧ a.toNat = r.offset) ∨
    (∃ b, loc = .freq b ∧ a.toNat = 0x400 + 4 * b.toNat) ∨
    (∃ b, loc = .ctMeta b ∧ a.toNat = 0x1000 + 0x40 * b.toNat) ∨
    (∃ b k, loc = .ctCode b k ∧ k < 8 ∧ a.toNat = 0x1000 + 0x40 * b.toNat + 0x20 + 4 * k) ∨
    (∃ i, loc = .input i ∧ i % 4 = 0 ∧ i + 4 ≤ cfg.maxIn ∧ a.toNat = inBase + i) ∨
    (∃ i, loc = .output i ∧ i % 4 = 0 ∧ i + 4 ≤ cfg.maxOut ∧ a.toNat = outBase + i) := by
  simp only [locate] at h
  split at h
  · cases h
  · split at h
    · obtain ⟨r, hr, rfl⟩ := Option.map_eq_some_iff.mp h
      exact .inl ⟨r, rfl, Reg.offset_of_atOffset hr⟩
    · split at h
      · cases h
        have sym : (BitVec.ofNat 8 ((a.toNat - 0x400) / 4)).toNat = (a.toNat - 0x400) / 4 := by
          rw [BitVec.toNat_ofNat, Nat.mod_eq_of_lt (by omega)]
        exact .inr (.inl ⟨_, rfl, by omega⟩)
      · split at h
        · rcases ctLocation_cases (by omega) (by omega) h with ⟨b, rfl, hb⟩ | ⟨b, k, rfl, hk, hb⟩
          · exact .inr (.inr (.inl ⟨b, rfl, by omega⟩))
          · exact .inr (.inr (.inr (.inl ⟨b, k, rfl, hk, by omega⟩)))
        · rcases dataLocation_cases h with ⟨i, rfl, hi, room⟩ | ⟨i, rfl, hi, room⟩
          · exact .inr (.inr (.inr (.inr (.inl ⟨i, rfl, by unfold inBase at hi; omega, room, hi⟩))))
          · exact .inr (.inr (.inr (.inr (.inr ⟨i, rfl, by unfold outBase at hi; omega, room, hi⟩))))

/-- An address is known by its number. -/
theorem eq_ofNat_of_toNat {a : Word} {n : Nat} (h : a.toNat = n) : a = BitVec.ofNat 32 n :=
  (BitVec.toNat_eq_nat.mp h).2

/-- Settles O12: a byte access reaches a byte of IN or OUT, a 16-bit access nothing, and a 32-bit access
what `locate_w32_cases` lists. -/
theorem otherAccessesAreBusErrors : Obligations.OtherAccessesAreBusErrors := by
  unfold Obligations.OtherAccessesAreBusErrors
  intro cfg a w loc _ h
  cases w with
  | w8 =>
    rcases dataLocation_cases h with ⟨i, rfl, hi, room⟩ | ⟨i, rfl, hi, room⟩
    · exact ⟨room, eq_ofNat_of_toNat hi⟩
    · exact ⟨room, eq_ofNat_of_toNat hi⟩
  | w16 => cases h
  | w32 =>
    rcases locate_w32_cases h with ⟨r, rfl, ha⟩ | ⟨b, rfl, ha⟩ | ⟨b, rfl, ha⟩ | ⟨b, k, rfl, hk, ha⟩ |
      ⟨i, rfl, aligned, room, ha⟩ | ⟨i, rfl, aligned, room, ha⟩
    · exact eq_ofNat_of_toNat ha
    · exact eq_ofNat_of_toNat ha
    · exact eq_ofNat_of_toNat ha
    · exact ⟨hk, eq_ofNat_of_toNat ha⟩
    · exact ⟨aligned, room, eq_ofNat_of_toNat ha⟩
    · exact ⟨aligned, room, eq_ofNat_of_toNat ha⟩

end Sys2Proof.Machine

/-! ## O13, O14: the bus error and the write dropped while BUSY

The next state for each way in which a step can take a read or a write (43_control R322, R323): no
location, an answer held or free, a write dropped or done. -/

namespace Sys2Proof.Machine

section
variable {s : State} {a : Word} {w : Width} {v : Word} {loc : Location} {rest : List Input}

theorem step_read (hin : s.inputs = .read a w :: rest) :
    step s = .next ({ s with inputs := rest }.busRead a w) := by
  unfold step State.advance
  rw [hin]
  rfl

theorem step_write (hin : s.inputs = .write a w v :: rest) :
    step s = .next ({ s with inputs := rest }.busWrite a w v) := by
  unfold step State.advance
  rw [hin]
  rfl

theorem step_read_unmapped (hin : s.inputs = .read a w :: rest) (hl : locate s.cfg a w = none) :
    step s = .next { s with inputs := rest, responses := .busError :: s.responses } := by
  rw [step_read hin]
  simp only [State.busRead, hl, State.respond]

theorem step_write_unmapped (hin : s.inputs = .write a w v :: rest) (hl : locate s.cfg a w = none) :
    step s = .next { s with inputs := rest, responses := .busError :: s.responses } := by
  rw [step_write hin]
  simp only [State.busWrite, hl, State.respond]

theorem step_read_held (hin : s.inputs = .read a w :: rest) (hl : locate s.cfg a w = some loc)
    (held : s.status.busy = false ∨ loc.heldWhileBusy = true) : step s = .next { s with
      inputs := rest, responses := .data (s.heldWord loc w) :: s.responses } := by
  have answer : (s.status.busy && !loc.heldWhileBusy) = false := by
    rcases held with h | h <;> simp [h]
  rw [step_read hin]
  simp only [State.busRead, hl, answer]
  rfl

theorem step_read_free (hin : s.inputs = .read a w :: rest) (hl : locate s.cfg a w = some loc)
    (busy : s.status.busy = true) (free : loc.heldWhileBusy = false) : step s = .next { s with
      inputs := rest
      responses := .data (narrowTo w (Config.freeWord s.draws)) :: s.responses
      draws := s.draws + 1 } := by
  rw [step_read hin]
  simp only [State.busRead, hl, busy, free]
  rfl

theorem step_write_mapped (hin : s.inputs = .write a w v :: rest) (hl : locate s.cfg a w = some loc) :
    step s = .next (({ s with inputs := rest }.writeLocation loc w v).respond .written) := by
  rw [step_write hin]
  simp only [State.busWrite, hl]

theorem step_write_dropped (hin : s.inputs = .write a w v :: rest) (hl : locate s.cfg a w = some loc)
    (notCtrl : loc ≠ .reg .ctrl) (notStatus : loc ≠ .reg .status) (busy : s.status.busy = true) :
    step s = .next { s with
      status := { s.status with overrun := true }
      inputs := rest
      responses := .written :: s.responses } := by
  rw [step_write_mapped hin hl, State.writeLocation, if_neg notCtrl, if_neg notStatus, if_pos busy]
  rfl

theorem step_write_idle (hin : s.inputs = .write a w v :: rest) (hl : locate s.cfg a w = some loc)
    (notCtrl : loc ≠ .reg .ctrl) (notStatus : loc ≠ .reg .status) (idle : s.status.busy = false) :
    step s = .next (({ s with inputs := rest }.writeIdle loc w v).respond .written) := by
  rw [step_write_mapped hin hl, State.writeLocation, if_neg notCtrl, if_neg notStatus,
    if_neg (ne_true_of_eq_false idle)]

end

/-- Settles O13: a read and a write that locate nothing. -/
theorem busErrorChangesNothing : Obligations.BusErrorChangesNothing := by
  unfold Obligations.BusErrorChangesNothing
  intro s a w v rest unmapped input
  rcases input with read | write
  · exact step_read_unmapped read unmapped
  · exact step_write_unmapped write unmapped

/-- Settles O14: the write is neither to CTRL nor to STATUS, and HRC is BUSY. -/
theorem writeWhileBusyIsDropped : Obligations.WriteWhileBusyIsDropped := by
  unfold Obligations.WriteWhileBusyIsDropped
  intro s a w v loc rest busy mapped notCtrl notStatus input
  exact step_write_dropped input mapped notCtrl notStatus busy

end Sys2Proof.Machine

/-! ## O15, O16: what a read answers

A read answers the held value or a free one; which of the two is a matter of the location alone while
BUSY (20_memory R111). -/

namespace Sys2Proof.Machine

/-- Settles O15: the answer is held or free, and held while idle. -/
theorem readsHaveNoSideEffect : Obligations.ReadsHaveNoSideEffect := by
  unfold Obligations.ReadsHaveNoSideEffect
  intro s a w loc rest mapped input
  refine ⟨?_, fun idle => step_read_held input mapped (.inl idle)⟩
  cases busy : s.status.busy with
  | false => exact ⟨_, s.draws, step_read_held input mapped (.inl busy)⟩
  | true =>
    cases held : loc.heldWhileBusy with
    | true => exact ⟨_, s.draws, step_read_held input mapped (.inr held)⟩
    | false => exact ⟨_, s.draws + 1, step_read_free input mapped busy held⟩

/-- The locations that hold their value while BUSY are registers, and exactly those of 20_memory R111. -/
theorem Location.heldWhileBusy_iff (loc : Location) : loc.heldWhileBusy = true ↔
    loc ∈ ([.id, .capIn, .capOut, .capWorkers, .ctrl, .cmd, .status, .inLen, .workers] :
      List Reg).map Location.reg := by
  cases loc with
  | reg r => cases r <;> decide
  | freq b => simp [Location.heldWhileBusy]
  | ctMeta b => simp [Location.heldWhileBusy]
  | ctCode b k => simp [Location.heldWhileBusy]
  | input i => simp [Location.heldWhileBusy]
  | output i => simp [Location.heldWhileBusy]

/-- A byte access reaches IN or OUT only, which no read while BUSY shows. -/
theorem not_heldWhileBusy_of_locate_w8 {cfg : Config} {a : Word} {loc : Location}
    (h : locate cfg a .w8 = some loc) : loc.heldWhileBusy = false := by
  rcases dataLocation_cases h with ⟨i, rfl, -, -⟩ | ⟨i, rfl, -, -⟩ <;> rfl

/-- Settles O16: a 32-bit read of a location in the list is held, and any other read is free. -/
theorem readsWhileBusy : Obligations.ReadsWhileBusy := by
  unfold Obligations.ReadsWhileBusy
  intro s a loc rest busy
  refine ⟨fun mapped input => ?_, fun mapped input =>
    step_read_free input mapped busy (not_heldWhileBusy_of_locate_w8 mapped)⟩
  split
  case isTrue listed => exact step_read_held input mapped (.inr (loc.heldWhileBusy_iff.mpr listed))
  case isFalse unlisted =>
    have free := Bool.eq_false_iff.mpr (mt loc.heldWhileBusy_iff.mp unlisted)
    exact step_read_free input mapped busy free

end Sys2Proof.Machine

/-! ## O17: the held words, field by field

A register of fewer than 32 bits is its field with zeros above; STATUS and CT_META are several fields side
by side. -/

namespace Sys2Proof.Machine

theorem State.ctrlWord_toNat (s : State) : s.ctrlWord.toNat = s.ie.toNat := by
  cases h : s.ie <;> simp [State.ctrlWord, h]

theorem Status.word_toNat (st : Status) : st.word.toNat = st.busy.toNat + 2 * st.done.toNat +
    4 * st.err.toNat + 8 * st.overrun.toNat + 16 * st.partialTail.toNat := by
  obtain ⟨busy, done, err, overrun, partialTail⟩ := st
  revert busy done err overrun partialTail
  decide

theorem CtEntry.metaWord_toNat (e : CtEntry) :
    e.metaWord.toNat = 2 ^ 31 * e.valid.toNat + e.len.toNat := by
  have len := e.len.isLt
  simp only [CtEntry.metaWord, BitVec.toNat_append, BitVec.toNat_ofBool]
  rw [← Nat.shiftLeft_add_eq_or_of_lt (by omega)]
  cases e.valid <;> simp [Nat.shiftLeft_eq]

theorem CtEntry.getLsbD_codeWord (e : CtEntry) (k : Nat) {j : Nat} (hj : j < 32) :
    (e.codeWord k).getLsbD j = e.v.getLsbD (32 * k + j) := by
  simp [CtEntry.codeWord, hj]

/-- Settles O17: a full register is itself, a shorter one keeps its number under zeros, and STATUS, CT and
the data words are read by the lemmas about their fields. -/
theorem heldWordsHoldTheirFields : Obligations.HeldWordsHoldTheirFields := by
  unfold Obligations.HeldWordsHoldTheirFields
  intro s b i hc
  have bounds := Config.bounds hc
  have capWorkers : (s.heldWord (.reg .capWorkers) .w32).toNat = s.cfg.maxWorkers := by
    refine (BitVec.toNat_setWidth_of_le (b := BitVec.ofNat 8 s.cfg.maxWorkers) (by decide)).trans ?_
    rw [BitVec.toNat_ofNat, Nat.mod_eq_of_lt (by omega)]
  have capIn : (s.heldWord (.reg .capIn) .w32).toNat = s.cfg.maxIn := toNat_word (by omega)
  have capOut : (s.heldWord (.reg .capOut) .w32).toNat = s.cfg.maxOut := toNat_word (by omega)
  exact ⟨rfl, capIn, capOut, capWorkers, s.ctrlWord_toNat, rfl, s.status.word_toNat,
    BitVec.toNat_setWidth_of_le (b := s.errCode) (by decide), rfl, rfl, rfl, rfl, rfl,
    BitVec.toNat_setWidth_of_le (b := s.workers) (by decide),
    BitVec.toNat_setWidth_of_le (b := s.tableEntries) (by decide), rfl, rfl,
    (s.ctOf b).metaWord_toNat, fun k _ _ hj => (s.ctOf b).getLsbD_codeWord k hj,
    BitVec.toNat_setWidth_of_le (b := s.inByte i) (by decide),
    BitVec.toNat_setWidth_of_le (b := s.outByte i) (by decide),
    wordOfBytes_toNat _ _ _ _, wordOfBytes_toNat _ _ _ _⟩

end Sys2Proof.Machine

/-! ## O22: what an idle write to IN or OUT stores -/

namespace Sys2Proof.Machine

section
variable {w : Width} {i n : Nat}

theorem DataAccess.length_storedBytes (access : DataAccess w i n) (v : Word) :
    (storedBytes w v).length = n := by
  rcases access with ⟨rfl, rfl⟩ | ⟨rfl, rfl, -⟩ <;> rfl

/-- Byte `k` of the stored bytes, little-endian (20_memory R95). -/
theorem DataAccess.storedBytes_getElem (access : DataAccess w i n) (v : Word) {k : Nat}
    (hk : k < (storedBytes w v).length) : (storedBytes w v)[k] = v.extractLsb' (8 * k) 8 := by
  rcases access with ⟨rfl, rfl⟩ | ⟨rfl, rfl, -⟩
  · obtain rfl : k = 0 := Nat.lt_one_iff.mp hk
    exact BitVec.setWidth_eq_extractLsb' (x := v) (w := 8) (by decide)
  · have bound : k < 4 := hk
    interval_cases k <;> rfl

/-- A memory after the store of a legal data access: its bytes at their indices, and no other byte
changed. -/
theorem DataAccess.read_store (access : DataAccess w i n) (m : Memory) (draw : Nat) (v : Word) :
    (∀ k, k < n → (m.store i (storedBytes w v)).read draw (i + k) = v.extractLsb' (8 * k) 8) ∧
    ∀ j, j < i ∨ i + n ≤ j → (m.store i (storedBytes w v)).read draw j = m.read draw j := by
  have length := access.length_storedBytes v
  refine ⟨fun k hk => ?_, fun j hj => ?_⟩
  · rw [Memory.read_store_inside m draw i _ k (by omega), access.storedBytes_getElem]
  · exact Memory.read_store_outside m draw i _ j (by omega)

end

/-- Settles O22: the write reaches its memory (`DataAccess.locate_input`, `DataAccess.locate_output`), and
`DataAccess.read_store` says what the store does there. -/
theorem dataWritesStoreTheirBytes : Obligations.DataWritesStoreTheirBytes := by
  unfold Obligations.DataWritesStoreTheirBytes
  intro s i n w v rest hc idle (access : DataAccess w i n)
  refine ⟨fun room input => ?_, fun room input => ?_⟩
  · exact ⟨_, step_write_idle input (access.locate_input hc room) nofun nofun idle, rfl,
      access.read_store s.inMem s.inDraw v⟩
  · exact ⟨_, step_write_idle input (access.locate_output hc room) nofun nofun idle, rfl,
      access.read_store s.outMem s.outDraw v⟩

end Sys2Proof.Machine

/-! ## O23: what an idle write to FREQ or CT leaves to be read -/

namespace Sys2Proof.Machine

@[simp] theorem CtEntry.setMeta_v (e : CtEntry) (v : Word) : (e.setMeta v).v = e.v := rfl

@[simp] theorem CtEntry.metaWord_setCodeWord (e : CtEntry) (k : Nat) (v : Word) :
    (e.setCodeWord k v).metaWord = e.metaWord := rfl

/-- The bits of CT_META that are not reserved (20_memory R99). -/
theorem getLsbD_metaMask : ∀ j < 32, (0x800000FF#32).getLsbD j = decide (j < 8 ∨ j = 31) := by decide

/-- CT_META reads back what was written, its reserved bits zero. -/
theorem CtEntry.metaWord_setMeta (e : CtEntry) (v : Word) :
    (e.setMeta v).metaWord = v &&& 0x800000FF#32 := by
  refine BitVec.eq_of_getLsbD_eq fun j hj => ?_
  rw [BitVec.getLsbD_and, getLsbD_metaMask j hj]
  simp only [CtEntry.metaWord, CtEntry.setMeta, BitVec.getLsbD_append, BitVec.getLsbD_ofBool]
  by_cases len : j < 8
  · simp [len]
  · by_cases valid : j = 31
    · subst valid
      simp
    · have reserved : j - 8 < 23 := by omega
      simp [len, valid, reserved]

section
variable {s : State} {b : Byte} {v : Word} {rest : List Input}

/-- An idle write to CT_META sets the entry of its symbol only. -/
theorem step_write_ctMeta (input : s.inputs = .write (ctMetaAddr b) .w32 v :: rest)
    (idle : s.status.busy = false) : ∃ t, step s = .next t ∧
      t = { s with ct := t.ct, inputs := rest, responses := .written :: s.responses } ∧
      t.ctOf b = (s.ctOf b).setMeta v ∧ ∀ c, c ≠ b → t.ctOf c = s.ctOf c :=
  ⟨_, step_write_idle input (locate_ctMeta s.cfg b) nofun nofun idle, rfl,
    Table.get_set_self s.ct b _, fun _ other => Table.get_set_ne s.ct _ other.symm⟩

/-- An idle write to CT_CODE(k) sets the entry of its symbol only. -/
theorem step_write_ctCode {k : Nat} (hk : k < 8) (input : s.inputs = .write (ctCodeAddr b k) .w32 v :: rest)
    (idle : s.status.busy = false) : ∃ t, step s = .next t ∧
      t = { s with ct := t.ct, inputs := rest, responses := .written :: s.responses } ∧
      t.ctOf b = (s.ctOf b).setCodeWord k v ∧ ∀ c, c ≠ b → t.ctOf c = s.ctOf c :=
  ⟨_, step_write_idle input (locate_ctCode s.cfg b hk) nofun nofun idle, rfl,
    Table.get_set_self s.ct b _, fun _ other => Table.get_set_ne s.ct _ other.symm⟩

end

/-- Settles O23: a table is read back at the written symbol and unchanged at the others, and the words of
the new CT entry are those of `setMeta` and `setCodeWord`. -/
theorem tableWritesReadBack : Obligations.TableWritesReadBack := by
  unfold Obligations.TableWritesReadBack
  intro s b v rest _ idle
  refine ⟨fun input => ?_, fun input => ?_, fun k hk input => ?_⟩
  · exact ⟨_, step_write_idle input (locate_freq s.cfg b) nofun nofun idle, rfl,
      Table.get_set_self s.freq b v, fun _ other => Table.get_set_ne s.freq v other.symm⟩
  · obtain ⟨t, stepped, frame, entry, others⟩ := step_write_ctMeta input idle
    refine ⟨t, stepped, frame, ?_, ?_, others⟩
    · rw [entry, CtEntry.metaWord_setMeta]
    · rw [entry, CtEntry.setMeta_v]
  · obtain ⟨t, stepped, frame, entry, others⟩ := step_write_ctCode hk input idle
    refine ⟨t, stepped, frame, ?_, fun j hj other => ?_, ?_, others⟩
    · rw [entry, CtEntry.codeWord_setCodeWord _ k k v hk hk, if_pos rfl]
    · rw [entry, CtEntry.codeWord_setCodeWord _ k j v hk hj, if_neg other]
    · rw [entry, CtEntry.metaWord_setCodeWord]

end Sys2Proof.Machine

/-! ## O1, O2, O3: the decoder and the encoder

A word is its three fields side by side (30_encoding R130), so a command is read from a word exactly when
the word's fields are the command's; and the legal words are exactly the words of the 12 commands. -/

namespace Sys2Proof

/-! ### The fields of a word -/

theorem word_eq_fields (v : Word) :
    v = reservedField v ++ BitVec.ofBool (modeField v) ++ opField v := by
  refine BitVec.eq_of_getLsbD_eq fun j hj => ?_
  simp only [reservedField, modeField, opField, BitVec.getLsbD_append, BitVec.getLsbD_ofBool,
    BitVec.getLsbD_extractLsb']
  by_cases op : j < 4
  · simp [op]
  · by_cases mode : j = 4
    · simp [mode]
    · have reserved : j - 4 - 1 < 27 := by omega
      have index : 5 + (j - 4 - 1) = j := by omega
      simp [op, reserved, index, show ¬ j - 4 < 1 by omega]

/-- The word of a command is the one with the command's fields. -/
theorem eq_encode_of_fields {v : Word} {i : Instr} (reserved : reservedField v = 0)
    (mode : modeField v = modeOf i) (op : opField v = opOf i) : v = encode i := by
  rw [word_eq_fields v, reserved, mode, op]
  rfl

/-- The opcode map gives only commands with M = 0, each from its own OP (30_encoding R131). -/
theorem commandOf_eq_some {op : BitVec 4} {i : Instr} (h : commandOf op = some i) :
    opOf i = op ∧ modeOf i = false := by
  have fields : ∀ op : BitVec 4, ∀ i ∈ commandOf op, opOf i = op ∧ modeOf i = false := by decide
  exact fields op i h

/-- OP 0x0 to 0xA are in the opcode map (30_encoding R131). -/
theorem commandOf_of_le {op : BitVec 4} (h : op.toNat ≤ 0xA) : ∃ i, commandOf op = some i := by
  have known : ∀ op : BitVec 4, op.toNat ≤ 0xA → (commandOf op).isSome := by decide
  exact Option.isSome_iff_exists.mp (known op h)

/-! ### The decoder -/

/-- A word is read as a command by the opcode map, or as HUF_DEC.B when M = 1 (30_encoding R132). -/
theorem decode_ok_cases {v : Word} {i : Instr} (h : decode v = .ok i) : reservedField v = 0 ∧
    (modeField v = false ∧ commandOf (opField v) = some i ∨
      modeField v = true ∧ opField v = 5 ∧ i = .hufDecB) := by
  unfold decode at h
  split at h
  case isTrue => cases h
  case isFalse reserved =>
    refine ⟨not_not.mp reserved, ?_⟩
    split at h
    case h_1 => cases h
    case h_2 j command =>
      split at h
      case isTrue mode =>
        split at h
        case isTrue op =>
          cases h
          exact .inr ⟨mode, op, rfl⟩
        case isFalse => cases h
      case isFalse mode =>
        cases h
        exact .inl ⟨Bool.eq_false_iff.mpr mode, command⟩

/-- Each command is read back from its word (30_encoding R134). -/
theorem encode_roundTrip (i : Instr) : Laws.RoundTrip.Statement i := by
  cases i with
  | nop => exact Laws.RoundTrip.nop
  | hufFreq => exact Laws.RoundTrip.hufFreq
  | hufBuild => exact Laws.RoundTrip.hufBuild
  | hufPack => exact Laws.RoundTrip.hufPack
  | hufEnc => exact Laws.RoundTrip.hufEnc
  | hufDec => exact Laws.RoundTrip.hufDec
  | hufDecB => exact Laws.RoundTrip.hufDecB
  | rleEnc => exact Laws.RoundTrip.rleEnc
  | rleDec => exact Laws.RoundTrip.rleDec
  | rleEncPar => exact Laws.RoundTrip.rleEncPar
  | rleDecPar => exact Laws.RoundTrip.rleDecPar
  | clearTables => exact Laws.RoundTrip.clearTables

@[simp] theorem decode_encode (i : Instr) : decode (encode i) = .ok i := by
  obtain ⟨-, -, read⟩ := encode_roundTrip i
  exact read

@[simp] theorem legalWord_encode (i : Instr) : legalWord (encode i) = true := by
  obtain ⟨-, legal, -⟩ := encode_roundTrip i
  exact legal

/-- A word with a command's fields is read as that command. -/
theorem decode_of_fields {v : Word} {i : Instr} (reserved : reservedField v = 0)
    (mode : modeField v = modeOf i) (op : opField v = opOf i) : decode v = .ok i := by
  rw [eq_encode_of_fields reserved mode op, decode_encode]

theorem decode_of_commandOf {v : Word} {i : Instr} (reserved : reservedField v = 0)
    (mode : modeField v = false) (command : commandOf (opField v) = some i) : decode v = .ok i := by
  obtain ⟨op, noMode⟩ := commandOf_eq_some command
  exact decode_of_fields reserved (mode.trans noMode.symm) op.symm

theorem decode_eq_ok_iff (v : Word) (i : Instr) : decode v = .ok i ↔ v = encode i := by
  refine ⟨fun h => ?_, fun h => h ▸ decode_encode i⟩
  obtain ⟨reserved, ⟨mode, command⟩ | ⟨mode, op, rfl⟩⟩ := decode_ok_cases h
  · obtain ⟨op, noMode⟩ := commandOf_eq_some command
    exact eq_encode_of_fields reserved (mode.trans noMode.symm) op.symm
  · exact eq_encode_of_fields reserved mode op

/-- Settles O1: the decoder inverts the encoder, and a word's fields give back the word. -/
theorem decodeReadsExactlyTheEncodings : Obligations.DecodeReadsExactlyTheEncodings := by
  unfold Obligations.DecodeReadsExactlyTheEncodings
  exact decode_eq_ok_iff

/-! ### The legal words -/

theorem legalWord_iff (v : Word) : legalWord v = true ↔
    reservedField v = 0 ∧ (opField v).toNat ≤ 0xA ∧ (modeField v = false ∨ opField v = 5) := by
  simp [legalWord, reservedField, opField, modeField, and_assoc]

/-- A word is read as a command exactly when it is legal. -/
theorem decode_ok_iff_legalWord (v : Word) : (∃ i, decode v = .ok i) ↔ legalWord v = true := by
  constructor
  · rintro ⟨i, h⟩
    rw [(decode_eq_ok_iff v i).mp h, legalWord_encode]
  · intro h
    obtain ⟨reserved, op, mode⟩ := (legalWord_iff v).mp h
    cases hasMode : modeField v with
    | false =>
      obtain ⟨i, command⟩ := commandOf_of_le op
      exact ⟨i, decode_of_commandOf reserved hasMode command⟩
    | true =>
      have five : opField v = 5 := mode.resolve_left (by simp [hasMode])
      exact ⟨.hufDecB, decode_of_fields reserved hasMode five⟩

theorem decode_error_iff (v : Word) : (∃ r, decode v = .error r) ↔ legalWord v = false := by
  rw [← Bool.not_eq_true, ← decode_ok_iff_legalWord]
  cases decode v <;> simp

/-- The commands in the order of 30_encoding R131. -/
def Instr.all : List Instr :=
  [.nop, .hufFreq, .hufBuild, .hufPack, .hufEnc, .hufDec, .hufDecB, .rleEnc, .rleDec, .rleEncPar,
    .rleDecPar, .clearTables]

theorem Instr.mem_all (i : Instr) : i ∈ Instr.all := by cases i <;> decide

theorem legalWord_iff_mem_encodings (v : Word) :
    legalWord v = true ↔ v ∈ Instr.all.map encode := by
  rw [← decode_ok_iff_legalWord, List.mem_map]
  exact exists_congr fun i => (decode_eq_ok_iff v i).trans
    ⟨fun h => ⟨i.mem_all, h.symm⟩, fun ⟨_, h⟩ => h.symm⟩

theorem decode_eq_ok_iff_mem_table (v : Word) (i : Instr) :
    decode v = .ok i ↔ (i, v) ∈ Instr.all.map fun j => (j, encode j) := by
  rw [decode_eq_ok_iff, List.mem_map]
  constructor
  · rintro rfl
    exact ⟨i, i.mem_all, rfl⟩
  · rintro ⟨j, -, h⟩
    cases h
    rfl

/-- Settles O2: the legal words are the words of the 12 commands, which are the two lists of the
statement. -/
theorem legalWordsAreExactlyTwelve : Obligations.LegalWordsAreExactlyTwelve := by
  unfold Obligations.LegalWordsAreExactlyTwelve
  intro v
  refine ⟨legalWord_iff v, ?_, decode_error_iff v, fun i => decode_eq_ok_iff_mem_table v i⟩
  rw [legalWord_iff_mem_encodings]
  exact List.Perm.mem_iff (by decide)

/-- Settles O3: the decoder evaluated at each sample word. -/
theorem sampleWordsDecode : Obligations.SampleWordsDecode := by
  unfold Obligations.SampleWordsDecode
  decide

end Sys2Proof

/-! ## O6: a word that is no command

When the engine gets its turn (60_exceptions R353; logs 5, 7), said once for any latched word; then what
the completion step of an illegal one does. -/

namespace Sys2Proof.Machine

section
variable {s : State} {rest : List Input}

theorem step_no_input_busy (busy : s.phase = .busy) (hin : s.inputs = []) :
    step s = s.completionStep := by
  simp only [step, State.advance, hin, State.engineTurn, busy]

theorem step_engine_busy (busy : s.phase = .busy) (hin : s.inputs = .engine :: rest) :
    step s = { s with inputs := rest }.completionStep := by
  simp only [step, State.advance, hin, State.takeInput, State.engineTurn, busy]

/-- WAIT stays first while the command runs (30_encoding R164). -/
theorem step_wait_busy (busy : s.phase = .busy) (hin : s.inputs = .wait :: rest) :
    step s = s.completionStep := by
  simp only [step, State.advance, hin, State.takeInput, busy]

theorem State.completionStep_illegal {r : DecodeReject} (illegal : decode s.latched = .error r) :
    s.completionStep = .next (s.failStart .illegalCmd 0) := by
  simp only [State.completionStep, illegal]

end

/-- Settles O6: each way in which the engine gets its turn is the completion step of the illegal word. -/
theorem illegalWordReportsIllegalCmd : Obligations.IllegalWordReportsIllegalCmd := by
  unfold Obligations.IllegalWordReportsIllegalCmd
  intro s r rest illegal t
  have completes : s.completionStep = .next t := State.completionStep_illegal illegal
  exact ⟨completes, fun busy => ⟨fun input => (step_no_input_busy busy input).trans completes,
    fun input => (step_engine_busy busy input).trans (State.completionStep_illegal illegal),
    fun input => (step_wait_busy busy input).trans completes⟩⟩

/-! ## O37: packed streams, most significant bit first -/

/-- Settles O37: the laws of packing and unpacking, at the index of an optional read. -/
theorem packingIsMsbFirst : Obligations.PackingIsMsbFirst := by
  unfold Obligations.PackingIsMsbFirst
  refine ⟨fun b => ⟨length_packBits b, fun k x read => ?_, unpackBits_packBits b⟩,
    fun bytes => ⟨length_unpackBits bytes, fun k x read => ?_⟩⟩
  · obtain ⟨inside, rfl⟩ := List.getElem?_eq_some_iff.mp read
    exact packBits_bit b k inside
  · obtain ⟨inside, rfl⟩ := List.getElem?_eq_some_iff.mp read
    have bound : k < (unpackBits bytes).length := by
      rw [length_unpackBits]
      omega
    exact List.getElem?_eq_some_iff.mpr ⟨bound, unpackBits_getElem bytes k bound⟩

/-! ## O26: which commands write a register, a table or OUT

For each of them the commands that write it (10_state R42–R53); every ending (`CommandResult`) of another
command leaves it as it was. -/

namespace CommandResult

section
variable {i : Instr} {s t : State} (h : CommandResult s i t)
include h

theorem freq_eq (other : i ∉ ([.hufFreq, .hufEnc, .clearTables] : List Instr)) : t.freq = s.freq := by
  cases h with
  | freq which | clearTables which | encodeEmpty which | encode which | encodeError _ which =>
    exact absurd (which ▸ other) (by decide)
  | _ => rfl

theorem codeTable_eq (other : i ∉ ([.hufBuild, .hufEnc, .clearTables] : List Instr)) :
    t.ct = s.ct ∧ t.tableEntries = s.tableEntries := by
  cases h with
  | build which | clearTables which | encodeEmpty which | encode which | encodeError _ which =>
    exact absurd (which ▸ other) (by decide)
  | _ => exact ⟨rfl, rfl⟩

theorem symCount_eq (other : i ∉ ([.hufPack, .hufEnc] : List Instr)) : t.symCount = s.symCount := by
  cases h with
  | pack which | packError _ which | encodeEmpty which | encode which | encodeError _ which =>
    exact absurd (which ▸ other) (by decide)
  | _ => rfl

theorem bitLen_eq (other : i ∉ ([.hufPack, .hufEnc, .hufDec, .hufDecB] : List Instr)) :
    t.bitLen = s.bitLen := by
  cases h with
  | pack which | packError _ which | encodeEmpty which | encode which | encodeError _ which =>
    exact absurd (which ▸ other) (by decide)
  | decode _ _ _ which | decodeError _ which =>
    rcases which with rfl | rfl <;> exact absurd other (by decide)
  | _ => rfl

theorem runs_eq (other : i ∉ ([.rleEnc, .rleDec, .rleEncPar, .rleDecPar] : List Instr)) :
    t.runs = s.runs := by
  cases h with
  | rleEncode _ which | rleDecode _ which =>
    rcases which with rfl | rfl <;> exact absurd other (by decide)
  | rleError _ which => rcases which with rfl | rfl | rfl | rfl <;> exact absurd other (by decide)
  | _ => rfl

theorem out_eq (other : i ∉ ([.hufPack, .hufEnc, .hufDec, .hufDecB, .rleEnc, .rleDec, .rleEncPar,
    .rleDecPar] : List Instr)) : OutKept s t ∧ t.outLen = s.outLen := by
  cases h with
  | pack which | packError _ which | encodeEmpty which | encode which | encodeError _ which =>
    exact absurd (which ▸ other) (by decide)
  | decode _ _ _ which | decodeError _ which | rleEncode _ which | rleDecode _ which =>
    rcases which with rfl | rfl <;> exact absurd other (by decide)
  | rleError _ which => rcases which with rfl | rfl | rfl | rfl <;> exact absurd other (by decide)
  | _ => exact ⟨fun _ => rfl, rfl⟩

end

end CommandResult

/-- Settles O26: none of the commands named is a writer of what it is said to leave unchanged. -/
theorem commandsKeepWhatTheyDoNotWrite : Obligations.CommandsKeepWhatTheyDoNotWrite := by
  unfold Obligations.CommandsKeepWhatTheyDoNotWrite
  intro i s t h
  have result := exec_cases h
  have other : ∀ {named writers : List Instr}, (∀ j ∈ named, j ∉ writers) → i ∈ named → i ∉ writers :=
    fun apart named => apart i named
  refine ⟨fun named => ?_, fun named => ?_, ?_, ?_, fun named => ?_, fun named => ?_, fun named => ?_⟩
  · obtain ⟨out, outLen⟩ := result.out_eq (other (by decide) named)
    exact ⟨out, outLen, result.bitLen_eq (other (by decide) named),
      result.symCount_eq (other (by decide) named), result.runs_eq (other (by decide) named)⟩
  · obtain ⟨ct, tableEntries⟩ := result.codeTable_eq (other (by decide) named)
    exact ⟨result.freq_eq (other (by decide) named), ct, tableEntries⟩
  · rintro rfl
    exact result.codeTable_eq (by decide)
  · rintro rfl
    exact result.freq_eq (by decide)
  · exact result.runs_eq (other (by decide) named)
  · exact ⟨result.symCount_eq (other (by decide) named), result.runs_eq (other (by decide) named)⟩
  · exact ⟨result.bitLen_eq (other (by decide) named), result.symCount_eq (other (by decide) named)⟩

end Sys2Proof.Machine

/-! ## O34: HUF_FREQ counts the input

The counts are exact, since an input is shorter than 2^32 (`countSymbols_toNat`); what a start-check error
keeps is said once, here and for O36. -/

namespace Sys2Proof.Machine

/-- An error that writes the completion fields only (60_exceptions R354). -/
theorem reportError_frame (s : State) (e : CodecError) :
    TablesKept s (s.reportError e) ∧ ResultsKept s (s.reportError e) ∧ OutKept s (s.reportError e) ∧
      OperandsKept s (s.reportError e) :=
  ⟨⟨rfl, rfl, rfl⟩, ⟨rfl, rfl, rfl, rfl⟩, fun _ => rfl, (OperandsKept.refl s).reportError e⟩

theorem exec_hufFreq_tooLong {s : State} (h : s.cfg.maxIn < s.inLen.toNat) :
    exec .hufFreq s = .next (s.failStart .inLenTooLarge 0) :=
  if_pos (by simpa [State.inTooLong] using h)

/-- Settles O34: the body writes FREQ alone, and its entries are the counts. -/
theorem hufFreqCountsInput : Obligations.HufFreqCountsInput := by
  unfold Obligations.HufFreqCountsInput
  refine ⟨decode_encode .hufFreq, fun s => ⟨fun fits => ?_, fun long => ?_⟩⟩
  · exact ⟨_, exec_hufFreq fits, succeeded_complete (s := s) (u := s.writeFreq) rfl false,
      countSymbols_toNat s.inData_lt, rfl, rfl, ⟨rfl, rfl, rfl, rfl⟩, fun _ => rfl,
      (OperandsKept.refl s).writeFreq.complete false⟩
  · exact ⟨_, exec_hufFreq_tooLong long, failed_reportError rfl ⟨.inLenTooLarge, 0⟩, reportError_frame s _⟩

end Sys2Proof.Machine

/-! ## O36: HUF_BUILD writes the paths of the merging's tree

`buildTree_spec` and `BuildsTo.unique` say that the builder's tree is the one tree of the merging; here an
entry of the table is read off the tree's list of codes (40_huffman_encode R184, R186). -/

namespace Sys2Proof.Machine

section
variable {f : Table Word} {root : Node} (h : buildTree f = some root) {b : Byte}
include h

theorem tableOf_of_mem_codes {c : Bits} (hc : (b, c) ∈ root.codes []) :
    (tableOf (codesOf f)).get b = CtEntry.ofCode c ∧ c.length ≤ 255 := by
  rcases tableOf_spec h b with ⟨d, hd, short, entry, -⟩ | ⟨none, -, -⟩
  · obtain ⟨-, codeC⟩ := (mem_codes_iff h b c).mp hc
    obtain ⟨-, codeD⟩ := (mem_codes_iff h b d).mp hd
    obtain rfl : d = c := codeD.symm.trans codeC
    exact ⟨entry, short⟩
  · exact absurd hc (none c)

theorem tableOf_of_not_mem_codes (hb : ∀ c, (b, c) ∉ root.codes []) :
    (tableOf (codesOf f)).get b = CtEntry.clear := by
  rcases tableOf_spec h b with ⟨c, hc, -, -, -⟩ | ⟨-, entry, -⟩
  · exact absurd hc (hb c)
  · exact entry

end

theorem length_leavesOf (f : Table Word) : (leavesOf f).length = distinctSymbols f := by
  rw [leavesOf_eq, List.length_map, distinctSymbols_eq, List.countP_eq_length_filter]

/-- The count of symbols present does not wrap in its 9 bits (10_state R46). -/
theorem State.tableEntries_writeTable_toNat (s : State) :
    s.writeTable.tableEntries.toNat = distinctSymbols s.freq := by
  have bound := distinctSymbols_le s.freq
  rw [State.writeTable_tableEntries, BitVec.toNat_ofNat, Nat.mod_eq_of_lt (by omega)]

theorem exec_hufBuild_empty {s : State} (h : ∀ b, s.freqOf b = 0) :
    exec .hufBuild s = .next (s.failStart .emptyInput 0) :=
  if_pos ((distinctSymbols_eq_zero s.freq).mpr h)

/-- Settles O36: the queue is the leaves in some order, so the merging gives the builder's tree and no
other. -/
theorem hufBuildWritesTreePaths : Obligations.HufBuildWritesTreePaths := by
  unfold Obligations.HufBuildWritesTreePaths
  refine ⟨decode_encode .hufBuild, fun s queue perm => ⟨fun present => ?_, fun absent => ?_⟩⟩
  · have leaves : queue.Perm (leavesOf s.freq) := by
      rw [leavesOf_eq]
      exact perm
    obtain ⟨tree, built, merged⟩ := buildTree_spec s.freq present
    have only : ∀ root, BuildsTo 0 queue root → root = tree :=
      fun root builds => builds.unique leaves merged
    refine ⟨⟨tree, merged.of_perm leaves, only⟩, _, exec_hufBuild present,
      succeeded_complete (s := s) (u := s.writeTable) rfl false, fun root builds b => ?_, ?_, rfl,
      ⟨rfl, rfl, rfl, rfl⟩, fun _ => rfl, (OperandsKept.refl s).writeTable.complete false⟩
    · obtain rfl := only root builds
      refine ⟨fun c path => ?_, tableOf_of_not_mem_codes built⟩
      obtain ⟨entry, -⟩ := tableOf_of_mem_codes built path
      exact entry
    · rw [State.complete_tableEntries, s.tableEntries_writeTable_toNat, leaves.length_eq, length_leavesOf]
  · exact ⟨_, exec_hufBuild_empty absent, failed_reportError rfl ⟨.emptyInput, 0⟩, reportError_frame s _⟩

end Sys2Proof.Machine

/-! ## O35: the table is complete, over exactly the symbols present

Sums over the VALID entries are sums over the tree's codes, which `Node.codes_complete` evaluates
(40_huffman_encode R185). -/

namespace Sys2Proof.Machine

theorem CtEntry.len_ofCode {c : Bits} (h : c.length ≤ 255) : (CtEntry.ofCode c).len.toNat = c.length := by
  rw [← CtEntry.length_code, CtEntry.code_ofCode c h]

section
variable {f : Table Word} {root : Node} (h : buildTree f = some root)
include h

/-- An entry of HUF_BUILD's table that is not VALID is clear (40_huffman_encode R186). -/
theorem tableOf_clear_of_not_valid {b : Byte}
    (invalid : ((tableOf (codesOf f)).get b).valid = false) :
    (tableOf (codesOf f)).get b = CtEntry.clear := by
  rcases tableOf_spec h b with ⟨c, -, -, entry, -⟩ | ⟨-, entry, -⟩
  · rw [entry] at invalid
    cases invalid
  · exact entry

/-- Bits V[254:LEN] of HUF_BUILD's entries are zero (40_huffman_encode R186). -/
theorem tableOf_high (b : Byte) {k : Nat} (hk : ((tableOf (codesOf f)).get b).len.toNat ≤ k) :
    ((tableOf (codesOf f)).get b).v.getLsbD k = false := by
  rcases tableOf_spec h b with ⟨c, -, short, entry, -⟩ | ⟨-, entry, -⟩
  · rw [entry, CtEntry.len_ofCode short] at hk
    rw [entry, CtEntry.ofCode_high c k hk]
  · rw [entry]
    exact BitVec.getLsbD_zero

/-- Σ 2^(−LEN) = 1 over the VALID entries, in units of 2^(−255) (40_huffman_encode R185 item 3). -/
theorem tableOf_complete :
    ((allSymbols.filter fun b => ((tableOf (codesOf f)).get b).valid).map
      fun b => 2 ^ (255 - ((tableOf (codesOf f)).get b).len.toNat)).sum = 2 ^ 255 := by
  have valid : (allSymbols.filter fun b => ((tableOf (codesOf f)).get b).valid) =
      allSymbols.filter fun b => f.get b != 0 :=
    List.filter_congr fun b _ => by rw [Bool.eq_iff_iff, tableOf_valid, bne_iff_ne]
  have lens : ∀ e ∈ root.codes [],
      2 ^ (255 - ((tableOf (codesOf f)).get e.1).len.toNat) = 2 ^ (255 - e.2.length) := fun e he => by
    obtain ⟨entry, short⟩ := tableOf_of_mem_codes h he
    rw [entry, CtEntry.len_ofCode short]
  have small : ([] : Bits).length + root.symbols.length ≤ 255 + 1 := by
    rw [buildTree_symbols_length h, List.length_nil, Nat.zero_add]
    exact distinctSymbols_le f
  rw [valid, ← ((buildTree_symbols h).map _).sum_eq, ← root.codes_fst [], List.map_map]
  exact (congrArg List.sum (List.map_congr_left lens)).trans (root.codes_complete [] 255 small)

/-- A sole symbol has the empty code (40_huffman_encode R183). -/
theorem tableOf_len_of_sole {b : Byte} (sole : ∀ c, f.get c ≠ 0 → c = b) :
    ((tableOf (codesOf f)).get b).len = 0 := by
  rcases tableOf_spec h b with ⟨c, path, -, entry, -⟩ | ⟨-, entry, -⟩
  · have only : root.symbols ⊆ [b] := fun a ha => by
      obtain ⟨-, present⟩ := List.mem_filter.mp ((buildTree_symbols h).mem_iff.mp ha)
      exact List.mem_singleton.mpr (sole a (bne_iff_ne.mp present))
    have one := ((buildTree_symbols_nodup h).subperm only).length_le
    have depth := Node.mem_codes_length path
    simp only [List.length_nil, List.length_singleton] at depth one
    obtain rfl : c = [] := List.length_eq_zero_iff.mp (by omega)
    rw [entry]
    rfl
  · rw [entry]
    rfl

end

/-- Settles O35: each clause is a law of the table that the body writes. -/
theorem hufBuildWritesCompleteTable : Obligations.HufBuildWritesCompleteTable := by
  unfold Obligations.HufBuildWritesCompleteTable
  intro s present
  obtain ⟨tree, built, -⟩ := buildTree_spec s.freq present
  refine ⟨_, exec_hufBuild present, succeeded_complete (s := s) (u := s.writeTable) rfl false,
    tableOf_valid s.freq, fun _ => tableOf_clear_of_not_valid built, fun b _ => tableOf_high built b, ?_,
    tableOf_prefixFree s.freq, tableOf_complete built, fun _ => tableOf_len_of_sole built, rfl,
    ⟨rfl, rfl, rfl, rfl⟩, fun _ => rfl⟩
  rw [State.complete_tableEntries, s.tableEntries_writeTable_toNat, distinctSymbols_eq,
    List.countP_eq_length_filter]
  rfl

end Sys2Proof.Machine

/-! ## O38, O39: HUF_PACK

`packFrom_stream` runs over a part of the input that has codes and fits; what is left is nothing, or the
symbol at fault (40_huffman_encode R187). -/

namespace Sys2Proof.Machine

/-- The bytes that OUT holds, one by one. -/
theorem OutHolds.outByte {s t : State} {bytes : List Byte} (h : OutHolds s t bytes) {i : Nat}
    (hi : i < bytes.length) : t.outByte i = bytes[i] := by
  have bytesEq := List.getElem_of_eq h.held.symm hi
  simpa [State.outData] using bytesEq.symm

theorem failed_failPack (s : State) (e : CodecError) : Failed s (s.failPack e) e.kind e.pos :=
  ⟨rfl, rfl, rfl, rfl, rfl, rfl, rfl, rfl⟩

section
variable {s : State}

/-- The length of a stream that fits does not wrap in BIT_LEN (00_scope R12). -/
theorem State.bitLen_writePacked_toNat (hc : s.cfg.wf = true) {b : Bits}
    (room : b.length ≤ 8 * s.cfg.maxOut) : (s.writePacked b).bitLen.toNat = b.length := by
  have bounds := Config.bounds hc
  exact toNat_word (by omega)

theorem State.outHolds_writePacked (hc : s.cfg.wf = true) {b : Bits} (room : b.length ≤ 8 * s.cfg.maxOut) :
    OutHolds s (s.writePacked b) (packBits b) := by
  have bounds := Config.bounds hc
  have bytes := packBits_length_le room
  exact outHolds_of_store rfl rfl (toNat_word (by omega))

theorem State.packBody_of_fits (coded : ∀ b ∈ s.inData, (s.ctOf b).valid = true)
    (room : (streamOf s.ct s.inData).length ≤ 8 * s.cfg.maxOut) :
    s.packBody = (s.writePacked (streamOf s.ct s.inData)).complete := by
  have packed := packFrom_stream s.cfg.maxOut s.inData 0 0 [] coded (by omega)
  simp only [List.append_nil, packFrom, Except.map] at packed
  rw [State.packBody, packed]

/-- Pack ends where the rest of the input cannot be packed. -/
theorem State.packBody_of_error {x rest : List Byte} {e : CodecError} (input : s.inData = x ++ rest)
    (coded : ∀ c ∈ x, (s.ctOf c).valid = true) (room : (streamOf s.ct x).length ≤ 8 * s.cfg.maxOut)
    (stops : packFrom s.ct s.cfg.maxOut x.length (streamOf s.ct x).length rest = .error e) :
    s.packBody = s.failPack e := by
  have packed := packFrom_stream s.cfg.maxOut x 0 0 rest coded (by omega)
  rw [Nat.zero_add, Nat.zero_add, stops] at packed
  rw [State.packBody, input, packed]
  rfl

end

/-- Settles O38: the body packs the whole stream, and bit k of a packed stream is `packBits_bit`. -/
theorem hufPackWritesCodes : Obligations.HufPackWritesCodes := by
  unfold Obligations.HufPackWritesCodes
  intro s hc fits coded room
  have holds := State.outHolds_writePacked hc room
  have outLen := holds.outLen
  refine ⟨_, (exec_hufPack fits).trans (congrArg _ (State.packBody_of_fits coded room)),
    succeeded_complete (s := s) (u := s.writePacked _) rfl false, State.bitLen_writePacked_toNat hc room,
    outLen.trans (length_packBits _), rfl, fun k hk => ?_, fun j hj => ?_, ⟨rfl, rfl, rfl⟩, rfl⟩
  · rw [State.complete_outLen, outLen] at hk
    have inside : k / 8 < (packBits (streamOf s.ct s.inData)).length := by omega
    have byte : (s.writePacked (streamOf s.ct s.inData)).complete.outByte (k / 8) =
        (packBits (streamOf s.ct s.inData))[k / 8] := holds.outByte inside
    rw [byte, packBits_bit _ k inside]
  · rw [State.complete_outLen, outLen] at hj
    exact holds.above j hj

/-- Settles O39: Pack comes as far as the symbol `b`, and stops there for want of a code or of room. -/
theorem hufPackReportsFirstError : Obligations.HufPackReportsFirstError := by
  unfold Obligations.HufPackReportsFirstError
  intro s x rest b fits input coded room
  have stopsAt (kind : ErrKind) (stops : packFrom s.ct s.cfg.maxOut x.length (streamOf s.ct x).length
      (b :: rest) = .error ⟨kind, x.length⟩) :
      ∃ t, exec .hufPack s = .next t ∧ Failed s t kind x.length :=
    ⟨_, (exec_hufPack fits).trans (congrArg _ (State.packBody_of_error input coded room stops)),
      failed_failPack s ⟨kind, x.length⟩⟩
  refine ⟨fun uncoded => stopsAt .noCode ?_, fun valid full => stopsAt .outOverflow ?_⟩
  · rw [packFrom]
    exact if_pos uncoded
  · rw [packFrom]
    exact (if_neg (ne_false_of_eq_true valid)).trans (if_pos full)

end Sys2Proof.Machine

/-! ## O40, O41: HUF_ENC

The completions between the three stages write nothing that Pack reads; and the empty-input short-circuit
gives what the stages would give, so that one form serves every input (40_huffman_encode R189). -/

namespace Sys2Proof.Machine

/-- A symbol is counted exactly when it occurs (40_huffman_encode R181). -/
theorem countSymbols_ne_zero {data : List Byte} (h : data.length < 2 ^ 32) (b : Byte) :
    (countSymbols data).get b ≠ 0 ↔ b ∈ data := by
  rw [BitVec.toNat_ne, countSymbols_toNat h b]
  exact Nat.pos_iff_ne_zero.symm.trans List.count_pos_iff

theorem State.inData_eq_nil (s : State) : s.inData = [] ↔ s.inLen = 0 := by
  rw [← List.length_eq_zero_iff, s.inData_length, ← BitVec.toNat_inj]
  rfl

/-- Nonempty input makes some FREQ entry nonzero, so that HUF_ENC cannot report EMPTY_INPUT
(40_huffman_encode R189). -/
theorem State.writeFreq_present {s : State} (h : s.inLen ≠ 0) : ∃ b, s.writeFreq.freqOf b ≠ 0 := by
  obtain ⟨b, occurs⟩ := List.exists_mem_of_ne_nil _ (mt s.inData_eq_nil.mp h)
  exact ⟨b, (countSymbols_ne_zero s.inData_lt b).mpr occurs⟩

/-- Pack reads none of the completion fields and writes them all (60_exceptions R353). -/
theorem State.packBody_complete (s : State) (tail : Bool) : (s.complete tail).packBody = s.packBody := by
  have same : (s.complete tail).inData = s.inData := rfl
  simp only [State.packBody, State.complete_ct, State.complete_cfg, same]
  cases packFrom s.ct s.cfg.maxOut 0 0 s.inData <;> rfl

/-- Settles O40: the two completions in between do not reach Pack. -/
theorem hufEncIsTheThreeStages : Obligations.HufEncIsTheThreeStages := by
  unfold Obligations.HufEncIsTheThreeStages
  intro s fits nonempty _
  have present : ∃ b, s.writeFreq.complete.freqOf b ≠ 0 := State.writeFreq_present nonempty
  have packs : s.writeFreq.complete.writeTable.complete.packBody = s.writeFreq.writeTable.packBody :=
    (s.writeFreq.writeTable.complete.packBody_complete false).trans
      (s.writeFreq.writeTable.packBody_complete false)
  refine ⟨_, _, exec_hufFreq fits, exec_hufBuild present, rfl, ?_⟩
  rw [exec_hufEnc fits nonempty, exec_hufPack (s := s.writeFreq.complete.writeTable.complete) fits, packs]

/-- TABLE_ENTRIES after HUF_ENC: the symbols counted are the distinct symbols of the input. -/
theorem distinctSymbols_countSymbols {data : List Byte} (h : data.length < 2 ^ 32) :
    distinctSymbols (countSymbols data) = data.dedup.length := by
  rw [distinctSymbols_eq, List.countP_eq_length_filter]
  refine ((List.perm_ext_iff_of_nodup (allSymbols_nodup.filter _) data.nodup_dedup).mpr fun b => ?_).length_eq
  rw [List.mem_filter, List.mem_dedup, bne_iff_ne, countSymbols_ne_zero h]
  exact and_iff_right (mem_allSymbols b)

/-- The short-circuit of empty input is the three stages on no input (40_huffman_encode R189). -/
theorem State.encodeEmpty_eq {s : State} (empty : s.inLen = 0) :
    s.encodeEmpty = s.writeFreq.writeTable.writePacked [] := by
  have noData := s.inData_eq_nil.mpr empty
  have noCount : countSymbols [] = Table.ofFn fun _ => 0 := rfl
  have zero : ∀ b, (Table.ofFn fun _ => (0 : Word)).get b = 0 := Table.get_ofFn _
  have noCode : tableOf (codesOf (Table.ofFn fun _ => 0)) = Table.ofFn fun _ => CtEntry.clear := by
    rw [codesOf_eq_nil zero]
    rfl
  have noSymbol : distinctSymbols (Table.ofFn fun _ => 0) = 0 := (distinctSymbols_eq_zero _).mpr zero
  have noBytes : packBits [] = [] := rfl
  simp only [State.encodeEmpty, State.clearTables, State.writePacked, State.writeOut, State.writeTable,
    State.writeFreq, noData, noCount, noCode, noSymbol, noBytes, Memory.store_zero_nil, empty]
  rfl

/-- HUF_ENC on any input whose codes fit, empty input included. -/
theorem exec_hufEnc_of_fits {s : State} (fits : s.inLen.toNat ≤ s.cfg.maxIn)
    (room : (streamOf s.writeFreq.writeTable.ct s.inData).length ≤ 8 * s.cfg.maxOut) :
    exec .hufEnc s = .next
      (s.writeFreq.writeTable.writePacked (streamOf s.writeFreq.writeTable.ct s.inData)).complete := by
  by_cases empty : s.inLen = 0
  · rw [s.inData_eq_nil.mpr empty]
    refine (if_neg (by simp [State.inTooLong_eq_false fits])).trans ((if_pos empty).trans ?_)
    rw [State.encodeEmpty_eq empty]
    rfl
  · rw [exec_hufEnc fits empty]
    exact congrArg _ (State.packBody_of_fits (s := s.writeFreq.writeTable) s.coded_after_build room)

/-- Settles O41: the three bodies in a row, each by its law. -/
theorem hufEncEncodesInput : Obligations.HufEncEncodesInput := by
  unfold Obligations.HufEncEncodesInput
  intro s hc fits room
  have short := s.inData_lt
  refine ⟨_, exec_hufEnc_of_fits fits room,
    succeeded_complete (s := s) (u := s.writeFreq.writeTable.writePacked _) rfl false,
    countSymbols_toNat short, fun b => (tableOf_valid _ b).trans (countSymbols_ne_zero short b),
    tableOf_prefixFree _, ?_, rfl, State.bitLen_writePacked_toNat (s := s.writeFreq.writeTable) hc room, ?_,
    rfl⟩
  · exact s.writeFreq.tableEntries_writeTable_toNat.trans (distinctSymbols_countSymbols short)
  · exact { State.outHolds_writePacked (s := s.writeFreq.writeTable) hc room with }

end Sys2Proof.Machine

/-! ## O42, O43: Rebuild

`rebuildFrom_spec` says how the insertion loop ends. The entries stand in ascending symbol order, so those
inserted before the one that fails are the entries of the lower symbols (41_huffman_decode R230). -/

namespace Sys2Proof.Machine

/-- Settles O42: one direction each of the two laws of Rebuild. -/
theorem rebuildAcceptsPrefixFreeTables : Obligations.RebuildAcceptsPrefixFreeTables := by
  unfold Obligations.RebuildAcceptsPrefixFreeTables
  intro ct
  refine ⟨fun ⟨root, built⟩ => prefixFree_of_rebuild built, fun free => ?_⟩
  obtain ⟨root, built, -⟩ := rebuild_of_prefixFree free
  exact ⟨root, built⟩

theorem Table.entries_ascending {α : Type} (t : Table α) :
    t.entries.Pairwise fun x y => x.1.toNat < y.1.toNat := by
  rw [Table.entries_eq]
  exact List.pairwise_map.mpr allSymbols_ascending

/-- What stands before the entry of `s` is the entries of the lower symbols. -/
theorem Table.mem_before_iff {α : Type} {t : Table α} {before after : List (Byte × α)} {s : Byte} {e : α}
    (split : t.entries = before ++ (s, e) :: after) (x : Byte × α) :
    x ∈ before ↔ t.get x.1 = x.2 ∧ x.1.toNat < s.toNat := by
  have ascending := t.entries_ascending
  rw [split] at ascending
  obtain ⟨-, fromS, cross⟩ := List.pairwise_append.mp ascending
  rw [← Table.mem_entries, split, List.mem_append, List.mem_cons]
  constructor
  · exact fun hx => ⟨.inl hx, cross x hx _ List.mem_cons_self⟩
  · rintro ⟨hx | rfl | hx, lt⟩
    · exact hx
    · exact absurd lt (Nat.lt_irrefl _)
    · exact absurd lt (Nat.lt_asymm (List.rel_of_pairwise_cons fromS hx))

/-- Entries that were all inserted have codes of which none begins another. -/
theorem not_prefix_of_rebuildFrom {es : List (Byte × CtEntry)} {r : DecodeNode}
    (inserted : rebuildFrom es .fresh = .ok r) {x y : Byte × CtEntry} (hx : x ∈ es) (hy : y ∈ es)
    (ne : x ≠ y) (validX : x.2.valid = true) (validY : y.2.valid = true) : ¬ x.2.code <+: y.2.code := by
  rcases rebuildFrom_spec es .fresh (.inl rfl) with
    ⟨_, -, -, -, -, apart⟩ | ⟨_, _, _, _, -, -, fails, -, -⟩
  · have symmetric : Std.Symm fun x y : Byte × CtEntry => x.2.valid = true → y.2.valid = true →
        ¬ x.2.code <+: y.2.code ∧ ¬ y.2.code <+: x.2.code :=
      ⟨fun _ _ h validY validX => (h validX validY).symm⟩
    exact (apart.forall hx hy ne validX validY).1
  · rw [inserted] at fails
    cases fails

/-- Rebuild stops at the first symbol whose code begins, equals or continues the code of a lower one
(41_huffman_decode R230). -/
theorem rebuild_error_of_first {ct : Table CtEntry} {a b : Byte} (validA : (ct.get a).valid = true)
    (validB : (ct.get b).valid = true) (lower : a.toNat < b.toNat)
    (meet : (ct.get a).code <+: (ct.get b).code ∨ (ct.get b).code <+: (ct.get a).code)
    (first : ∀ c d : Byte, (ct.get c).valid = true → (ct.get d).valid = true → c.toNat < d.toNat →
      d.toNat < b.toNat → ¬ (ct.get c).code <+: (ct.get d).code ∧ ¬ (ct.get d).code <+: (ct.get c).code) :
    rebuild ct = .error ⟨.badCodeTable, b.toNat⟩ := by
  have ne : a ≠ b := fun h => Nat.lt_irrefl _ (h ▸ lower)
  rcases rebuildFrom_spec ct.entries .fresh (.inl rfl) with
    ⟨r, built, -⟩ | ⟨before, s, e, after, split, valid, fails, ⟨r, inserted⟩, meets⟩
  · have free := prefixFree_of_rebuild built
    exact absurd meet (not_or.mpr ⟨free a b validA validB ne, free b a validB validA ne.symm⟩)
  · have before_iff := Table.mem_before_iff split
    have notAbove : ¬ b.toNat < s.toNat := fun above => by
      have hb : (b, ct.get b) ∈ before := (before_iff _).mpr ⟨rfl, above⟩
      have ha : (a, ct.get a) ∈ before := (before_iff _).mpr ⟨rfl, Nat.lt_trans lower above⟩
      have ne' : (a, ct.get a) ≠ (b, ct.get b) := fun h => ne (congrArg Prod.fst h)
      exact absurd meet (not_or.mpr ⟨not_prefix_of_rebuildFrom inserted ha hb ne' validA validB,
        not_prefix_of_rebuildFrom inserted hb ha ne'.symm validB validA⟩)
    have notBelow : ¬ s.toNat < b.toNat := fun below => by
      rcases meets with ⟨d, t, leaf, -⟩ | ⟨x, hx, validX, meetX⟩
      · exact fresh_no_leaf d t leaf
      · obtain rfl : ct.get s = e :=
          Table.mem_entries.mp (split ▸ List.mem_append_right _ List.mem_cons_self)
        obtain ⟨entry, lt⟩ := (before_iff _).mp hx
        rw [← entry] at validX meetX
        exact absurd meetX (not_or.mpr (first x.1 s validX valid lt below))
    have same : s.toNat = b.toNat := by omega
    rw [rebuild, fails, same]

/-- With a table that does not rebuild, the decoders report it (41_huffman_decode R234, R235). -/
theorem State.decodeWith_reject {s : State} {e : CodecError} (h : ∃ b, (s.ctOf b).valid = true)
    (rejected : rebuild s.ct = .error e) (needed : Bool) (body : State → DecodeNode → State) :
    s.decodeWith needed body = s.reportError e := by
  obtain ⟨b, valid⟩ := h
  have present : validEntries s.ct ≠ 0 := fun none =>
    absurd ((validEntries_eq_zero _).mp none b) (ne_false_of_eq_true valid)
  rw [State.decodeWith, if_neg present, rejected]

/-- Settles O43: both decoders report where Rebuild stops. -/
theorem badCodeTableNamesFirstSymbol : Obligations.BadCodeTableNamesFirstSymbol := by
  unfold Obligations.BadCodeTableNamesFirstSymbol
  intro s a b fits validA validB lower meet first i hi
  have rejected : rebuild s.ct = .error ⟨.badCodeTable, b.toNat⟩ :=
    rebuild_error_of_first validA validB lower meet first
  have stops := State.decodeWith_reject ⟨a, validA⟩ rejected
  have failed := failed_reportError (s := s) rfl ⟨.badCodeTable, b.toNat⟩
  simp only [List.mem_cons, List.not_mem_nil, or_false] at hi
  rcases hi with rfl | rfl
  · exact ⟨_, (exec_hufDec fits).trans (congrArg _ (stops _ _)), failed⟩
  · exact ⟨_, (exec_hufDecB fits).trans (congrArg _ (stops _ _)), failed⟩

end Sys2Proof.Machine

/-! ## O44, O45: HUF_DEC

`walkCounted_stream` runs over a sequence of codes; what is left is nothing to decode, or the symbol at
fault (41_huffman_decode R232). -/

namespace Sys2Proof.Machine

section
variable {s : State}

/-- Without a VALID entry and with nothing to decode, the decoders write the empty result
(41_huffman_decode R234, R235). -/
theorem State.decodeWith_empty (none : ∀ b, (s.ctOf b).valid = false) {needed : Bool}
    (nothing : needed = false) (body : State → DecodeNode → State) :
    s.decodeWith needed body = (s.writeDecoded [] 0).complete := by
  have absent : validEntries s.ct = 0 := (validEntries_eq_zero s.ct).mpr none
  rw [State.decodeWith, if_pos absent, nothing]
  rfl

theorem failed_failDecode (s : State) (e : CodecError) : Failed s (s.failDecode e) e.kind e.pos :=
  ⟨rfl, rfl, rfl, rfl, rfl, rfl, rfl, rfl⟩

/-- Symbols that all have codes are none when no entry is VALID. -/
theorem State.eq_nil_of_no_code (none : ¬ ∃ b, (s.ctOf b).valid = true) {x : List Byte}
    (coded : ∀ b ∈ x, (s.ctOf b).valid = true) : x = [] :=
  List.eq_nil_iff_forall_not_mem.mpr fun b hb => none ⟨b, coded b hb⟩

/-- HUF_DEC over a stream of the codes of `x`, whatever follows. -/
theorem State.exec_hufDec_of_stream {x : List Byte} {rest : Bits} (fits : s.inLen.toNat ≤ s.cfg.maxIn)
    (free : PrefixFree s.ct) (coded : ∀ b ∈ x, (s.ctOf b).valid = true)
    (input : unpackBits s.inData = streamOf s.ct x ++ rest) (count : x.length = s.symCount.toNat)
    (room : x.length ≤ s.cfg.maxOut) :
    exec .hufDec s = .next (s.writeDecoded x (streamOf s.ct x).length).complete := by
  rw [exec_hufDec fits]
  by_cases present : ∃ b, (s.ctOf b).valid = true
  · obtain ⟨root, built, tree⟩ := rebuild_of_prefixFree free
    have walked := walkCounted_stream tree s.cfg.maxOut x 0 0 0 rest coded (by omega)
    simp only [Nat.zero_add, Nat.add_zero, walkCounted, Except.map, List.append_nil] at walked
    rw [State.decodeWith_walk present built, State.countedBody, input, ← count, walked]
  · obtain rfl := State.eq_nil_of_no_code present coded
    have none : s.symCount = 0 := BitVec.eq_of_toNat_eq count.symm
    rw [State.decodeWith_empty (by simpa using present) (by simp [none])]
    rfl

/-- HUF_DEC ends where, after the symbols `x`, the walk over the rest fails. -/
theorem State.exec_hufDec_of_error {x : List Byte} {rest : Bits} {e : CodecError}
    (fits : s.inLen.toNat ≤ s.cfg.maxIn) (present : ∃ b, (s.ctOf b).valid = true)
    (coded : ∀ b ∈ x, (s.ctOf b).valid = true) (input : unpackBits s.inData = streamOf s.ct x ++ rest)
    (count : x.length < s.symCount.toNat) (room : x.length ≤ s.cfg.maxOut) {root : DecodeNode}
    (built : rebuild s.ct = .ok root) (tree : TreeOf s.ct root)
    (stops : ∀ k, walkCounted root s.cfg.maxOut (k + 1) x.length (streamOf s.ct x).length rest = .error e) :
    exec .hufDec s = .next (s.failDecode e) := by
  obtain ⟨k, left⟩ : ∃ k, s.symCount.toNat = x.length + (k + 1) :=
    ⟨s.symCount.toNat - x.length - 1, by omega⟩
  have walked := walkCounted_stream tree s.cfg.maxOut x (k + 1) 0 0 rest coded (by omega)
  rw [Nat.zero_add, Nat.zero_add, stops] at walked
  rw [exec_hufDec fits, State.decodeWith_walk present built, State.countedBody, input, left, walked]
  rfl

end

/-- Settles O44: the walk decodes the symbols and stops with their count. -/
theorem hufDecDecodesCountedStream : Obligations.HufDecDecodesCountedStream := by
  unfold Obligations.HufDecDecodesCountedStream
  intro s x rest hc fits free coded input count room
  have bounds := Config.bounds hc
  have inside := congrArg List.length input
  rw [length_unpack_inData, List.length_append] at inside
  exact ⟨_, State.exec_hufDec_of_stream fits free coded input count room,
    succeeded_complete (s := s) (u := s.writeDecoded x _) rfl false,
    outHolds_of_store rfl rfl (toNat_word (by omega)), toNat_word (by omega), ⟨rfl, rfl, rfl⟩, rfl, rfl⟩

/-- The counted walk passes on the error of a symbol's walk (41_huffman_decode R232). -/
theorem walkCounted_of_symbol_error {root : DecodeNode} {pos : Nat} {bits : Bits} {e : CodecError}
    (fails : walkSymbol root pos bits = .error e) (maxOut k n : Nat) :
    walkCounted root maxOut (k + 1) n pos bits = .error e := by
  rw [walkCounted, fails]

/-- A symbol that finds OUT full (41_huffman_decode R232). -/
theorem walkCounted_full {root : DecodeNode} {c : Bits} {b : Byte} (leaf : root.walk c = .leaf b)
    (maxOut k pos : Nat) (rest : Bits) :
    walkCounted root maxOut (k + 1) maxOut pos (c ++ rest) = .error ⟨.outOverflow, maxOut⟩ := by
  rw [walkCounted, walkSymbol_leaf c root pos rest b leaf]
  exact if_pos rfl

/-- Settles O45: after `x` the walk of one symbol is `walkSymbol_truncated`, `walkSymbol_invalid`, or that
of a whole code. -/
theorem hufDecReportsFirstStreamError : Obligations.HufDecReportsFirstStreamError := by
  unfold Obligations.HufDecReportsFirstStreamError
  intro s x p rest fits free present coded input count room
  obtain ⟨root, built, tree⟩ := rebuild_of_prefixFree free
  rw [List.append_assoc] at input
  have endsWith (kind : ErrKind) (pos : Nat) (stops : ∀ k, walkCounted root s.cfg.maxOut (k + 1) x.length
      (streamOf s.ct x).length (p ++ rest) = .error ⟨kind, pos⟩) :
      ∃ t, exec .hufDec s = .next t ∧ Failed s t kind pos :=
    ⟨_, State.exec_hufDec_of_error fits present coded input count room built tree stops,
      failed_failDecode s ⟨kind, pos⟩⟩
  refine ⟨fun inside ended => endsWith _ _ fun k => ?_,
    fun b more inside next missing => endsWith _ _ fun k => ?_,
    fun b valid code full => endsWith _ _ fun k => ?_⟩
  · have total := congrArg List.length input
    rw [length_unpack_inData, ended, List.append_nil, List.length_append] at total
    rw [ended, List.append_nil, total]
    exact walkCounted_of_symbol_error (walkSymbol_truncated (tree.inner_of_inside inside) _) _ k _
  · rw [next]
    exact walkCounted_of_symbol_error (walkSymbol_invalid (tree.inner_of_inside inside)
      (tree.absent_of_no_code present missing) _ more) _ k _
  · rw [code, full]
    exact walkCounted_full ((tree.leaves _ b).mpr ⟨valid, rfl⟩) _ k _ rest

end Sys2Proof.Machine

/-! ## O46, O47: HUF_DEC.B

`walkBaseline_stream` runs over a sequence of nonempty codes; what is left is the tail, the bit that leads
to no child, or the code that finds OUT full (41_huffman_decode R233). -/

namespace Sys2Proof.Machine

theorem walkBaseline_nil (r n : DecodeNode) (maxOut : Nat) (inside : Bool) (k pos : Nat) :
    walkBaseline r maxOut n inside k pos [] = .ok ([], pos, inside) := by
  cases n <;> rfl

/-- From the root along nothing or into a code. -/
theorem TreeOf.walkBaseline_tail {ct : Table CtEntry} {r : DecodeNode} (h : TreeOf ct r) {p : Bits}
    (tail : p = [] ∨ InsideCode ct p) (maxOut k pos : Nat) (rest : Bits) :
    walkBaseline r maxOut r false k pos (p ++ rest) =
      walkBaseline r maxOut (r.walk p) (p != []) k (pos + p.length) rest := by
  rcases tail with rfl | inside
  · simp
  · rw [walkBaseline_inside maxOut p r false k pos rest (h.inner_of_inside inside), Bool.false_or]

section
variable {s : State}

/-- HUF_DEC.B over a stream of nonempty codes that ends in nothing or inside a code. -/
theorem State.exec_hufDecB_of_stream {x : List Byte} {p : Bits} (fits : s.inLen.toNat ≤ s.cfg.maxIn)
    (free : PrefixFree s.ct) (coded : ∀ b ∈ x, (s.ctOf b).valid = true ∧ (s.ctOf b).code ≠ [])
    (tail : p = [] ∨ InsideCode s.ct p) (input : unpackBits s.inData = streamOf s.ct x ++ p)
    (room : x.length ≤ s.cfg.maxOut) :
    exec .hufDecB s = .next ((s.writeDecoded x (8 * s.inLen.toNat)).complete (p != [])) := by
  have total := congrArg List.length input
  rw [length_unpack_inData, List.length_append] at total
  rw [exec_hufDecB fits]
  by_cases present : ∃ b, (s.ctOf b).valid = true
  · obtain ⟨root, built, tree⟩ := rebuild_of_prefixFree free
    have walked := walkBaseline_stream tree s.cfg.maxOut x 0 0 p coded (by omega)
    have rest := tree.walkBaseline_tail tail s.cfg.maxOut (0 + x.length) (0 + (streamOf s.ct x).length) []
    rw [List.append_nil, walkBaseline_nil, Nat.zero_add, Nat.zero_add, ← total] at rest
    rw [Nat.zero_add, Nat.zero_add, rest] at walked
    simp only [Except.map, List.append_nil] at walked
    rw [State.decodeWith_walk present built, State.baselineBody, input, walked]
  · obtain rfl := State.eq_nil_of_no_code present fun b hb => (coded b hb).1
    obtain rfl : p = [] := tail.resolve_right fun ⟨b, valid, _⟩ => present ⟨b, valid⟩
    have none : s.inLen = 0 := BitVec.eq_of_toNat_eq (by simpa [streamOf] using total)
    rw [State.decodeWith_empty (by simpa using present) (by simp [none]), none]
    rfl

/-- HUF_DEC.B ends where, after the symbols `x`, the walk over the rest fails. -/
theorem State.exec_hufDecB_of_error {x : List Byte} {rest : Bits} {e : CodecError}
    (fits : s.inLen.toNat ≤ s.cfg.maxIn) (present : ∃ b, (s.ctOf b).valid = true)
    (coded : ∀ b ∈ x, (s.ctOf b).valid = true ∧ (s.ctOf b).code ≠ [])
    (input : unpackBits s.inData = streamOf s.ct x ++ rest) (room : x.length ≤ s.cfg.maxOut)
    {root : DecodeNode} (built : rebuild s.ct = .ok root) (tree : TreeOf s.ct root)
    (stops : walkBaseline root s.cfg.maxOut root false x.length (streamOf s.ct x).length rest = .error e) :
    exec .hufDecB s = .next (s.failDecode e) := by
  have walked := walkBaseline_stream tree s.cfg.maxOut x 0 0 rest coded (by omega)
  rw [Nat.zero_add, Nat.zero_add, stops] at walked
  rw [exec_hufDecB fits, State.decodeWith_walk present built, State.baselineBody, input, walked]
  rfl

/-- Whole codes of more symbols than OUT holds (41_huffman_decode R233). -/
theorem State.exec_hufDecB_of_overflow {y : List Byte} {rest : Bits}
    (fits : s.inLen.toNat ≤ s.cfg.maxIn) (free : PrefixFree s.ct)
    (coded : ∀ b ∈ y, (s.ctOf b).valid = true ∧ (s.ctOf b).code ≠ [])
    (input : unpackBits s.inData = streamOf s.ct y ++ rest) (exceeds : s.cfg.maxOut < y.length) :
    exec .hufDecB s = .next (s.failDecode ⟨.outOverflow, s.cfg.maxOut⟩) := by
  obtain ⟨root, built, tree⟩ := rebuild_of_prefixFree free
  obtain ⟨x, c, more, rfl, full⟩ : ∃ (x : List Byte) (c : Byte) (more : List Byte),
      y = x ++ c :: more ∧ x.length = s.cfg.maxOut :=
    ⟨_, y[s.cfg.maxOut], _, by rw [← List.drop_eq_getElem_cons exceeds, List.take_append_drop],
      List.length_take_of_le exceeds.le⟩
  obtain ⟨codedX, codedC⟩ := List.forall_mem_append.mp coded
  obtain ⟨valid, nonempty⟩ := codedC c List.mem_cons_self
  rw [streamOf_append, streamOf_cons, List.append_assoc, List.append_assoc] at input
  refine State.exec_hufDecB_of_error fits ⟨c, valid⟩ codedX input full.le built tree ?_
  rw [walkBaseline_code tree valid nonempty, if_pos full, full]

end

/-- Settles O46: the walk decodes the symbols and ends in the tail. -/
theorem hufDecBDecodesWholeStream : Obligations.HufDecBDecodesWholeStream := by
  unfold Obligations.HufDecBDecodesWholeStream
  intro s x p hc fits free coded tail input room
  have bounds := Config.bounds hc
  exact ⟨_, State.exec_hufDecB_of_stream fits free coded tail input room,
    succeeded_complete (s := s) (u := s.writeDecoded x _) rfl _,
    outHolds_of_store rfl rfl (toNat_word (by omega)), toNat_word (by omega), ⟨rfl, rfl, rfl⟩, rfl, rfl⟩

/-- Settles O47: after `x` and `p` the next bit leads to no child, or it ends a code. -/
theorem hufDecBReportsFirstStreamError : Obligations.HufDecBReportsFirstStreamError := by
  unfold Obligations.HufDecBReportsFirstStreamError
  intro s x p rest b fits free present coded input room
  refine ⟨fun tail missing => ?_, fun c valid code full => ?_⟩
  · obtain ⟨root, built, tree⟩ := rebuild_of_prefixFree free
    have absent := tree.absent_of_no_code present missing
    rw [DecodeNode.walk_append, DecodeNode.walk_cons, DecodeNode.walk_nil] at absent
    rw [List.append_assoc] at input
    refine ⟨_, State.exec_hufDecB_of_error fits present coded input room built tree ?_,
      failed_failDecode s ⟨.invalidBitSequence, _⟩⟩
    rw [tree.walkBaseline_tail tail, walkBaseline_absent absent]
  · have codedC : (s.ctOf c).valid = true ∧ (s.ctOf c).code ≠ [] := ⟨valid, by simp [← code]⟩
    have input' : unpackBits s.inData = streamOf s.ct (x ++ [c]) ++ rest := by
      rw [input, streamOf_append, streamOf_cons, ← State.ctOf, ← code]
      simp [streamOf]
    exact ⟨_, State.exec_hufDecB_of_overflow fits free
      (List.forall_mem_append.mpr ⟨coded, List.forall_mem_singleton.mpr codedC⟩) input' (by simp [full]),
      failed_failDecode s ⟨.outOverflow, _⟩⟩

end Sys2Proof.Machine

/-! ## O48, O49: decoding what HUF_ENC wrote

The decoders read the stream of HUF_ENC with its padding (`EncodesTo`). HUF_DEC stops with the symbol
count; HUF_DEC.B goes on into the padding, which is copies of the all-zero code and a rest of it
(41_huffman_decode R236, R237). -/

namespace Sys2Proof.Machine

/-- What a successful HUF_ENC from `s` leaves in `t` for a decoder (40_huffman_encode R189). -/
structure EncodesTo (s t : State) : Prop where
  table : t.ct = tableOf (codesOf (countSymbols s.inData))
  symCount : t.symCount.toNat = s.inData.length
  entries : t.tableEntries.toNat = distinctSymbols (countSymbols s.inData)
  bitLen : t.bitLen.toNat = (streamOf t.ct s.inData).length
  outLen : t.outLen.toNat = ((streamOf t.ct s.inData).length + 7) / 8
  held : t.outData t.outLen.toNat = packBits (streamOf t.ct s.inData)

section
variable {s t : State}

theorem exec_hufEnc_tooLong (h : s.cfg.maxIn < s.inLen.toNat) :
    exec .hufEnc s = .next (s.failStart .inLenTooLarge 0) :=
  if_pos (by simpa [State.inTooLong] using h)

/-- HUF_ENC succeeds only on legal input whose codes fit (40_huffman_encode R189). -/
theorem fits_of_exec_hufEnc (h : exec .hufEnc s = .next t) (success : t.errCode = 0) :
    s.inLen.toNat ≤ s.cfg.maxIn ∧
      (streamOf s.writeFreq.writeTable.ct s.inData).length ≤ 8 * s.cfg.maxOut := by
  by_cases fits : s.inLen.toNat ≤ s.cfg.maxIn
  · refine ⟨fits, ?_⟩
    by_cases empty : s.inLen = 0
    · rw [s.inData_eq_nil.mpr empty]
      exact Nat.zero_le _
    · rw [exec_hufEnc fits empty] at h
      rcases s.writeFreq.writeTable.packBody_cases with ⟨-, room, -⟩ | ⟨e, fails, -⟩
      · exact room
      · rw [fails] at h
        cases h
        exact absurd success e.kind.code_ne_zero
  · rw [exec_hufEnc_tooLong (by omega)] at h
    cases h
    exact absurd success (ErrKind.code_ne_zero .inLenTooLarge)

theorem encodesTo_of_exec_hufEnc (hc : s.cfg.wf = true) (h : exec .hufEnc s = .next t)
    (success : t.errCode = 0) : EncodesTo s t := by
  obtain ⟨fits, room⟩ := fits_of_exec_hufEnc h success
  rw [exec_hufEnc_of_fits fits room] at h
  cases h
  have holds := State.outHolds_writePacked (s := s.writeFreq.writeTable) hc room
  have outLen := holds.outLen
  exact {
    table := rfl
    symCount := s.inData_length.symm
    entries := s.writeFreq.tableEntries_writeTable_toNat
    bitLen := State.bitLen_writePacked_toNat (s := s.writeFreq.writeTable) hc room
    outLen := outLen.trans (length_packBits _)
    held := (congrArg _ outLen).trans holds.held }

namespace EncodesTo

/-- A state that holds the stream in IN, and the table, is ready for a decoder: it reads the codes of the
input and then the zero padding (70_reset R409, 30_encoding R142). -/
theorem decoderInput {u : State} (h : EncodesTo s t) (fits : t.outLen.toNat ≤ s.cfg.maxIn)
    (cfg : u.cfg = s.cfg) (table : u.ct = t.ct) (inLen : u.inLen = t.outLen)
    (copied : u.inData = t.outData t.outLen.toNat) :
    u.inLen.toNat ≤ u.cfg.maxIn ∧ PrefixFree u.ct ∧ (∀ b ∈ s.inData, (u.ctOf b).valid = true) ∧
      unpackBits u.inData = streamOf u.ct s.inData ++
        List.replicate (8 * t.outLen.toNat - t.bitLen.toNat) false := by
  refine ⟨by rwa [inLen, cfg], ?_, fun b hb => ?_, ?_⟩
  · rw [table, h.table]
    exact tableOf_prefixFree _
  · rw [State.ctOf, table, h.table]
    exact s.coded_after_build b hb
  · rw [copied, h.held, unpackBits_packBits, table, h.outLen, h.bitLen]

end EncodesTo

end

/-- Settles O48: the stream of HUF_ENC is a counted stream, and its padding is what follows. -/
theorem huffmanRoundTrip : Obligations.HuffmanRoundTrip := by
  unfold Obligations.HuffmanRoundTrip
  intro s t u hc encoded success room fitsBack cfg table count inLen copied
  have enc := encodesTo_of_exec_hufEnc hc encoded success
  obtain ⟨fits, free, coded, input⟩ := enc.decoderInput fitsBack cfg table inLen copied
  refine ⟨_, State.exec_hufDec_of_stream fits free coded input (by rw [count, enc.symCount]) (by rwa [cfg]),
    succeeded_complete (s := u) (u := u.writeDecoded s.inData _) rfl false,
    outHolds_of_store rfl rfl (toNat_word s.inData_lt), ?_⟩
  rw [State.complete_bitLen, State.writeDecoded_bitLen, table, ← enc.bitLen, BitVec.ofNat_toNat,
    BitVec.setWidth_eq]

/-! ### Zero padding as copies of the all-zero code -/

/-- The leftmost leaf of a tree of two or more symbols (41_huffman_decode R237). -/
theorem exists_zero_code {f : Table Word} (two : 2 ≤ distinctSymbols f) :
    ∃ (z : Byte) (l : Nat), 1 ≤ l ∧ ((tableOf (codesOf f)).get z).valid = true ∧
    ((tableOf (codesOf f)).get z).code = List.replicate l false := by
  have present : ∃ b, f.get b ≠ 0 := by
    by_contra none
    have zero := (distinctSymbols_eq_zero f).mpr (by simpa using none)
    omega
  obtain ⟨root, built, -⟩ := buildTree_spec f present
  have leaves := buildTree_symbols_length built
  obtain ⟨z, l, path, sole⟩ := root.leftmost []
  obtain ⟨valid, code⟩ := (mem_codes_iff built z _).mp path
  exact ⟨z, l, by omega, valid, code⟩

/-- The table of a sole symbol gives every input the empty stream (40_huffman_encode R183). -/
theorem streamOf_of_sole {f : Table Word} (one : distinctSymbols f = 1) {x : List Byte}
    (coded : ∀ b ∈ x, ((tableOf (codesOf f)).get b).valid = true) :
    streamOf (tableOf (codesOf f)) x = [] := by
  refine List.flatMap_eq_nil_iff.mpr fun b hb => ?_
  have valid := coded b hb
  obtain ⟨root, built, -⟩ := buildTree_spec f ⟨b, (tableOf_valid f b).mp valid⟩
  have depth := Node.mem_codes_length ((mem_codes_iff built b _).mpr ⟨valid, rfl⟩)
  rw [buildTree_symbols_length built, one] at depth
  exact List.length_eq_zero_iff.mp (by simpa using depth)

section
variable {ct : Table CtEntry} {z : Byte}

/-- Beside a nonempty code there is no empty one. -/
theorem PrefixFree.code_ne_nil (free : PrefixFree ct) (validZ : (ct.get z).valid = true)
    (nonempty : (ct.get z).code ≠ []) {b : Byte} (valid : (ct.get b).valid = true) :
    (ct.get b).code ≠ [] := fun empty => by
  have ne : b ≠ z := by
    rintro rfl
    exact nonempty empty
  exact free b z valid validZ ne (empty ▸ List.nil_prefix)

variable {l : Nat} (code : (ct.get z).code = List.replicate l false)
include code

theorem replicate_eq_streamOf_copies (p : Nat) : List.replicate p false =
    streamOf ct (List.replicate (p / l) z) ++ List.replicate (p % l) false := by
  rw [streamOf, List.flatMap_replicate, code, List.flatten_replicate_replicate,
    List.replicate_append_replicate, Nat.div_add_mod']

theorem insideCode_replicate (valid : (ct.get z).valid = true) {k : Nat} (short : k < l) :
    InsideCode ct (List.replicate k false) := by
  refine ⟨z, valid, ?_, fun whole => ?_⟩
  · rw [code, ← Nat.add_sub_of_le short.le, ← List.replicate_append_replicate]
    exact List.prefix_append _ _
  · have lengths := congrArg List.length whole
    rw [code, List.length_replicate, List.length_replicate] at lengths
    exact absurd lengths short.ne

end

/-- Zero padding after the codes of `x` decodes as copies of the symbol whose code is all zeros, as many as
it holds whole codes; OUT_OVERFLOW is raised exactly when they do not fit (41_huffman_decode R237). -/
theorem State.exec_hufDecB_of_padded {s : State} {x : List Byte} {z : Byte} {l p : Nat}
    (fits : s.inLen.toNat ≤ s.cfg.maxIn) (free : PrefixFree s.ct) (positive : 1 ≤ l)
    (valid : (s.ctOf z).valid = true) (code : (s.ctOf z).code = List.replicate l false)
    (coded : ∀ b ∈ x, (s.ctOf b).valid = true)
    (input : unpackBits s.inData = streamOf s.ct x ++ List.replicate p false) :
    (x.length + p / l ≤ s.cfg.maxOut → exec .hufDecB s = .next
      ((s.writeDecoded (x ++ List.replicate (p / l) z) (8 * s.inLen.toNat)).complete (p % l != 0))) ∧
    (s.cfg.maxOut < x.length + p / l →
      exec .hufDecB s = .next (s.failDecode ⟨.outOverflow, s.cfg.maxOut⟩)) := by
  have nonempty : (s.ctOf z).code ≠ [] := by
    rw [code]
    exact mt (List.replicate_eq_nil_iff false).mp (by omega)
  have coded' : ∀ b ∈ x ++ List.replicate (p / l) z, (s.ctOf b).valid = true ∧ (s.ctOf b).code ≠ [] :=
    fun b hb => by
      have validB : (s.ctOf b).valid = true :=
        (List.mem_append.mp hb).elim (coded b) fun copy => List.eq_of_mem_replicate copy ▸ valid
      exact ⟨validB, free.code_ne_nil valid nonempty validB⟩
  have input' : unpackBits s.inData = streamOf s.ct (x ++ List.replicate (p / l) z) ++
      List.replicate (p % l) false := by
    rw [streamOf_append, List.append_assoc, ← replicate_eq_streamOf_copies code, input]
  have count : (x ++ List.replicate (p / l) z).length = x.length + p / l := by simp
  refine ⟨fun room => ?_, fun exceeds => ?_⟩
  · have partialTail : (List.replicate (p % l) false != []) = (p % l != 0) := by
      rw [Bool.eq_iff_iff, bne_iff_ne, bne_iff_ne, Ne, List.replicate_eq_nil_iff]
    rw [← partialTail]
    exact State.exec_hufDecB_of_stream fits free coded'
      (.inr (insideCode_replicate code valid (Nat.mod_lt p positive))) input' (count.trans_le room)
  · exact State.exec_hufDecB_of_overflow fits free coded' input' (exceeds.trans_eq count.symm)

/-- Settles O49: with two or more symbols the padding is copies of `z` and an inner tail; a sole symbol has
the empty code, so that its stream is empty. -/
theorem baselineGap : Obligations.BaselineGap := by
  unfold Obligations.BaselineGap
  intro s t u hc encoded success _ fitsBack cfg table inLen copied
  have enc := encodesTo_of_exec_hufEnc hc encoded success
  obtain ⟨fits, free, coded, input⟩ := enc.decoderInput fitsBack cfg table inLen copied
  have bounds := Config.bounds hc
  refine ⟨fun two => ?_, fun one => ?_⟩
  · obtain ⟨z, l, positive, valid, code⟩ := exists_zero_code (enc.entries ▸ two)
    rw [← enc.table] at valid code
    obtain ⟨decodes, overflows⟩ := State.exec_hufDecB_of_padded (z := z) (l := l) fits free positive
      (by rwa [State.ctOf, table]) (by rwa [State.ctOf, table]) coded input
    rw [cfg] at decodes overflows
    refine ⟨z, l, positive, valid, code, fun room => ?_, fun exceeds => ?_⟩
    · exact ⟨_, decodes room, succeeded_complete (s := u) (u := u.writeDecoded _ _) rfl _,
        outHolds_of_store rfl rfl (toNat_word (by simp; omega))⟩
    · exact ⟨_, overflows exceeds, failed_failDecode u ⟨.outOverflow, _⟩⟩
  · have noBits : streamOf u.ct s.inData = [] := by
      rw [table, enc.table]
      exact streamOf_of_sole (enc.entries ▸ one) (enc.table ▸ table ▸ coded)
    have noPadding : 8 * t.outLen.toNat - t.bitLen.toNat = 0 := by
      rw [enc.outLen, enc.bitLen, ← table, noBits]
      rfl
    rw [noBits, noPadding] at input
    exact ⟨_, State.exec_hufDecB_of_stream (x := []) (p := []) fits free nofun (.inl rfl) input
      (Nat.zero_le _), succeeded_complete (s := u) (u := u.writeDecoded _ _) rfl false, outHolds_of_store rfl rfl rfl⟩

end Sys2Proof.Machine

/-! ## O54, O60: the chunks

Below W bytes there is one chunk, the whole input; from W bytes on there are W, the last of which takes the
remainder (42_rle R274). Every inner boundary costs at most one more pair. -/

namespace Sys2Proof.Machine

section
variable {n w : Nat}

theorem chunks_of_lt (short : n < w) : chunks n w = [(0, n)] := if_pos short

theorem chunks_of_le (long : w ≤ n) : chunks n w =
    (List.range (w - 1)).map (fun k => (k * (n / w), (k + 1) * (n / w))) ++ [((w - 1) * (n / w), n)] :=
  if_neg (by omega)

theorem chunks_one (n : Nat) : chunks n 1 = [(0, n)] := by
  by_cases short : n < 1
  · exact chunks_of_lt short
  · simp [chunks_of_le (Nat.le_of_not_lt short)]

theorem length_chunks_of_le (positive : 1 ≤ w) (long : w ≤ n) : (chunks n w).length = w := by
  simp [chunks_of_le long, Nat.sub_add_cancel positive]

theorem length_chunks_le (positive : 1 ≤ w) : (chunks n w).length ≤ w := by
  by_cases short : n < w
  · rwa [chunks_of_lt short]
  · exact (length_chunks_of_le positive (by omega)).le

/-- The inner chunks end where the last one begins, and that lies before the end of the input. -/
theorem last_chunk_nonempty (positive : 1 ≤ w) (long : w ≤ n) : (w - 1) * (n / w) < n := by
  have quotient : 1 ≤ n / w := Nat.div_pos long positive
  calc (w - 1) * (n / w) < w * (n / w) := Nat.mul_lt_mul_of_pos_right (by omega) quotient
    _ ≤ n := Nat.mul_div_le n w

theorem chunks_nonempty (positive : 1 ≤ w) (long : w ≤ n) {c : Nat × Nat} (h : c ∈ chunks n w) :
    c.1 < c.2 := by
  rw [chunks_of_le long, List.mem_append] at h
  rcases h with inner | last
  · obtain ⟨k, -, rfl⟩ := List.mem_map.mp inner
    exact Nat.mul_lt_mul_of_pos_right (Nat.lt_succ_self k) (Nat.div_pos long positive)
  · rw [List.mem_singleton.mp last]
    exact last_chunk_nonempty positive long

end

/-- With one chunk the parallel encoder gives the sequential encoder's pairs (42_rle R275). -/
theorem rleEncodeChunks_of_one_chunk {bytes : List Byte} {w : Nat}
    (one : chunks bytes.length w = [(0, bytes.length)]) : rleEncodeChunks w bytes = rleEncode 0 bytes := by
  simp [rleEncodeChunks, one]

/-- Settles O54: that the chunks cover the input is `chunks_cover`; the empty chunks that the general formula
would give to a short input yield no pairs. -/
theorem chunksPartitionInput : Obligations.ChunksPartitionInput := by
  unfold Obligations.ChunksPartitionInput
  intro bytes w positive
  refine ⟨chunks_cover bytes w positive, fun short => ⟨chunks_of_lt short, ?_⟩, fun long =>
    ⟨length_chunks_of_le positive long, fun k inner => ?_, ?_, fun c => chunks_nonempty positive long⟩⟩
  · rw [rleEncodeChunks_of_one_chunk (chunks_of_lt short)]
    simp [List.flatMap_replicate, rleEncode]
  · rw [chunks_of_le long, List.getElem?_append_left (by simp; omega)]
    simp [show k < w - 1 by omega]
  · rw [chunks_of_le long, List.getElem?_append_right (by simp)]
    simp

/-- Encoding slices one by one costs at most one pair for each inner boundary (42_rle R279 item 4). -/
theorem length_flatMap_rleEncode_le (bytes : List Byte) (cs : List (Nat × Nat)) :
    (cs.flatMap fun c => rleEncode c.1 (slice bytes c.1 c.2)).length ≤
      (rleEncode 0 (cs.flatMap fun c => slice bytes c.1 c.2)).length + (cs.length - 1) := by
  induction cs with
  | nil => exact Nat.zero_le _
  | cons c cs ih =>
    rw [List.flatMap_cons, List.flatMap_cons, List.length_append]
    cases cs with
    | nil => simp [rleEncode_length_start c.1 0]
    | cons d ds =>
      have cut := rleEncode_append_length c.1 0 0 (slice bytes c.1 c.2)
        ((d :: ds).flatMap fun c => slice bytes c.1 c.2)
      simp only [List.length_cons, Nat.add_sub_cancel] at ih ⊢
      omega

/-- Settles O60: the chunks are at most W slices, and together they are the input. -/
theorem parallelEncodeCost : Obligations.ParallelEncodeCost := by
  unfold Obligations.ParallelEncodeCost
  intro bytes w positive
  have cost := length_flatMap_rleEncode_le bytes (chunks bytes.length w)
  have count : (chunks bytes.length w).length ≤ w := length_chunks_le positive
  rw [chunks_cover bytes w positive] at cost
  rw [rleEncodeChunks]
  omega

end Sys2Proof.Machine

/-! ## O50, O51, O55, O56: the encoders

A run-length form is determined by its data (`RunLengthOf.unique`), so the pairs that an encoder emits are
those of the statement; `emitPairs` writes them or stops at the first that does not fit (42_rle R272). -/

namespace Sys2Proof.Machine

/-- What a successful RLE command writes before it completes: OUT, OUT_LEN and RUNS (42_rle R272, R273). -/
def State.writeRuns (s : State) (bytes : List Byte) (count : Nat) : State :=
  { s.writeOut bytes with runs := BitVec.ofNat 32 count }

/-- `t` is `s` after an RLE command that succeeded with `bytes` in OUT and `count` in RUNS: the tables,
BIT_LEN and SYM_COUNT are kept (30_encoding R137). -/
def WroteRuns (s t : State) (bytes : List Byte) (count : Nat) : Prop :=
  Succeeded s t false ∧ OutHolds s t bytes ∧ t.runs.toNat = count ∧ TablesKept s t ∧
    t.bitLen = s.bitLen ∧ t.symCount = s.symCount

theorem failed_failRle (s : State) (e : CodecError) : Failed s (s.failRle e) e.kind e.pos :=
  ⟨rfl, rfl, rfl, rfl, rfl, rfl, rfl, rfl⟩

section
variable {s : State}

/-- Nothing wraps in OUT_LEN and RUNS. -/
theorem State.writeRuns_completes {bytes : List Byte} {count : Nat} (short : bytes.length < 2 ^ 32)
    (few : count < 2 ^ 32) : WroteRuns s (s.writeRuns bytes count).complete bytes count :=
  ⟨succeeded_complete (s := s) (u := s.writeRuns bytes count) rfl false,
    outHolds_of_store rfl rfl (toNat_word short), toNat_word few, ⟨rfl, rfl, rfl⟩, rfl, rfl⟩

theorem State.writeRuns_pairBytes_completes (hc : s.cfg.wf = true) {pairs : List (Nat × Byte)}
    (room : 2 * pairs.length ≤ s.cfg.maxOut) :
    WroteRuns s (s.writeRuns (pairBytes pairs) pairs.length).complete (pairBytes pairs) pairs.length := by
  have bounds := Config.bounds hc
  exact State.writeRuns_completes (by rw [pairBytes_length]; omega) (by omega)

theorem State.encodePairs_of_fits {ps : List RlePair} {pairs : List (Nat × Byte)}
    (plain : ps.map RlePair.plain = pairs) (room : 2 * pairs.length ≤ s.cfg.maxOut) :
    s.encodePairs ps = (s.writeRuns (pairBytes pairs) pairs.length).complete := by
  subst plain
  rw [List.length_map] at room
  rw [State.encodePairs, emitPairs_ok s.cfg.maxOut ps 0 (by omega)]
  simp only [pairBytes_length, Nat.mul_div_cancel_left _ Nat.two_pos]
  rfl

/-- The encoders report the index that the first pair without room carries, which is the number of bytes
that the pairs before it stand for (42_rle R270, R272). -/
theorem State.encodePairs_of_overflow {ps : List RlePair} {before after : List (Nat × Byte)} {p : Nat × Byte}
    (plain : ps.map RlePair.plain = before ++ p :: after) (room : 2 * before.length ≤ s.cfg.maxOut)
    (full : s.cfg.maxOut < 2 * before.length + 2)
    (starts : ∀ a q b, ps = a ++ q :: b → q.start = (expand (a.map RlePair.plain)).length) :
    s.encodePairs ps = s.failRle ⟨.outOverflow, (expand before).length⟩ := by
  obtain ⟨a, rest, rfl, rfl, restPlain⟩ := List.map_eq_append_iff.mp plain
  obtain ⟨q, b, rfl, -, -⟩ := List.map_eq_cons_iff.mp restPlain
  rw [List.length_map] at room full
  rw [State.encodePairs, emitPairs_error s.cfg.maxOut a q b 0 (by omega) (by omega), starts a q b rfl]

end

/-! ### Which pairs the encoders emit -/

theorem plain_rleEncode {bytes : List Byte} {pairs : List (Nat × Byte)} (form : RunLengthOf bytes pairs)
    (start : Nat) : (rleEncode start bytes).map RlePair.plain = pairs :=
  (rleEncode_spec start bytes).unique form

/-- Slice by slice the pairs are the run-length forms of the slices, in order (42_rle R275). -/
theorem plain_flatMap_rleEncode {bytes : List Byte} {cs : List (Nat × Nat)}
    {parts : List (List (Nat × Byte))}
    (forms : List.Forall₂ (fun c q => RunLengthOf (slice bytes c.1 c.2) q) cs parts) :
    (cs.flatMap fun c => rleEncode c.1 (slice bytes c.1 c.2)).map RlePair.plain = parts.flatten := by
  induction forms with
  | nil => rfl
  | cons form _ ih => rw [List.flatMap_cons, List.map_append, plain_rleEncode form, ih, List.flatten_cons]

theorem State.plain_rleEncodeChunks {s : State} {w : Nat} {parts : List (List (Nat × Byte))}
    (forms : List.Forall₂ (fun c q => RunLengthOf (slice s.inData c.1 c.2) q)
      (chunks s.inLen.toNat w) parts) :
    (rleEncodeChunks w s.inData).map RlePair.plain = parts.flatten := by
  rw [← s.inData_length] at forms
  exact plain_flatMap_rleEncode forms

/-- Over all chunks every pair carries the index of its first input byte (42_rle R270, R275). -/
theorem rleEncodeChunks_starts {bytes : List Byte} {w : Nat} (positive : 1 ≤ w) (a : List RlePair)
    (q : RlePair) (b : List RlePair) (split : rleEncodeChunks w bytes = a ++ q :: b) :
    q.start = (expand (a.map RlePair.plain)).length := by
  have start := starts_of_contiguous bytes _ 0 (contiguous_chunks _ w positive)
    (fun _ inside => (mem_chunks_le positive inside).2) a q b split
  rwa [Nat.zero_add] at start

/-! ### The statements -/

/-- Settles O50: the input's run-length form is what RLE_ENC emits, and it fits. -/
theorem rleEncWritesRunLengthForm : Obligations.RleEncWritesRunLengthForm := by
  unfold Obligations.RleEncWritesRunLengthForm
  intro s pairs hc fits form room
  exact ⟨_, (exec_rleEnc fits).trans (congrArg _ (State.encodePairs_of_fits (plain_rleEncode form 0) room)),
    State.writeRuns_pairBytes_completes hc room⟩

/-- Settles O55: the run-length forms of the chunks in a row are what RLE_ENC_PAR emits, and they fit. -/
theorem rleEncParEncodesChunks : Obligations.RleEncParEncodesChunks := by
  unfold Obligations.RleEncParEncodesChunks
  intro s parts hc fits positive legal forms room
  exact ⟨_, (exec_rleEncPar fits positive legal).trans
    (congrArg _ (State.encodePairs_of_fits (State.plain_rleEncodeChunks forms) room)),
    State.writeRuns_pairBytes_completes hc room⟩

/-- Settles O51: each encoder stops at the pair `p`, which carries the index of its first input byte. -/
theorem rleEncReportsFirstPair : Obligations.RleEncReportsFirstPair := by
  unfold Obligations.RleEncReportsFirstPair
  intro s before after p fits room full
  refine ⟨fun form => ?_, fun parts positive legal forms split => ?_⟩
  · have overflow := State.encodePairs_of_overflow (plain_rleEncode form 0) room full fun a q b h => by
      simpa using rleEncode_starts h
    exact ⟨_, (exec_rleEnc fits).trans (congrArg _ overflow), failed_failRle s _⟩
  · have overflow := State.encodePairs_of_overflow ((State.plain_rleEncodeChunks forms).trans split)
      room full (rleEncodeChunks_starts positive)
    exact ⟨_, (exec_rleEncPar fits positive legal).trans (congrArg _ overflow), failed_failRle s _⟩

/-- Settles O56: in both cases there is one chunk, and a legal worker count passes its start check. -/
theorem rleEncParFallsBack : Obligations.RleEncParFallsBack := by
  unfold Obligations.RleEncParFallsBack
  intro s positive legal fallback
  have oneChunk : chunks s.inData.length s.workers.toNat = [(0, s.inData.length)] := by
    rcases fallback with short | one
    · exact chunks_of_lt (by rwa [s.inData_length])
    · rw [one, chunks_one]
  simp only [exec, execRleEncPar, execRleEnc, State.badWorkers_eq_false positive legal,
    rleEncodeChunks_of_one_chunk oneChunk, Bool.false_eq_true, if_false]

end Sys2Proof.Machine

/-! ## O52, O53, O57: the decoders

The two passes of RLE_DEC_PAR end as the loop of RLE_DEC does (`State.decodeRegions_eq`), so the statements
about both decoders are about `State.decodePairs` (42_rle R276, R277). -/

namespace Sys2Proof.Machine

/-- Settles O57: a legal worker count passes the one start check that RLE_DEC does not have. -/
theorem rleDecParEqualsRleDec : Obligations.RleDecParEqualsRleDec := by
  unfold Obligations.RleDecParEqualsRleDec
  intro s positive legal
  simp only [exec, execRleDecPar, execRleDec, State.badWorkers_eq_false positive legal,
    State.decodeRegions_eq, Bool.false_eq_true, if_false]

section
variable {s : State}

theorem State.inLen_of_pairBytes {pairs : List (Nat × Byte)} (input : s.inData = pairBytes pairs) :
    s.inLen.toNat = 2 * pairs.length := by
  rw [← s.inData_length, input, pairBytes_length]

/-- Over an input of whole pairs both decoders pass their start checks (60_exceptions R356). -/
theorem exec_rleDecoder {i : Instr} {pairs : List (Nat × Byte)} (fits : s.inLen.toNat ≤ s.cfg.maxIn)
    (input : s.inData = pairBytes pairs)
    (which : i = .rleDec ∨ (i = .rleDecPar ∧ 1 ≤ s.workers.toNat ∧ s.workers.toNat ≤ s.cfg.maxWorkers)) :
    exec i s = .next s.decodePairs := by
  have even : s.inLen.toNat % 2 = 0 := by
    rw [State.inLen_of_pairBytes input, Nat.mul_mod_right]
  rcases which with rfl | ⟨rfl, positive, legal⟩
  · exact exec_rleDec fits even
  · exact exec_rleDecPar fits even positive legal

theorem State.decodePairs_of_fits {pairs : List (Nat × Byte)} (counts : ∀ p ∈ pairs, p.1 ≤ 255)
    (input : s.inData = pairBytes pairs) (room : (expand pairs).length ≤ s.cfg.maxOut) :
    s.decodePairs = (s.writeRuns (expand pairs) pairs.length).complete := by
  have read : pairsOf s.inData = pairs := by rw [input, pairsOf_pairBytes pairs counts]
  have expands := expandPairs_ok s.cfg.maxOut s.inData 0 0 (by rw [read]; omega)
  rw [read] at expands
  rw [State.decodePairs, expands]
  simp only [State.inLen_of_pairBytes input, Nat.mul_div_cancel_left _ Nat.two_pos]
  rfl

theorem State.decodePairs_of_overflow {before after : List (Nat × Byte)} {p : Nat × Byte}
    (counts : ∀ q ∈ before ++ p :: after, q.1 ≤ 255) (input : s.inData = pairBytes (before ++ p :: after))
    (room : (expand before).length ≤ s.cfg.maxOut) (full : s.cfg.maxOut < (expand before).length + p.1) :
    s.decodePairs = s.failRle ⟨.outOverflow, 2 * before.length⟩ := by
  have stops := expandPairs_error s.cfg.maxOut p after (counts p (by simp)) before 0 0
    (fun q earlier => counts q (List.mem_append_left _ earlier)) (by omega) (by omega)
  rw [Nat.zero_add] at stops
  rw [State.decodePairs, input, stops]

end

/-- Settles O52: the decode loop writes the expansion, and IN_LEN is twice the number of pairs. -/
theorem rleDecExpandsPairs : Obligations.RleDecExpandsPairs := by
  unfold Obligations.RleDecExpandsPairs
  intro s pairs i hc fits counts input room which
  have bounds := Config.bounds hc
  have length := State.inLen_of_pairBytes input
  exact ⟨_, (exec_rleDecoder fits input which).trans
    (congrArg _ (State.decodePairs_of_fits counts input room)),
    State.writeRuns_completes (by omega) (by omega)⟩

/-- Settles O53: the decode loop stops at the pair `p`, two bytes of IN for each pair before it. -/
theorem rleDecReportsFirstPair : Obligations.RleDecReportsFirstPair := by
  unfold Obligations.RleDecReportsFirstPair
  intro s before after p i fits counts input room full which
  exact ⟨_, (exec_rleDecoder fits input which).trans
    (congrArg _ (State.decodePairs_of_overflow counts input room full)), failed_failRle s _⟩

end Sys2Proof.Machine

/-! ## O58: the order of the workers

At one index, filling a region either sets the byte or keeps it. Two regions that do not overlap cannot both
set it, so their fills commute (42_rle R278). -/

namespace Sys2Proof.Machine

/-- What filling `r` makes of the byte at index `i` (42_rle R277). -/
def RleRegion.byteAfter (i : Nat) (b : Option Byte) (r : RleRegion) : Option Byte :=
  if r.dst ≤ i ∧ i < r.dst + r.count then some r.value else b

/-- Filling regions works on every index by itself. -/
theorem get?_fillRegions (i : Nat) (regions : List RleRegion) (m : Memory) :
    (fillRegions m regions).get? i = regions.foldl (RleRegion.byteAfter i) (m.get? i) := by
  induction regions generalizing m with
  | nil => rfl
  | cons r regions ih =>
    have filled : (fillRegion m r).get? i = RleRegion.byteAfter i (m.get? i) r := get?_fillRegion m r i
    rw [List.foldl_cons, ← filled, ← ih]
    rfl

/-- Fills of regions that lie one after the other commute at every index (42_rle R278). -/
theorem RleRegion.byteAfter_comm {x y : RleRegion} (apart : x.dst + x.count ≤ y.dst) (i : Nat)
    (b : Option Byte) : byteAfter i (byteAfter i b x) y = byteAfter i (byteAfter i b y) x := by
  unfold byteAfter
  split_ifs
  · omega
  all_goals rfl

/-- Settles O58: the first pass lays the regions one after the other, so their fills commute. -/
theorem workerOrderDoesNotMatter : Obligations.WorkerOrderDoesNotMatter := by
  unfold Obligations.WorkerOrderDoesNotMatter
  intro maxOut total bytes regions order m passed perm i
  have apart := (regionPass_disjoint maxOut _ bytes 0 0 total regions le_rfl passed).2
  have commute := List.Pairwise.forall_of_forall_of_flip
    (R := fun x y => ∀ b, RleRegion.byteAfter i (RleRegion.byteAfter i b x) y =
      RleRegion.byteAfter i (RleRegion.byteAfter i b y) x)
    (fun _ _ _ => rfl) (apart.imp fun h => RleRegion.byteAfter_comm h i)
    (apart.imp fun h b => (RleRegion.byteAfter_comm h i b).symm)
  rw [get?_fillRegions, get?_fillRegions]
  exact (perm.symm.foldl_eq' (fun x hx y hy => commute hx hy) _).symm

end Sys2Proof.Machine

/-! ## O59: decoding what an encoder wrote

A successful encoder leaves pairs that stand for its input; that they are run-length forms does not matter to
a decoder (42_rle R279 item 1). -/

namespace Sys2Proof.Machine

section
variable {s t : State}

theorem State.one_le_workers (legal : ¬ s.badWorkers = true) : 1 ≤ s.workers.toNat := by
  contrapose! legal
  simp [State.badWorkers, legal]

/-- The encoders fail, or emit pairs that stand for the input, with counts that fit a byte
(42_rle R270, R275). -/
theorem exec_rleEncoder_cases {e : Instr} (encoder : e ∈ ([.rleEnc, .rleEncPar] : List Instr))
    (run : exec e s = .next t) :
    (∃ kind pos, t = s.failStart kind pos) ∨
    ∃ ps : List RlePair, t = s.encodePairs ps ∧ expand (ps.map RlePair.plain) = s.inData ∧
      ∀ p ∈ ps.map RlePair.plain, p.1 ≤ 255 := by
  have encoder : e = .rleEnc ∨ e = .rleEncPar := by simpa using encoder
  rcases encoder with rfl | rfl
  · simp only [exec, execRleEnc] at run
    split at run
    · cases run
      exact .inl ⟨_, _, rfl⟩
    · cases run
      have form := rleEncode_spec 0 s.inData
      exact .inr ⟨_, rfl, form.expands, fun p hp => (form.counts p hp).2⟩
  · simp only [exec, execRleEncPar] at run
    split at run
    · cases run
      exact .inl ⟨_, _, rfl⟩
    · split at run
      · cases run
        exact .inl ⟨_, _, rfl⟩
      · rename_i legal
        cases run
        exact .inr ⟨_, rfl, expand_rleEncodeChunks _ _ (State.one_le_workers legal),
          fun p hp => (rleEncodeChunks_counts _ _ p hp).2⟩

theorem State.encodePairs_fits {ps : List RlePair} (success : (s.encodePairs ps).errCode = 0) :
    2 * (ps.map RlePair.plain).length ≤ s.cfg.maxOut := by
  rw [List.length_map]
  rcases emitPairs_cases s.cfg.maxOut ps 0 (Nat.zero_le _) with ⟨room, -⟩ | ⟨a, p, b, -, -, -, stops⟩
  · omega
  · rw [State.encodePairs, stops] at success
    exact absurd success (ErrKind.code_ne_zero .outOverflow)

/-- What a successful encoder leaves in OUT (42_rle R279 item 1). -/
theorem outHolds_of_exec_rleEncoder {e : Instr} (hc : s.cfg.wf = true)
    (encoder : e ∈ ([.rleEnc, .rleEncPar] : List Instr)) (run : exec e s = .next t) (success : t.errCode = 0) :
    ∃ pairs, OutHolds s t (pairBytes pairs) ∧ expand pairs = s.inData ∧ ∀ p ∈ pairs, p.1 ≤ 255 := by
  rcases exec_rleEncoder_cases encoder run with ⟨kind, pos, rfl⟩ | ⟨ps, rfl, expands, counts⟩
  · exact absurd success kind.code_ne_zero
  · have room := State.encodePairs_fits success
    obtain ⟨-, holds, -⟩ := State.writeRuns_pairBytes_completes hc room
    rw [← State.encodePairs_of_fits rfl room] at holds
    exact ⟨_, holds, expands, counts⟩

end

/-- Settles O59: the decoder's input is the encoder's pairs, and it expands them (O52). -/
theorem rleRoundTrip : Obligations.RleRoundTrip := by
  unfold Obligations.RleRoundTrip
  intro s t u e d hc encoder decoder run success room fitsBack cfg workers inLen copied
  obtain ⟨pairs, holds, expands, counts⟩ := outHolds_of_exec_rleEncoder hc encoder run success
  rw [holds.outLen, holds.held] at copied
  have decoder : d = .rleDec ∨ d = .rleDecPar := by simpa using decoder
  obtain ⟨v, decodes, succeeded, out, -⟩ := rleDecExpandsPairs u pairs d (by rwa [cfg])
    (by rwa [inLen, cfg]) counts copied (by rwa [expands, cfg])
    (decoder.imp_right fun parallel => ⟨parallel, workers parallel⟩)
  exact ⟨v, decodes, succeeded, expands ▸ out⟩

end Sys2Proof.Machine

/-! ## O4: the word placed for the next step

`withFetchWord` is the accepted CMD write with the engine's step next (log 8), so the step after it is the
completion step of the word. -/

namespace Sys2Proof.Machine

/-- A number of the opcode table and the word placed for it are read as the same command. -/
theorem decode_tableWord {nbits w : Nat} {i : Instr} (reads : decodeTableWord nbits w = some i) :
    decode (tableWord nbits w) = .ok i := by
  rw [decodeTableWord, Option.ite_none_right_eq_some] at reads
  obtain ⟨-, read⟩ := reads
  change (decode (tableWord nbits w)).toOption = some i at read
  cases decoded : decode (tableWord nbits w) with
  | ok j =>
    rw [decoded] at read
    exact congrArg Except.ok (Option.some.inj read)
  | error r =>
    rw [decoded] at read
    nomatch read

theorem State.completionStep_legal {s : State} {i : Instr} (legal : decode s.latched = .ok i) :
    s.completionStep = exec i s := by
  simp only [State.completionStep, legal]

/-- The step of an accepted word, whether it is a command or not. -/
theorem step_acceptNow (s : State) (v : Word) : step (s.acceptNow v) = (s.accept v).completionStep :=
  step_engine_busy (s := s.acceptNow v) rfl rfl

/-- Settles O4: the step is the completion step of the accepted state, whose latched word is the command's. -/
theorem stepRunsPlacedCommand : Obligations.StepRunsPlacedCommand := by
  unfold Obligations.StepRunsPlacedCommand
  intro s nbits w i _ reads
  have legal : decode (s.accept (tableWord nbits w)).latched = .ok i := decode_tableWord reads
  rw [State.withFetchWord, step_acceptNow, State.completionStep_legal legal]

end Sys2Proof.Machine

/-! ## O18, O19, O20, O21: what a write to a register does

A register is reached at its address (`locate_reg`). CTRL and STATUS are written at any time (43_control
R325, R326); the other registers are written while BUSY = 0. -/

namespace Sys2Proof.Machine

section
variable {s : State} {r : Reg} {v : Word} {rest : List Input}

theorem step_write_ctrl (input : s.inputs = .write Reg.ctrl.addr .w32 v :: rest) :
    step s = .next { s with ie := v.getLsbD 0, inputs := rest, responses := .written :: s.responses } := by
  rw [step_write_mapped input (locate_reg s.cfg .ctrl), State.writeLocation, if_pos rfl]
  rfl

theorem step_write_status (input : s.inputs = .write Reg.status.addr .w32 v :: rest) :
    step s = .next { s with
      status := s.status.w1c v, inputs := rest, responses := .written :: s.responses } := by
  rw [step_write_mapped input (locate_reg s.cfg .status), State.writeLocation, if_neg nofun, if_pos rfl]
  rfl

/-- An idle write to a register that is neither CTRL nor STATUS. -/
theorem step_write_reg_idle (input : s.inputs = .write r.addr .w32 v :: rest)
    (notCtrl : r ≠ .ctrl) (notStatus : r ≠ .status) (idle : s.status.busy = false) :
    step s = .next (({ s with inputs := rest }.writeReg r v).respond .written) :=
  step_write_idle input (locate_reg s.cfg r) (notCtrl ∘ Location.reg.inj) (notStatus ∘ Location.reg.inj) idle

theorem State.writeReg_readOnly (fixed : r.readOnly = true) : s.writeReg r v = s := if_pos fixed

/-- A read-only register is neither CTRL nor STATUS, and a write to it is ignored (43_control R327). -/
theorem step_write_readOnly (input : s.inputs = .write r.addr .w32 v :: rest)
    (fixed : r.readOnly = true) (idle : s.status.busy = false) :
    step s = .next { s with inputs := rest, responses := .written :: s.responses } := by
  have writable : ∀ {q : Reg}, q.readOnly = false → r ≠ q := fun h same => by simp [← same, fixed] at h
  rw [step_write_reg_idle input (writable rfl) (writable rfl) idle, State.writeReg_readOnly fixed]
  rfl

end

/-- Settles O18: an idle CMD write is `State.accept`, and IRQ falls with DONE; while BUSY it is a dropped
write. -/
theorem cmdWriteIsAccepted : Obligations.CmdWriteIsAccepted := by
  unfold Obligations.CmdWriteIsAccepted
  intro s v rest input
  refine ⟨fun idle => ?_, fun busy => ?_⟩
  · exact ⟨_, step_write_reg_idle input nofun nofun idle, Bool.and_false _, rfl⟩
  · exact step_write_dropped input (locate_reg s.cfg .cmd) nofun nofun busy

/-- A flag under its W1C bit (43_control R325). -/
theorem and_not_eq_ite (flag bit : Bool) : (flag && !bit) = if bit then false else flag := by
  rw [Bool.if_false_left, Bool.decide_eq_true, Bool.and_comm]

/-- Settles O19: the STATUS write is `Status.w1c`, which clears each of the three flags under its bit. -/
theorem statusWriteClearsBits : Obligations.StatusWriteClearsBits := by
  unfold Obligations.StatusWriteClearsBits
  intro s v rest input
  exact ⟨_, step_write_status input, and_not_eq_ite _ _, and_not_eq_ite _ _, and_not_eq_ite _ _, rfl⟩

/-- Settles O20: the CTRL write sets IE alone, and IRQ is read off the state after it. -/
theorem ctrlWriteSetsEnable : Obligations.CtrlWriteSetsEnable := by
  unfold Obligations.CtrlWriteSetsEnable
  intro s v rest input
  have stepped := step_write_ctrl input
  refine ⟨stepped, fun t h => ?_⟩
  obtain rfl := Host.Outcome.next.inj (stepped.symm.trans h)
  rfl

/-- Settles O21: three registers are stored, CTRL, CMD and STATUS are other statements', and the rest are
read-only. -/
theorem registerWrites : Obligations.RegisterWrites := by
  unfold Obligations.RegisterWrites
  intro s r v rest idle input
  cases r with
  | inLen | symCount | workers => exact step_write_reg_idle input nofun nofun idle
  | ctrl | cmd | status => trivial
  | _ => exact step_write_readOnly input rfl idle

end Sys2Proof.Machine

/-! ## O32, O33: the control commands -/

namespace Sys2Proof.Machine

/-- Settles O32: NOP is the completion of a success, and nothing before it. -/
theorem nopWritesOnlyCompletionFields : Obligations.NopWritesOnlyCompletionFields := by
  unfold Obligations.NopWritesOnlyCompletionFields
  exact ⟨decode_encode .nop, fun _ => rfl⟩

theorem exec_clearTables (s : State) : exec .clearTables s = .next s.clearTables.complete := rfl

theorem State.freqOf_clearTables (s : State) (b : Byte) : s.clearTables.freqOf b = 0 :=
  Table.get_ofFn _ b

theorem State.ctOf_clearTables (s : State) (b : Byte) : s.clearTables.ctOf b = CtEntry.clear :=
  Table.get_ofFn _ b

/-- Settles O33: the body gives every entry its reset value and is none of the results, OUT and the
operands. -/
theorem clearTablesZeroesTables : Obligations.ClearTablesZeroesTables := by
  unfold Obligations.ClearTablesZeroesTables
  refine ⟨decode_encode .clearTables, fun s => ?_⟩
  exact ⟨_, exec_clearTables s, succeeded_complete (s := s) (u := s.clearTables) rfl false,
    s.freqOf_clearTables, s.ctOf_clearTables, rfl, ⟨rfl, rfl, rfl, rfl⟩, fun _ => rfl,
    (OperandsKept.refl s).clearTables.complete false⟩

end Sys2Proof.Machine

/-! ## O7, O30, O28, O29: how a command ends

Every ending of a command (`CommandResult`) is one of three: a success, a start-check error, which writes the
completion fields only, or an execution error, which clears the command's results (60_exceptions R353–R355). -/

namespace Sys2Proof.Machine

/-- The execution errors of each command (60_exceptions R352). -/
def executionErrors : Instr → List ErrKind
  | .nop => []
  | .hufFreq => []
  | .hufBuild => []
  | .hufPack => [.noCode, .outOverflow]
  | .hufEnc => [.outOverflow]
  | .hufDec => [.invalidBitSequence, .outOverflow, .truncatedStream]
  | .hufDecB => [.invalidBitSequence, .outOverflow]
  | .rleEnc => [.outOverflow]
  | .rleDec => [.outOverflow]
  | .rleEncPar => [.outOverflow]
  | .rleDecPar => [.outOverflow]
  | .clearTables => []

/-- What an execution error of each command clears (60_exceptions R355). -/
structure ResultsCleared (s t : State) (i : Instr) : Prop where
  out : OutScrambled s t
  outLen : t.outLen = 0
  encoder : i ∈ ([.hufPack, .hufEnc] : List Instr) → t.bitLen = 0 ∧ t.symCount = 0
  decoder : i ∈ ([.hufDec, .hufDecB] : List Instr) → t.bitLen = 0
  rle : i ∈ ([.rleEnc, .rleDec, .rleEncPar, .rleDecPar] : List Instr) → t.runs = 0

/-- The three ways in which a command ends (60_exceptions R353–R355). -/
inductive CommandEnd (s : State) (i : Instr) (t : State) : Prop where
  | success (tail : Bool) (fields : Succeeded s t tail) (mode : tail = true → i = .hufDecB)
  | startError (e : CodecError) (kind : e.kind ∈ startErrors i) (only : t = s.reportError e)
  | executionError (e : CodecError) (kind : e.kind ∈ executionErrors i)
      (fields : Failed s t e.kind e.pos) (cleared : ResultsCleared s t i)

section
variable {s : State} {i : Instr}

theorem ResultsCleared.failPack (u : State) (e : CodecError) (draws : u.draws = s.draws)
    (which : i = .hufPack ∨ i = .hufEnc) : ResultsCleared s (u.failPack e) i where
  out := ⟨rfl, draws, congrArg (· + 1) draws⟩
  outLen := rfl
  encoder _ := ⟨rfl, rfl⟩
  decoder _ := rfl
  rle named := by rcases which with rfl | rfl <;> exact absurd named (by decide)

theorem ResultsCleared.failDecode (e : CodecError) (which : i = .hufDec ∨ i = .hufDecB) :
    ResultsCleared s (s.failDecode e) i where
  out := ⟨rfl, rfl, rfl⟩
  outLen := rfl
  encoder named := by rcases which with rfl | rfl <;> exact absurd named (by decide)
  decoder _ := rfl
  rle named := by rcases which with rfl | rfl <;> exact absurd named (by decide)

theorem ResultsCleared.failRle (e : CodecError)
    (which : i = .rleEnc ∨ i = .rleEncPar ∨ i = .rleDec ∨ i = .rleDecPar) :
    ResultsCleared s (s.failRle e) i where
  out := ⟨rfl, rfl, rfl⟩
  outLen := rfl
  encoder named := by rcases which with rfl | rfl | rfl | rfl <;> exact absurd named (by decide)
  decoder named := by rcases which with rfl | rfl | rfl | rfl <;> exact absurd named (by decide)
  rle _ := rfl

/-- Every ending of a command is one of the three. -/
theorem CommandResult.commandEnd {t : State} (h : CommandResult s i t) : CommandEnd s i t := by
  have succeeds : ∀ (u : State) (tail : Bool), u.status = s.status → (tail = true → i = .hufDecB) →
      CommandEnd s i (u.complete tail) :=
    fun u tail same mode => .success tail (succeeded_complete (congrArg Status.overrun same) tail) mode
  cases h with
  | startError e kind => exact .startError e kind rfl
  | packError e which _ kind =>
    subst which
    exact .executionError e (by simpa [executionErrors] using kind) (failed_failPack s e)
      (.failPack s e rfl (.inl rfl))
  | encodeError e which _ _ kind =>
    subst which
    exact .executionError e (by simpa [executionErrors] using kind)
      { failed_failPack s.writeFreq.writeTable e with } (.failPack _ e rfl (.inr rfl))
  | decodeError e which _ kind =>
    refine .executionError e ?_ (failed_failDecode s e) (.failDecode e which)
    rcases which with rfl | rfl <;> simpa [executionErrors] using kind
  | rleError e which _ kind =>
    refine .executionError e ?_ (failed_failRle s e) (.failRle e which)
    rcases which with rfl | rfl | rfl | rfl <;> simpa [executionErrors] using kind
  | decode out pos tail _ _ _ _ mode => exact succeeds (s.writeDecoded out pos) tail rfl mode
  | _ => exact succeeds _ false rfl nofun

/-- The completion fields that a command ends with, and the errors it can report. -/
theorem CommandEnd.succeeded_or_failed {t : State} (h : CommandEnd s i t) :
    (∃ tail, Succeeded s t tail ∧ (tail = true → i = .hufDecB)) ∨
      ∃ e : CodecError, Failed s t e.kind e.pos ∧ e.kind ∈ startErrors i ++ executionErrors i := by
  cases h with
  | success tail fields mode => exact .inl ⟨tail, fields, mode⟩
  | startError e kind only =>
    subst only
    exact .inr ⟨e, failed_reportError rfl e, List.mem_append_left _ kind⟩
  | executionError e kind fields => exact .inr ⟨e, fields, List.mem_append_right _ kind⟩

end

/-! ### O7: no step stops, and every command completes -/

theorem State.completionStep_next (s : State) : ∃ t, s.completionStep = .next t := by
  cases decoded : decode s.latched with
  | ok i =>
    obtain ⟨t, ends, -⟩ := exec_result i s
    exact ⟨t, (State.completionStep_legal decoded).trans ends⟩
  | error r => exact ⟨_, State.completionStep_illegal decoded⟩

theorem State.engineTurn_next (s : State) : ∃ t, s.engineTurn = .next t := by
  unfold State.engineTurn
  split
  · exact s.completionStep_next
  · exact ⟨s, rfl⟩

theorem State.takeInput_next (s : State) (rest : List Input) (input : Input) :
    ∃ t, s.takeInput rest input = .next t := by
  cases input with
  | read | write | reset => exact ⟨_, rfl⟩
  | engine => exact State.engineTurn_next _
  | wait =>
    simp only [State.takeInput]
    split
    · exact s.completionStep_next
    · exact ⟨_, rfl⟩

/-- No step stops (60_exceptions R350). -/
theorem step_next (s : State) : ∃ t, step s = .next t := by
  unfold step State.advance
  split
  · exact s.engineTurn_next
  · exact s.takeInput_next _ _

/-- Settles O7: a step is a host access, reset or the completion step, and each of a command's endings
writes all the completion fields. -/
theorem everyCommandCompletes : Obligations.EveryCommandCompletes := by
  unfold Obligations.EveryCommandCompletes
  refine ⟨step_next, fun i s => ?_⟩
  obtain ⟨t, ends, result⟩ := exec_result i s
  refine ⟨t, ends, ?_⟩
  rcases result.commandEnd.succeeded_or_failed with ⟨tail, fields, mode⟩ | ⟨e, fields, -⟩
  · exact ⟨fields.phase, fields.busy, fields.done, by simp [fields.err, fields.errCode],
      fun partialTail => ⟨mode (fields.partialTail ▸ partialTail), fields.errCode⟩, fields.overrun,
      fun _ => fields.faultPos⟩
  · have code : t.errCode ≠ 0 := fields.errCode ▸ e.kind.code_ne_zero
    exact ⟨fields.phase, fields.busy, fields.done, iff_of_true fields.err code,
      fun partialTail => absurd partialTail (by simp [fields.partialTail]), fields.overrun,
      fun noError => absurd noError code⟩

/-! ### O30: the error codes of each command -/

/-- ERR_CODE after a command: 0, or the code of one of its errors (60_exceptions R351, R352). -/
def errorCodes (i : Instr) : List (BitVec 4) :=
  0 :: (startErrors i ++ executionErrors i).map ErrKind.code

theorem CommandEnd.errCode_mem {s t : State} {i : Instr} (h : CommandEnd s i t) :
    t.errCode ∈ errorCodes i := by
  rcases h.succeeded_or_failed with ⟨tail, fields, -⟩ | ⟨e, fields, kind⟩
  · rw [fields.errCode]
    exact List.mem_cons_self
  · rw [fields.errCode]
    exact List.mem_cons_of_mem _ (List.mem_map_of_mem kind)

/-- Settles O30: each row holds the codes of the command's start-check and execution errors. -/
theorem errorsAsTabulated : Obligations.ErrorsAsTabulated := by
  unfold Obligations.ErrorsAsTabulated
  intro i s t h
  have code : t.errCode ∈ errorCodes i := (exec_cases h).commandEnd.errCode_mem
  revert code
  generalize t.errCode = c
  cases i <;> revert c <;> decide

/-! ### O28, O29: what is left after an error -/

theorem ErrKind.isStartCheck_of_code {k : ErrKind}
    (h : k.code ∈ ([1, 3, 4, 8, 9, 10, 11] : List (BitVec 4))) : k.isStartCheck = true := by
  cases k <;> revert h <;> decide

theorem ErrKind.isStartCheck_of_execution_code {k : ErrKind}
    (h : k.code ∈ ([2, 5, 6, 7] : List (BitVec 4))) : k.isStartCheck = false := by
  cases k <;> revert h <;> decide

theorem isStartCheck_of_mem_startErrors {i : Instr} : ∀ k ∈ startErrors i, k.isStartCheck = true := by
  cases i <;> decide

theorem isStartCheck_of_mem_executionErrors {i : Instr} :
    ∀ k ∈ executionErrors i, k.isStartCheck = false := by
  cases i <;> decide

/-- Of the commands that report execution errors, HUF_ENC alone writes the tables. -/
theorem keepsTables_of_executionError {i : Instr} {k : ErrKind} (h : k ∈ executionErrors i)
    (other : i ≠ .hufEnc) : i ∈ ([.nop, .hufPack, .hufDec, .hufDecB, .rleEnc, .rleDec, .rleEncPar,
      .rleDecPar] : List Instr) := by
  cases i with
  | hufFreq | hufBuild | clearTables => exact absurd h List.not_mem_nil
  | hufEnc => exact absurd rfl other
  | _ => decide

section
variable {s t : State} {i : Instr}

/-- A command that ends in a start-check error does nothing but report it (60_exceptions R354). -/
theorem CommandEnd.eq_reportError (h : CommandEnd s i t)
    (code : t.errCode ∈ ([1, 3, 4, 8, 9, 10, 11] : List (BitVec 4))) :
    ∃ e : CodecError, t = s.reportError e := by
  cases h with
  | success tail fields =>
    rw [fields.errCode] at code
    exact absurd code (by decide)
  | startError e kind only => exact ⟨e, only⟩
  | executionError e kind fields =>
    rw [fields.errCode] at code
    have execution := isStartCheck_of_mem_executionErrors _ kind
    exact absurd (ErrKind.isStartCheck_of_code code) (by simp [execution])

/-- A command that ends in an execution error clears its results (60_exceptions R355). -/
theorem CommandEnd.resultsCleared (h : CommandEnd s i t)
    (code : t.errCode ∈ ([2, 5, 6, 7] : List (BitVec 4))) :
    ResultsCleared s t i ∧
      ∃ e : CodecError, e.kind ∈ executionErrors i ∧ Failed s t e.kind e.pos := by
  cases h with
  | success tail fields =>
    rw [fields.errCode] at code
    exact absurd code (by decide)
  | startError e kind only =>
    subst only
    have start := isStartCheck_of_mem_startErrors _ kind
    exact absurd (ErrKind.isStartCheck_of_execution_code code) (by simp [start])
  | executionError e kind fields cleared => exact ⟨cleared, e, kind, fields⟩

/-- The completion step of any word that ends in a start-check error does nothing but report it. -/
theorem State.completionStep_eq_reportError (h : s.completionStep = .next t)
    (code : t.errCode ∈ ([1, 3, 4, 8, 9, 10, 11] : List (BitVec 4))) :
    ∃ e : CodecError, t = s.reportError e := by
  cases decoded : decode s.latched with
  | ok i =>
    rw [State.completionStep_legal decoded] at h
    exact (exec_cases h).commandEnd.eq_reportError code
  | error r =>
    rw [State.completionStep_illegal decoded] at h
    exact ⟨_, (Host.Outcome.next.inj h).symm⟩

/-- The tables that HUF_ENC leaves on an execution error are those of its FREQ and BUILD stages
(60_exceptions R355). -/
theorem CommandResult.encode_keeps_stages (h : CommandResult s .hufEnc t)
    (code : t.errCode ∈ ([2, 5, 6, 7] : List (BitVec 4))) :
    ∃ u w, exec .hufFreq s = .next u ∧ exec .hufBuild u = .next w ∧ TablesKept w t := by
  cases h with
  | encodeError e _ fits nonempty =>
    have present : ∃ b, s.writeFreq.complete.freqOf b ≠ 0 := State.writeFreq_present nonempty
    exact ⟨_, _, exec_hufFreq fits, exec_hufBuild present, rfl, rfl, rfl⟩
  | startError e kind =>
    have start := isStartCheck_of_mem_startErrors _ kind
    exact absurd (ErrKind.isStartCheck_of_execution_code code) (by simp [start])
  | packError _ which | decodeError _ which | rleError _ which => exact absurd which (by decide)
  | _ => exact absurd code (by decide : (0 : BitVec 4) ∉ ([2, 5, 6, 7] : List (BitVec 4)))

end

/-- Settles O28: the error is reported, and reporting writes the completion fields. -/
theorem startCheckErrorsChangeNothing : Obligations.StartCheckErrorsChangeNothing := by
  unfold Obligations.StartCheckErrorsChangeNothing
  intro s t h code
  obtain ⟨e, rfl⟩ := State.completionStep_eq_reportError h code
  rfl

/-- Settles O29: the error clears the results; what else the command does not write is O26's, and
HUF_ENC's tables are those of its stages. -/
theorem executionErrorsClearResults : Obligations.ExecutionErrorsClearResults := by
  unfold Obligations.ExecutionErrorsClearResults
  intro i s t h code
  have result := exec_cases h
  obtain ⟨cleared, e, kind, fields⟩ := result.commandEnd.resultsCleared code
  obtain ⟨-, tables, -, -, encoderRuns, decoderKept, rleKept⟩ := commandsKeepWhatTheyDoNotWrite i s t h
  refine ⟨cleared.out, cleared.outLen, fields.err, fields.partialTail, fun named => ?_, fun named => ?_,
    fun named => ?_, fun other => ?_, ?_⟩
  · obtain ⟨bitLen, symCount⟩ := cleared.encoder named
    exact ⟨bitLen, symCount, encoderRuns named⟩
  · exact ⟨cleared.decoder named, decoderKept named⟩
  · exact ⟨cleared.rle named, rleKept named⟩
  · exact tables (keepsTables_of_executionError kind other)
  · rintro rfl
    exact result.encode_keeps_stages code

end Sys2Proof.Machine

/-! ## O31: the start checks

Each check of 60_exceptions R356, past those before it, reports its error and nothing else. -/

namespace Sys2Proof.Machine

/-- A command that only reports an error has failed with it. -/
theorem failed_of_exec {i : Instr} {s : State} {kind : ErrKind} {pos : Nat}
    (h : exec i s = .next (s.failStart kind pos)) : ∃ t, exec i s = .next t ∧ Failed s t kind pos :=
  ⟨_, h, failed_reportError rfl ⟨kind, pos⟩⟩

section
variable {s : State}

theorem State.inTooLong_eq_true (h : s.cfg.maxIn < s.inLen.toNat) : s.inTooLong = true := by
  simpa [State.inTooLong] using h

theorem State.badWorkers_eq_true (h : s.workers.toNat = 0 ∨ s.cfg.maxWorkers < s.workers.toNat) :
    s.badWorkers = true := by
  simpa [State.badWorkers] using h

theorem State.oddLength_eq_true (h : s.inLen.toNat % 2 = 1) : s.oddLength = true := by
  simp [State.oddLength, h]

theorem exec_tooLong (long : s.cfg.maxIn < s.inLen.toNat) {i : Instr}
    (checks : i ∈ ([.hufFreq, .hufPack, .hufEnc, .hufDec, .hufDecB, .rleEnc, .rleDec, .rleEncPar,
      .rleDecPar] : List Instr)) :
    exec i s = .next (s.failStart .inLenTooLarge 0) := by
  have tooLong := State.inTooLong_eq_true long
  cases i with
  | nop | hufBuild | clearTables => exact absurd checks (by decide)
  | _ => exact if_pos tooLong

theorem exec_badWorkers (fits : s.inLen.toNat ≤ s.cfg.maxIn)
    (bad : s.workers.toNat = 0 ∨ s.cfg.maxWorkers < s.workers.toNat) {i : Instr}
    (checks : i ∈ ([.rleEncPar, .rleDecPar] : List Instr)) :
    exec i s = .next (s.failStart .badWorkers 0) := by
  have short := Bool.eq_false_iff.mp (State.inTooLong_eq_false fits)
  have bad' := State.badWorkers_eq_true bad
  cases i with
  | rleEncPar | rleDecPar => exact (if_neg short).trans (if_pos bad')
  | _ => exact absurd checks (by decide)

theorem exec_rleDec_odd (fits : s.inLen.toNat ≤ s.cfg.maxIn) (odd : s.inLen.toNat % 2 = 1) :
    exec .rleDec s = .next (s.failStart .rleOddLength (s.inLen.toNat - 1)) :=
  (if_neg (Bool.eq_false_iff.mp (State.inTooLong_eq_false fits))).trans
    (if_pos (State.oddLength_eq_true odd))

theorem exec_rleDecPar_odd (fits : s.inLen.toNat ≤ s.cfg.maxIn) (odd : s.inLen.toNat % 2 = 1)
    (positive : 1 ≤ s.workers.toNat) (legal : s.workers.toNat ≤ s.cfg.maxWorkers) :
    exec .rleDecPar s = .next (s.failStart .rleOddLength (s.inLen.toNat - 1)) :=
  (if_neg (Bool.eq_false_iff.mp (State.inTooLong_eq_false fits))).trans
    ((if_neg (Bool.eq_false_iff.mp (State.badWorkers_eq_false positive legal))).trans
      (if_pos (State.oddLength_eq_true odd)))

/-- Without a VALID entry and with something to decode, the decoders report it (41_huffman_decode R234,
R235). -/
theorem State.decodeWith_missing (none : ∀ b, (s.ctOf b).valid = false) {needed : Bool}
    (something : needed = true) (body : State → DecodeNode → State) :
    s.decodeWith needed body = s.failStart .missingCodeTable 0 := by
  have absent : validEntries s.ct = 0 := (validEntries_eq_zero s.ct).mpr none
  rw [State.decodeWith, if_pos absent, if_pos something]

end

/-- Settles O31: each check's command reports its error once the checks before it have passed. -/
theorem startCheckOrder : Obligations.StartCheckOrder := by
  unfold Obligations.StartCheckOrder
  intro s
  refine ⟨fun long i checks => failed_of_exec (exec_tooLong long checks),
    fun fits bad i checks => failed_of_exec (exec_badWorkers fits bad checks),
    fun fits odd => ⟨failed_of_exec (exec_rleDec_odd fits odd),
      fun positive legal => failed_of_exec (exec_rleDecPar_odd fits odd positive legal)⟩,
    fun absent => failed_of_exec (exec_hufBuild_empty absent),
    fun fits none => ⟨fun count => failed_of_exec ?_, fun input => failed_of_exec ?_⟩⟩
  · rw [exec_hufDec fits, State.decodeWith_missing none (bne_iff_ne.mpr count)]
  · rw [exec_hufDecB fits, State.decodeWith_missing none (bne_iff_ne.mpr input)]

end Sys2Proof.Machine

/-! ## O5: the engine's turn -/

namespace Sys2Proof.Machine

/-- Settles O5: each way in which the engine gets its turn is the completion step of the legal word. -/
theorem engineRunsLatchedCommand : Obligations.EngineRunsLatchedCommand := by
  unfold Obligations.EngineRunsLatchedCommand
  intro s i rest busy legal
  exact ⟨fun input => (step_no_input_busy busy input).trans (State.completionStep_legal legal),
    fun input => (step_engine_busy busy input).trans (State.completionStep_legal legal),
    fun input => (step_wait_busy busy input).trans (State.completionStep_legal legal)⟩

end Sys2Proof.Machine

/-! ## O9, O10: reset

What each part of HRC's state holds after reset (70_reset R400, R402), said once of `State.applyReset`. -/

namespace Sys2Proof.Machine

/-- Settles O9: legal parameters are all that `State.Inv.resetWith` asks, and `State.reset` takes the
legal ones of `Config.standard` (log 1). -/
theorem resetMeetsInvariant : Obligations.ResetMeetsInvariant := by
  unfold Obligations.ResetMeetsInvariant
  have standardLegal : Config.standard.wf = true := by decide
  exact ⟨State.Inv.resetWith standardLegal 0, fun _ n legal => State.Inv.resetWith legal n⟩

@[simp] theorem CtEntry.metaWord_clear : CtEntry.clear.metaWord = 0 := by decide

@[simp] theorem CtEntry.codeWord_clear (k : Nat) : CtEntry.clear.codeWord k = 0 :=
  BitVec.extractLsb'_zero

theorem Status.word_clear : Status.word ⟨false, false, false, false, false⟩ = 0 := by decide

theorem State.ctrlWord_eq_zero {s : State} (disabled : s.ie = false) : s.ctrlWord = 0 := by
  rw [State.ctrlWord, disabled]
  decide

section
variable (s : State)

theorem State.regWord_applyReset_eq_zero {r : Reg}
    (zeroed : r ∈ ([.ctrl, .cmd, .status, .errCode, .faultPos, .inLen, .outLen, .symCount, .bitLen,
      .tableEntries, .runs] : List Reg)) : s.applyReset.regWord r = 0 := by
  cases r with
  | id | capIn | capOut | capWorkers | workers => exact absurd zeroed (by decide)
  | ctrl => exact State.ctrlWord_eq_zero rfl
  | status => exact Status.word_clear
  | _ => rfl

theorem State.freqOf_applyReset (b : Byte) : s.applyReset.freqOf b = 0 := Table.get_replicate 0 b

theorem State.ctOf_applyReset (b : Byte) : s.applyReset.ctOf b = CtEntry.clear :=
  Table.get_replicate CtEntry.clear b

theorem State.inByte_applyReset (i : Nat) : s.applyReset.inByte i = Config.freeByte s.draws i := rfl

theorem State.outByte_applyReset (i : Nat) :
    s.applyReset.outByte i = Config.freeByte (s.draws + 1) i := rfl

end

/-- Reset is applied whatever the phase (70_reset R401). -/
theorem step_reset {s : State} {rest : List Input} (hin : s.inputs = .reset :: rest) :
    step s = .next { s with inputs := rest }.applyReset := by
  unfold step State.advance
  rw [hin]
  rfl

/-- Settles O10: the step is `State.applyReset` in every phase, and its draws for IN and OUT are the next
two that `s` had not made. -/
theorem resetRestoresEveryValue : Obligations.ResetRestoresEveryValue := by
  unfold Obligations.ResetRestoresEveryValue
  intro s rest input
  let taken : State := { s with inputs := rest }
  have codeTable (b : Byte) : (taken.applyReset.ctOf b).metaWord = 0 ∧
      ∀ k, (taken.applyReset.ctOf b).codeWord k = 0 := by
    rw [taken.ctOf_applyReset b]
    exact ⟨CtEntry.metaWord_clear, CtEntry.codeWord_clear⟩
  have inFresh : s.draws ≤ taken.applyReset.inDraw := Nat.le_refl s.draws
  have outFresh : s.draws ≤ taken.applyReset.outDraw := Nat.le_succ s.draws
  have drawsDiffer : taken.applyReset.inDraw ≠ taken.applyReset.outDraw :=
    Nat.ne_of_lt (Nat.lt_succ_self s.draws)
  exact ⟨taken.applyReset, step_reset input, rfl, rfl, rfl, rfl, rfl,
    fun _ zeroed => taken.regWord_applyReset_eq_zero zeroed, rfl, taken.freqOf_applyReset, codeTable,
    rfl, rfl, rfl, taken.inByte_applyReset, taken.outByte_applyReset, inFresh, outFresh, drawsDiffer,
    rfl, rfl⟩

end Sys2Proof.Machine
